-- ==== Sys2Proof/Word.lean ====
section
/-! DEFINITION. The word types of the codec (00_scope.md R7, R8): bytes, command words, register data.
All quantities are unsigned. -/

namespace Sys2Proof

/-- A byte: 8 bits, bit 7 the most significant (R7). -/
abbrev Byte := BitVec 8

/-- A command word: opcode in bits 15:8, operand in bits 7:0 (R81). -/
abbrev CmdWord := BitVec 16

/-- The data of one host register access (R34: "register data is 32 bits"). -/
abbrev RegData := BitVec 32

end Sys2Proof
end

