-- ==== Sys2Proof/Config.lean ====
section
/-! DEFINITION. The record of parameters of 00_scope.md R6, the values "this hardware takes", and the constraints on them.
The OPEN parameters (92_eei_decisions.md D16, D17: the block type tags, the packet types) are the configuration a codec is
given: State carries their record, constant, and the step reads it there. The other parameters have one value each: the rules
of 41_dfsi_subframe.md to 43_issi_blocks.md give the wire formats of that value in numbers, and "the register map, the memory
ids and the operand forms of this spec are laid out for these defaults" (93_implementation_defined.md I30). -/

namespace Sys2Proof.Config

/-- The OPEN parameters (R6; D16, D17). -/
structure OpenParams where
  /-- `BT_RF_PTT_CONTROL_WORD`: block type tag (OPEN, D16). -/
  btRfPttControlWord : Nat
  /-- `BT_FULL_RATE_VOICE`: block type tag (OPEN, D16). -/
  btFullRateVoice : Nat
  /-- `PT_PTT_TRANSMIT_PROGRESS`: packet type value (OPEN, D17). -/
  ptProgress : Nat
  /-- `PT_PTT_TRANSMIT_START`: packet type value (OPEN, D17). -/
  ptStart : Nat
deriving DecidableEq, Repr

/-- All parameters (R6), those of one value in the order of its table. -/
structure Params extends OpenParams where
  /-- `IMBE_LEN`: bytes in one IMBE codeword. -/
  imbeLen : Nat
  /-- `LDU_BUF_LEN`: bytes in one LDU scratch buffer. -/
  lduBufLen : Nat
  /-- `LDU_REC_LEN`: bytes in one LDU record. -/
  lduRecLen : Nat
  /-- `MOFF[0..8]`: marker offsets in an LDU record (R68). -/
  moffTable : List Nat
  /-- `CLEN[0..8]`: chunk lengths (R68). -/
  clenTable : List Nat
  /-- `DOFF[0..8]`: chunk destination offsets in the LDU buffer (R69). -/
  doffTable : List Nat
  /-- `IOFF[0..8]`: codeword offsets in the LDU buffer (R69). -/
  ioffTable : List Nat
  /-- `FT_LDU1_BASE`: discriminant of VOICE1. -/
  ftLdu1Base : Nat
  /-- `FT_LDU2_BASE`: discriminant of VOICE10. -/
  ftLdu2Base : Nat
  /-- `SF_LEN[ft]`: sub-frame lengths by position in the LDU. -/
  sfLenTable : List Nat
  /-- `SF_IMBE[ft]`: codeword offsets inside a sub-frame by position in the LDU. -/
  sfImbeTable : List Nat
  /-- `HDR_LEN`: outer message header size. -/
  hdrLen : Nat
  /-- `LEN_OFF`: offset of the one-byte length field. -/
  lenOff : Nat
  /-- `LEN_MAX`: largest count the length field may hold. -/
  lenMax : Nat
  /-- `PTT_LEN`: bytes in a PTT control block. -/
  pttLen : Nat
  /-- `FRV_FIXED_LEN`: bytes in the fixed part of a voice block. -/
  frvFixedLen : Nat
  /-- `PTT_DEFAULT_PRIO`: priority in a PTT-start packet. -/
  pttDefaultPrio : Nat
  /-- `VBB_DEFAULT`: voice-block bundling in a voice-progress packet. -/
  vbbDefault : Nat
  /-- `BH_LEN`: bytes in one block header. -/
  bhLen : Nat
  /-- `PKT_LEN`: bytes in the packet-type block. -/
  pktLen : Nat
  /-- `FRH_LEN`: bytes in the full-rate header. -/
  frhLen : Nat
  /-- `BUF_SIZE`: bytes in each of IB and OB. -/
  bufSize : Nat
  /-- `NBH`: block-header slots. -/
  nbh : Nat
  /-- `NVB`: voice-block slots. -/
  nvb : Nat
  /-- `AFD_MAX`: bytes of additional frame data per voice block. -/
  afdMax : Nat
  /-- `PAFD_MAX`: bytes of payload-level additional frame data. -/
  pafdMax : Nat
  /-- `NF`: field slots of the bit-packer. -/
  nf : Nat
  /-- `ACC_BITS`: width of the bit-packer accumulator. -/
  accBits : Nat
deriving DecidableEq, Repr

/-- The parameters of a codec whose OPEN ones are `o`: the others at the column "value" of R6. -/
abbrev paramsFor (o : OpenParams) : Params where
  toOpenParams := o
  imbeLen := 11
  lduBufLen := 216
  lduRecLen := 154
  moffTable := [0, 22, 36, 53, 70, 87, 104, 121, 138]
  clenTable := [22, 14, 17, 17, 17, 17, 17, 17, 16]
  doffTable := [0, 25, 50, 75, 100, 125, 150, 175, 200]
  ioffTable := [10, 26, 55, 80, 105, 130, 155, 180, 204]
  ftLdu1Base := 0x62
  ftLdu2Base := 0x6B
  sfLenTable := [22, 14, 17, 17, 17, 17, 17, 17, 16]
  sfImbeTable := [10, 1, 5, 5, 5, 5, 5, 5, 4]
  hdrLen := 24
  lenOff := 23
  lenMax := 255
  pttLen := 8
  frvFixedLen := 14
  pttDefaultPrio := 4
  vbbDefault := 3
  bhLen := 4
  pktLen := 4
  frhLen := 1
  bufSize := 256
  nbh := 4
  nvb := 3
  afdMax := 16
  pafdMax := 64
  nf := 8
  accBits := 64

/-- The OPEN parameters at the column "value" of R6 (log entry 5). -/
abbrev hardwareOpen : OpenParams where
  btRfPttControlWord := 0x01
  btFullRateVoice := 0x05
  ptProgress := 0x02
  ptStart := 0x04

/-- The column "value" of R6, the values "this hardware takes" (log entry 5). -/
abbrev hardware : Params := paramsFor hardwareOpen

/-! ### The constraints -/

/-- Position `i` of a table, 0 beyond its end. -/
def entry (table : List Nat) (i : Nat) : Nat := table.getD i 0

/-- The constraints of R6 on the OPEN parameters: two packet types that differ, all four below 128. -/
def OpenParams.constraintsHold (o : OpenParams) : Bool :=
  o.ptProgress != o.ptStart && decide (o.ptProgress < 128) && decide (o.ptStart < 128)
  && decide (o.btRfPttControlWord < 128) && decide (o.btFullRateVoice < 128)

/-- The constraints of R6 on the other parameters: those below its table, those its column "meaning" states
(1 <= NBH <= 63, NVB >= 3; LDU_REC_LEN the sum of the chunk lengths), and nine entries in each table. -/
def Params.layoutHolds (p : Params) : Bool :=
  decide (p.hdrLen = p.lenOff + 1)
  && [p.moffTable, p.clenTable, p.doffTable, p.ioffTable, p.sfLenTable, p.sfImbeTable].all (fun t => t.length == 9)
  && (List.range 8).all (fun i => entry p.moffTable (i + 1) == entry p.moffTable i + entry p.clenTable i)
  && (List.range 9).all (fun i => entry p.sfLenTable i == entry p.clenTable i)
  && (List.range 9).all (fun i => entry p.doffTable i + entry p.sfImbeTable i == entry p.ioffTable i)
  && decide (entry p.doffTable 8 + entry p.clenTable 8 = p.lduBufLen)
  && (List.range 9).all (fun i => decide (entry p.sfImbeTable i + p.imbeLen ≤ entry p.sfLenTable i))
  && decide (p.hdrLen + p.lduRecLen ≤ p.bufSize)
  && decide (p.lduRecLen = p.clenTable.foldr (· + ·) 0)
  && decide (1 ≤ p.nbh) && decide (p.nbh ≤ 63) && decide (3 ≤ p.nvb)

/-- The constraints of R6 "so that a model can check a configuration". -/
def Params.constraintsHold (p : Params) : Bool := p.toOpenParams.constraintsHold && p.layoutHolds

/-! ### The parameters that have one value, the same in every `paramsFor o` -/

/-- `IMBE_LEN` (R6). -/
abbrev imbeLen : Nat := hardware.imbeLen
/-- `LDU_BUF_LEN` (R6). -/
abbrev lduBufLen : Nat := hardware.lduBufLen
/-- `LDU_REC_LEN` (R6). -/
abbrev lduRecLen : Nat := hardware.lduRecLen
/-- `FT_LDU1_BASE` (R6). -/
abbrev ftLdu1Base : Nat := hardware.ftLdu1Base
/-- `FT_LDU2_BASE` (R6). -/
abbrev ftLdu2Base : Nat := hardware.ftLdu2Base
/-- `HDR_LEN` (R6). -/
abbrev hdrLen : Nat := hardware.hdrLen
/-- `LEN_OFF` (R6). -/
abbrev lenOff : Nat := hardware.lenOff
/-- `LEN_MAX` (R6). -/
abbrev lenMax : Nat := hardware.lenMax
/-- `PTT_LEN` (R6). -/
abbrev pttLen : Nat := hardware.pttLen
/-- `FRV_FIXED_LEN` (R6). -/
abbrev frvFixedLen : Nat := hardware.frvFixedLen
/-- `BH_LEN` (R6). -/
abbrev bhLen : Nat := hardware.bhLen
/-- `PKT_LEN` (R6). -/
abbrev pktLen : Nat := hardware.pktLen
/-- `FRH_LEN` (R6). -/
abbrev frhLen : Nat := hardware.frhLen
/-- `PTT_DEFAULT_PRIO` (R6). -/
abbrev pttDefaultPrio : Nat := hardware.pttDefaultPrio
/-- `VBB_DEFAULT` (R6). -/
abbrev vbbDefault : Nat := hardware.vbbDefault
/-- `BUF_SIZE` (R6). -/
abbrev bufSize : Nat := hardware.bufSize
/-- `NBH` (R6). -/
abbrev nbh : Nat := hardware.nbh
/-- `NVB` (R6). -/
abbrev nvb : Nat := hardware.nvb
/-- `AFD_MAX` (R6). -/
abbrev afdMax : Nat := hardware.afdMax
/-- `PAFD_MAX` (R6). -/
abbrev pafdMax : Nat := hardware.pafdMax
/-- `NF` (R6). -/
abbrev nf : Nat := hardware.nf
/-- `ACC_BITS` (R6). -/
abbrev accBits : Nat := hardware.accBits

/-- `MOFF[i]`. -/
def moff (i : Nat) : Nat := entry hardware.moffTable i
/-- `CLEN[i]`. -/
def clen (i : Nat) : Nat := entry hardware.clenTable i
/-- `DOFF[i]`. -/
def doff (i : Nat) : Nat := entry hardware.doffTable i
/-- `IOFF[i]`. -/
def ioff (i : Nat) : Nat := entry hardware.ioffTable i

/-- The last discriminant, that of VOICE18 (R85). -/
abbrev ftLast : Nat := ftLdu2Base + 8
/-- The position 0..8 of a frame type in its LDU. -/
def sfPos (ft : Nat) : Nat := (ft - ftLdu1Base) % 9
/-- `SF_LEN[ft]`: sub-frame length by frame type, for ft in 0x62..0x73 (R6, R120). -/
def sfLen (ft : Nat) : Nat := entry hardware.sfLenTable (sfPos ft)
/-- `SF_IMBE[ft]`: codeword offset inside a sub-frame, for ft in 0x62..0x73 (R6). -/
def sfImbe (ft : Nat) : Nat := entry hardware.sfImbeTable (sfPos ft)

/-! ### Constants of other rules -/

/-- The widest field of a bit-packer descriptor (R115). -/
abbrev fieldMax : Nat := 32
/-- The hardwired value of `ID` (R27). -/
abbrev idValue : RegData := 0x44460100#32

end Sys2Proof.Config
end

