-- ==== Sys2Proof/Syntax.lean ====
section
/-! DEFINITION. The instructions: one constructor per row of spec/opcode_table.json.
The 30 command words carry the operand fields of their form (R82): NONE an operand byte, FT a frame
type, IDX a slot, SEL the fields k, j, i. A field holds any value: a malformed operand (R84) is an
operand, and the command then ends with ERR_OPERAND.
The 18 sub-frame formats carry the metadata their rule names (R122 to R139) and the codeword, a string of
IMBE_LEN = 11 bytes (R62: a byte string, not a number). -/

namespace Sys2Proof

/-- The instructions of the codec. -/
inductive Instr where
  /-- `NOP`, R246. -/
  | nop (operand : Byte)
  /-- `RESET`, R244. -/
  | reset (operand : Byte)
  /-- `BP.PACK`, R112. -/
  | bpPack (operand : Byte)
  /-- `BP.UNPACK`, R113. -/
  | bpUnpack (operand : Byte)
  /-- `DFSI.ENC ft`, R140. -/
  | dfsiEnc (ft : Byte)
  /-- `DFSI.DEC`, R141. -/
  | dfsiDec (operand : Byte)
  /-- `DFSI.LEN ft`, R142. -/
  | dfsiLen (ft : Byte)
  /-- `LDU.CHECK k`, R153. -/
  | lduCheck (k : BitVec 2) (j : BitVec 2) (i : BitVec 4)
  /-- `LDU.REASM k`, R154. -/
  | lduReasm (k : BitVec 2) (j : BitVec 2) (i : BitVec 4)
  /-- `LDU.GETIMBE k, i`, R155. -/
  | lduGetImbe (k : BitVec 2) (j : BitVec 2) (i : BitVec 4)
  /-- `LDU.COMPOSE k`, R158. -/
  | lduCompose (k : BitVec 2) (j : BitVec 2) (i : BitVec 4)
  /-- `LDU.BEGIN`, R156. -/
  | lduBegin (operand : Byte)
  /-- `LDU.END`, R157. -/
  | lduEnd (operand : Byte)
  /-- `LDU.TOVB k, j, i`, R159. -/
  | lduToVb (k : BitVec 2) (j : BitVec 2) (i : BitVec 4)
  /-- `CTL.ENC`, R171. -/
  | ctlEnc (operand : Byte)
  /-- `CTL.DEC`, R172. -/
  | ctlDec (operand : Byte)
  /-- `BH.ENC i`, R174. -/
  | bhEnc (slot : Byte)
  /-- `BH.DEC i`, R175. -/
  | bhDec (slot : Byte)
  /-- `PKT.ENC`, R177. -/
  | pktEnc (operand : Byte)
  /-- `PKT.DEC`, R178. -/
  | pktDec (operand : Byte)
  /-- `PTT.ENC`, R180. -/
  | pttEnc (operand : Byte)
  /-- `PTT.DEC`, R181. -/
  | pttDec (operand : Byte)
  /-- `FRH.ENC`, R183. -/
  | frhEnc (operand : Byte)
  /-- `FRH.DEC`, R184. -/
  | frhDec (operand : Byte)
  /-- `FRV.ENC j`, R186. -/
  | frvEnc (slot : Byte)
  /-- `FRV.DEC j`, R187. -/
  | frvDec (slot : Byte)
  /-- `FRV.SIZE j`, R188. -/
  | frvSize (slot : Byte)
  /-- `PL.SIZE`, R201. -/
  | plSize (operand : Byte)
  /-- `PL.ENC`, R203. -/
  | plEnc (operand : Byte)
  /-- `PL.DEC`, R204. -/
  | plDec (operand : Byte)
  /-- `VOICE1`, R122: RSSI and the codeword. -/
  | voice1 (rssi : Byte) (imbe : List Byte)
  /-- `VOICE2`, R123: the codeword alone. -/
  | voice2 (imbe : List Byte)
  /-- `VOICE3`, R124: LCO, MFId, ServiceOptions. -/
  | voice3 (lco mfId svcOpt : Byte) (imbe : List Byte)
  /-- `VOICE4`, R125: DstId, 24 bits. -/
  | voice4 (dstId : BitVec 24) (imbe : List Byte)
  /-- `VOICE5`, R126: SrcId, 24 bits. -/
  | voice5 (srcId : BitVec 24) (imbe : List Byte)
  /-- `VOICE6`, R127: reserved, the codeword alone. -/
  | voice6 (imbe : List Byte)
  /-- `VOICE7`, R128: reserved, the codeword alone. -/
  | voice7 (imbe : List Byte)
  /-- `VOICE8`, R129: reserved, the codeword alone. -/
  | voice8 (imbe : List Byte)
  /-- `VOICE9`, R130: LSD1, LSD2. -/
  | voice9 (lsd1 lsd2 : Byte) (imbe : List Byte)
  /-- `VOICE10`, R131: RSSI and the codeword. -/
  | voice10 (rssi : Byte) (imbe : List Byte)
  /-- `VOICE11`, R132: the codeword alone. -/
  | voice11 (imbe : List Byte)
  /-- `VOICE12`, R133: MessageIndicator[0..2]. -/
  | voice12 (mi0 mi1 mi2 : Byte) (imbe : List Byte)
  /-- `VOICE13`, R134: MessageIndicator[3..5]. -/
  | voice13 (mi3 mi4 mi5 : Byte) (imbe : List Byte)
  /-- `VOICE14`, R135: MessageIndicator[6..8]. -/
  | voice14 (mi6 mi7 mi8 : Byte) (imbe : List Byte)
  /-- `VOICE15`, R136: AlgorithmId and KeyId. -/
  | voice15 (algId : Byte) (keyId : BitVec 16) (imbe : List Byte)
  /-- `VOICE16`, R137: reserved, the codeword alone. -/
  | voice16 (imbe : List Byte)
  /-- `VOICE17`, R138: reserved, the codeword alone. -/
  | voice17 (imbe : List Byte)
  /-- `VOICE18`, R139: LSD1, LSD2. -/
  | voice18 (lsd1 lsd2 : Byte) (imbe : List Byte)
deriving DecidableEq, Repr

end Sys2Proof
end

