-- ==== Sys2Proof/WellFormed.lean ====
section
/-! DEFINITION. Which terms of Instr stand for an encoding: every command word does (a malformed operand is
an encoding too, R84), and a sub-frame does when its codeword is IMBE_LEN = 11 bytes (R87: "exactly one
11-byte IMBE codeword"). -/

namespace Sys2Proof

/-- The codeword a sub-frame format carries; a command carries none. -/
def Instr.codeword? : Instr → Option (List Byte)
  | .nop _ | .reset _ | .bpPack _ | .bpUnpack _ | .dfsiEnc _ | .dfsiDec _ | .dfsiLen _ => none
  | .lduCheck _ _ _ | .lduReasm _ _ _ | .lduGetImbe _ _ _ | .lduCompose _ _ _ => none
  | .lduBegin _ | .lduEnd _ | .lduToVb _ _ _ => none
  | .ctlEnc _ | .ctlDec _ | .bhEnc _ | .bhDec _ | .pktEnc _ | .pktDec _ => none
  | .pttEnc _ | .pttDec _ | .frhEnc _ | .frhDec _ | .frvEnc _ | .frvDec _ | .frvSize _ => none
  | .plSize _ | .plEnc _ | .plDec _ => none
  | .voice1 _ c | .voice2 c | .voice3 _ _ _ c | .voice4 _ c | .voice5 _ c | .voice6 c => some c
  | .voice7 c | .voice8 c | .voice9 _ _ c | .voice10 _ c | .voice11 c => some c
  | .voice12 _ _ _ c | .voice13 _ _ _ c | .voice14 _ _ _ c | .voice15 _ _ c => some c
  | .voice16 c | .voice17 c | .voice18 _ _ c => some c

/-- A well-formed instruction: one that has an encoding. -/
def Instr.wellFormed (i : Instr) : Bool :=
  match i.codeword? with
  | none => true
  | some c => c.length == Config.imbeLen

end Sys2Proof
end

