-- ==== Sys2Proof/Decode.lean ====
section
/-! DEFINITION. Decoding, total on any bits and rejecting by name, and after it the encoder, both written
from 30_encoding.md (command words, R81 to R84) and 41_dfsi_subframe.md (sub-frame formats, R120 to R139). -/

namespace Sys2Proof

/-- Why bits are no instruction. -/
inductive DecodeError where
  /-- A command word whose opcode is not in R83 (R84: status ERR_ILLEGAL). -/
  | illegalOpcode (opcode : Byte)
  /-- A sub-frame of which not even the discriminant is there (R141: ERR_SHORT). -/
  | noDiscriminant
  /-- A sub-frame whose first byte is outside 0x62..0x73 (R85: ERR_FRAMETYPE). -/
  | invalidFrameType (ft : Byte)
  /-- A sub-frame that ends before `SF_LEN[ft]` bytes (R141: ERR_SHORT). -/
  | shortSubFrame (ft : Byte)
deriving DecidableEq, Repr

/-- Two kinds of bits (R80): a command word, or the bytes of a sub-frame, offset 0 first. -/
inductive Encoding where
  | command (w : CmdWord)
  | subFrame (f : List Byte)
deriving DecidableEq, Repr

/-! ### Reading fields -/

/-- `f[n]`, 0 beyond the end (every use is within it). -/
def byteAt (f : List Byte) (n : Nat) : Byte := f.getD n 0

/-- `f[a +: n]` (R8). -/
def slice (f : List Byte) (a n : Nat) : List Byte := (f.drop a).take n

/-- `be16(f, a)` (R8): the byte at the lower offset is the more significant. -/
def be16 (f : List Byte) (a : Nat) : BitVec 16 := byteAt f a ++ byteAt f (a + 1)

/-- `be24(f, a)` (R8). -/
def be24 (f : List Byte) (a : Nat) : BitVec 24 := byteAt f a ++ byteAt f (a + 1) ++ byteAt f (a + 2)

/-- The opcode of a command word, bits 15:8 (R81). -/
def opcodeOf (w : CmdWord) : Byte := w.extractLsb' 8 8

/-- The operand of a command word, bits 7:0 (R81). -/
def operandOf (w : CmdWord) : Byte := w.extractLsb' 0 8

/-- `k = operand[7:6]` of the SEL form (R82). -/
def selK (op : Byte) : BitVec 2 := op.extractLsb' 6 2

/-- `j = operand[5:4]` of the SEL form (R82). -/
def selJ (op : Byte) : BitVec 2 := op.extractLsb' 4 2

/-- `i = operand[3:0]` of the SEL form (R82). -/
def selI (op : Byte) : BitVec 4 := op.extractLsb' 0 4

/-- The codeword of a sub-frame of type `ft`: `f[SF_IMBE[ft] +: 11]` (R144). -/
def codewordOf (ft : Nat) (f : List Byte) : List Byte := slice f (Config.sfImbe ft) Config.imbeLen

/-! ### Decoding -/

/-- The command of an opcode and its operand byte: the 30 rows of R83. -/
def commandOfOpcode (opcode : Byte) (op : Byte) : Except DecodeError Instr :=
  match opcode.toNat with
  | 0x00 => .ok (.nop op)
  | 0x0F => .ok (.reset op)
  | 0x10 => .ok (.bpPack op)
  | 0x11 => .ok (.bpUnpack op)
  | 0x20 => .ok (.dfsiEnc op)
  | 0x21 => .ok (.dfsiDec op)
  | 0x22 => .ok (.dfsiLen op)
  | 0x30 => .ok (.lduCheck (selK op) (selJ op) (selI op))
  | 0x31 => .ok (.lduReasm (selK op) (selJ op) (selI op))
  | 0x32 => .ok (.lduGetImbe (selK op) (selJ op) (selI op))
  | 0x33 => .ok (.lduCompose (selK op) (selJ op) (selI op))
  | 0x34 => .ok (.lduBegin op)
  | 0x35 => .ok (.lduEnd op)
  | 0x36 => .ok (.lduToVb (selK op) (selJ op) (selI op))
  | 0x40 => .ok (.ctlEnc op)
  | 0x41 => .ok (.ctlDec op)
  | 0x42 => .ok (.bhEnc op)
  | 0x43 => .ok (.bhDec op)
  | 0x44 => .ok (.pktEnc op)
  | 0x45 => .ok (.pktDec op)
  | 0x46 => .ok (.pttEnc op)
  | 0x47 => .ok (.pttDec op)
  | 0x48 => .ok (.frhEnc op)
  | 0x49 => .ok (.frhDec op)
  | 0x4A => .ok (.frvEnc op)
  | 0x4B => .ok (.frvDec op)
  | 0x4C => .ok (.frvSize op)
  | 0x50 => .ok (.plSize op)
  | 0x51 => .ok (.plEnc op)
  | 0x52 => .ok (.plDec op)
  | _ => .error (.illegalOpcode opcode)

/-- The command a word stands for (R81, R83, R84). -/
def decodeWord (w : CmdWord) : Except DecodeError Instr := commandOfOpcode (opcodeOf w) (operandOf w)

/-- The sub-frame of type `ft` that the bytes `f` hold, each field read where R122 to R139 put it (R144);
unnamed bytes are ignored (R121). None outside 0x62..0x73 (R85). -/
def voiceOfBytes (ft : Nat) (f : List Byte) : Option Instr :=
  match ft with
  | 0x62 => some (.voice1 (byteAt f 6) (codewordOf ft f))
  | 0x63 => some (.voice2 (codewordOf ft f))
  | 0x64 => some (.voice3 (byteAt f 1) (byteAt f 2) (byteAt f 3) (codewordOf ft f))
  | 0x65 => some (.voice4 (be24 f 1) (codewordOf ft f))
  | 0x66 => some (.voice5 (be24 f 1) (codewordOf ft f))
  | 0x67 => some (.voice6 (codewordOf ft f))
  | 0x68 => some (.voice7 (codewordOf ft f))
  | 0x69 => some (.voice8 (codewordOf ft f))
  | 0x6A => some (.voice9 (byteAt f 1) (byteAt f 2) (codewordOf ft f))
  | 0x6B => some (.voice10 (byteAt f 6) (codewordOf ft f))
  | 0x6C => some (.voice11 (codewordOf ft f))
  | 0x6D => some (.voice12 (byteAt f 1) (byteAt f 2) (byteAt f 3) (codewordOf ft f))
  | 0x6E => some (.voice13 (byteAt f 1) (byteAt f 2) (byteAt f 3) (codewordOf ft f))
  | 0x6F => some (.voice14 (byteAt f 1) (byteAt f 2) (byteAt f 3) (codewordOf ft f))
  | 0x70 => some (.voice15 (byteAt f 1) (be16 f 2) (codewordOf ft f))
  | 0x71 => some (.voice16 (codewordOf ft f))
  | 0x72 => some (.voice17 (codewordOf ft f))
  | 0x73 => some (.voice18 (byteAt f 1) (byteAt f 2) (codewordOf ft f))
  | _ => none

/-- The sub-frame at the head of the bytes `f`, its length "a function of its first byte alone" (R87);
bytes beyond it are not looked at. The checks stand in the order of R141. -/
def decodeSubFrame (f : List Byte) : Except DecodeError Instr :=
  match f with
  | [] => .error .noDiscriminant
  | ft :: _ =>
    match voiceOfBytes ft.toNat f with
    | none => .error (.invalidFrameType ft)
    | some v => if f.length < Config.sfLen ft.toNat then .error (.shortSubFrame ft) else .ok v

/-- The instruction that bits of either kind stand for. -/
def decode : Encoding → Except DecodeError Instr
  | .command w => decodeWord w
  | .subFrame f => decodeSubFrame f

/-! ### Encoding -/

/-- The word of an opcode and an operand byte: `opcode << 8 | operand` (R90). -/
def wordOf (opcode op : Byte) : CmdWord := opcode ++ op

/-- The operand byte of the SEL form: `k << 6 | j << 4 | i` (R90). -/
def selOperand (k j : BitVec 2) (i : BitVec 4) : Byte := k ++ j ++ i

/-- The two bytes of a 16-bit field, most significant first (R60). -/
def bytes16 (v : BitVec 16) : List Byte := [v.extractLsb' 8 8, v.extractLsb' 0 8]

/-- The three bytes of a 24-bit field, most significant first (R60, R88). -/
def bytes24 (v : BitVec 24) : List Byte := [v.extractLsb' 16 8, v.extractLsb' 8 8, v.extractLsb' 0 8]

/-- `n` bytes 0x00. -/
def zeros (n : Nat) : List Byte := List.replicate n 0

/-- The bytes of a sub-frame of type `ft` (R120): the discriminant, the metadata bytes `md` from offset 1,
zeros up to the codeword, the codeword at `SF_IMBE[ft]`, zeros to the end (R121). -/
def frame (ft : Nat) (md imbe : List Byte) : List Byte :=
  BitVec.ofNat 8 ft :: (md ++ zeros (Config.sfImbe ft - 1 - md.length) ++ imbe
    ++ zeros (Config.sfLen ft - Config.sfImbe ft - Config.imbeLen))

/-- The encoding of an instruction: its command word (R83, R90) or its sub-frame (R122 to R139). -/
def encode : Instr → Encoding
  | .nop op => .command (wordOf 0x00#8 op)
  | .reset op => .command (wordOf 0x0F#8 op)
  | .bpPack op => .command (wordOf 0x10#8 op)
  | .bpUnpack op => .command (wordOf 0x11#8 op)
  | .dfsiEnc op => .command (wordOf 0x20#8 op)
  | .dfsiDec op => .command (wordOf 0x21#8 op)
  | .dfsiLen op => .command (wordOf 0x22#8 op)
  | .lduCheck k j i => .command (wordOf 0x30#8 (selOperand k j i))
  | .lduReasm k j i => .command (wordOf 0x31#8 (selOperand k j i))
  | .lduGetImbe k j i => .command (wordOf 0x32#8 (selOperand k j i))
  | .lduCompose k j i => .command (wordOf 0x33#8 (selOperand k j i))
  | .lduBegin op => .command (wordOf 0x34#8 op)
  | .lduEnd op => .command (wordOf 0x35#8 op)
  | .lduToVb k j i => .command (wordOf 0x36#8 (selOperand k j i))
  | .ctlEnc op => .command (wordOf 0x40#8 op)
  | .ctlDec op => .command (wordOf 0x41#8 op)
  | .bhEnc op => .command (wordOf 0x42#8 op)
  | .bhDec op => .command (wordOf 0x43#8 op)
  | .pktEnc op => .command (wordOf 0x44#8 op)
  | .pktDec op => .command (wordOf 0x45#8 op)
  | .pttEnc op => .command (wordOf 0x46#8 op)
  | .pttDec op => .command (wordOf 0x47#8 op)
  | .frhEnc op => .command (wordOf 0x48#8 op)
  | .frhDec op => .command (wordOf 0x49#8 op)
  | .frvEnc op => .command (wordOf 0x4A#8 op)
  | .frvDec op => .command (wordOf 0x4B#8 op)
  | .frvSize op => .command (wordOf 0x4C#8 op)
  | .plSize op => .command (wordOf 0x50#8 op)
  | .plEnc op => .command (wordOf 0x51#8 op)
  | .plDec op => .command (wordOf 0x52#8 op)
  | .voice1 r c => .subFrame (frame 0x62 [0, 0, 0, 0, 0, r] c)
  | .voice2 c => .subFrame (frame 0x63 [] c)
  | .voice3 x y z c => .subFrame (frame 0x64 [x, y, z] c)
  | .voice4 d c => .subFrame (frame 0x65 (bytes24 d) c)
  | .voice5 d c => .subFrame (frame 0x66 (bytes24 d) c)
  | .voice6 c => .subFrame (frame 0x67 [] c)
  | .voice7 c => .subFrame (frame 0x68 [] c)
  | .voice8 c => .subFrame (frame 0x69 [] c)
  | .voice9 x y c => .subFrame (frame 0x6A [x, y] c)
  | .voice10 r c => .subFrame (frame 0x6B [0, 0, 0, 0, 0, r] c)
  | .voice11 c => .subFrame (frame 0x6C [] c)
  | .voice12 x y z c => .subFrame (frame 0x6D [x, y, z] c)
  | .voice13 x y z c => .subFrame (frame 0x6E [x, y, z] c)
  | .voice14 x y z c => .subFrame (frame 0x6F [x, y, z] c)
  | .voice15 a k c => .subFrame (frame 0x70 (a :: bytes16 k) c)
  | .voice16 c => .subFrame (frame 0x71 [] c)
  | .voice17 c => .subFrame (frame 0x72 [] c)
  | .voice18 x y c => .subFrame (frame 0x73 [x, y] c)

/-- The command word of a command, as FAULT_CMD records it (R241); 0 for a sub-frame, which is no word. -/
def commandWord (i : Instr) : CmdWord :=
  match encode i with
  | .command w => w
  | .subFrame _ => 0

/-! ### The table's numbering -/

/-- Byte `n` of a number whose byte 0 is its least significant. -/
def numberByte (w n : Nat) : Byte := BitVec.ofNat 8 (w >>> (8 * n))

/-- The longest sub-frame, 22 bytes (R87, shape S22). -/
def longestSubFrame : Nat := 22

/-- The bytes of a sub-frame whose table row gives it the low bits of `w` and zeros above. -/
def tableSubFrame (w : Nat) : List Byte := (List.range longestSubFrame).map (numberByte w)

/-- The instruction the decoder reads from a table row's bits: a row of 16 bits is a command word, a row of
fewer (8: "match_on byte 0 of the sub-frame") is the beginning of a sub-frame, the rest of it zeros. -/
def decodeTableWord (nbits w : Nat) : Option Instr :=
  if nbits = 16 then (decodeWord (BitVec.ofNat 16 w)).toOption
  else (decodeSubFrame (tableSubFrame (w % 2 ^ nbits))).toOption

end Sys2Proof
end

