-- ==== Sys2Proof/Machine/Operands.lean ====
section
/-! DEFINITION. The operand forms of 30_encoding.md R82: what each form demands of its fields. A violation is
"malformed": status ERR_OPERAND and nothing else (R84). The FT form demands nothing. -/

namespace Sys2Proof.Machine

/-- NONE: the operand must be 0x00. -/
def operandNone (op : Byte) : Bool := op == 0#8

/-- IDX: the slot index must be below the slot count `n`. -/
def operandIdx (n : Nat) (slot : Byte) : Bool := decide (slot.toNat < n)

/-- SEL, the field k: 1 (LDU1) or 2 (LDU2). -/
def selectsLdu (k : BitVec 2) : Bool := k == 1#2 || k == 2#2

/-- SEL using k: the unused j and i must be 0. -/
def operandSelK (k j : BitVec 2) (i : BitVec 4) : Bool := selectsLdu k && j == 0#2 && i == 0#4

/-- SEL using k and i: i must be 0..8, the unused j must be 0. -/
def operandSelKI (k j : BitVec 2) (i : BitVec 4) : Bool := selectsLdu k && j == 0#2 && decide (i.toNat ≤ 8)

/-- SEL using k, j and i: j must be below NVB, i must be 0..8. -/
def operandSelKJI (k j : BitVec 2) (i : BitVec 4) : Bool :=
  selectsLdu k && decide (j.toNat < Config.nvb) && decide (i.toNat ≤ 8)

end Sys2Proof.Machine
end

