-- ==== Sys2Proof/Machine/State.lean ====
section
/-! DEFINITION. The state of the codec as plain data: the registers of 10_state.md R34 and the byte memories of
R40, and three fields of the model's own at the end (the host's accesses still to come, the read port, the configuration).
`State.reset` is the reset state of 70_reset_and_hazards.md R261. -/

namespace Sys2Proof.Machine

/-- One byte memory: the (offset, byte) pairs of its bytes that are not `Memory.unlisted`, offsets strictly
rising. -/
abbrev Memory := List Host.Cell

/-- What an unlisted byte reads as: the reset value of every memory byte (R45). -/
abbrev Memory.unlisted : Byte := 0x00#8

/-- Strictly rising offsets, all at least `from`, and no byte that an unlisted offset would read as. -/
def Memory.risingFrom : Nat → Memory → Bool
  | _, [] => true
  | lo, (a, b) :: m => decide (lo ≤ a) && b != Memory.unlisted && Memory.risingFrom (a + 1) m

/-- The canonical form of a memory of `len` bytes: risingFrom 0, and no offset at or beyond its length (R40). -/
def Memory.wf (len : Nat) (m : Memory) : Bool :=
  Memory.risingFrom 0 m && m.all (fun c => decide (c.1 < len))

/-- The call-data file `CD_*` (R21). -/
structure CallData where
  lco : BitVec 8
  mfId : BitVec 8
  svcOpt : BitVec 8
  srcId : BitVec 32
  dstId : BitVec 32
  mi : Vector (BitVec 8) 9
  algId : BitVec 8
  keyId : BitVec 16
  lsd1 : BitVec 8
  lsd2 : BitVec 8
  rssi : BitVec 8
deriving DecidableEq, Repr

/-- The PTT file `PTT_*` (R29). -/
structure PttFile where
  present : BitVec 1
  wacn : BitVec 32
  sysId : BitVec 16
  unitId : BitVec 32
  prio : BitVec 8
deriving DecidableEq, Repr

/-- The payload header registers (R30). -/
structure PayloadHeader where
  ctlS : BitVec 1
  ctlC : BitVec 1
  bhCnt : BitVec 8
  pktM : BitVec 1
  pktPt : BitVec 8
  pktAux : BitVec 32
  frhPresent : BitVec 1
  frhVbb : BitVec 8
  vbCnt : BitVec 8
  pafdLen : BitVec 8
deriving DecidableEq, Repr

/-- One block-header slot `BH_*[i]` (R31). -/
structure BlockHeader where
  e : BitVec 1
  bt : BitVec 8
  tso : BitVec 16
  bl : BitVec 16
deriving DecidableEq, Repr

/-- One voice-block slot: the registers `VB_*[j]` (R32) and the memories `VBIMBE[j]`, `VBAFD[j]` (R40). -/
structure VoiceSlot where
  ft : BitVec 8
  totErr : BitVec 8
  mute : BitVec 1
  lost : BitVec 1
  sfc : BitVec 8
  afdLen : BitVec 8
  imbe : Memory
  afd : Memory
deriving DecidableEq, Repr

/-- The bit-packer file `BP_*` (R33). -/
structure BitPacker where
  n : BitVec 8
  w : Vector (BitVec 8) Config.nf
  v : Vector (BitVec 32) Config.nf
deriving DecidableEq, Repr

/-- One move of the codec's environment (10_state.md R46, 70_reset_and_hazards.md R260): the four host accesses,
with the widths of the ports `h_addr`, `h_id`, `h_wdata`, and the reset input. -/
inductive HostAction where
  /-- `HostWriteReg(index, v)`; at index 0x000 it issues the command word `v[15:0]` (R28). -/
  | writeReg (index : BitVec 12) (v : RegData)
  /-- `HostReadReg(index)`. -/
  | readReg (index : BitVec 12)
  /-- `HostWriteMem(id, a, b)`. -/
  | writeMem (id : BitVec 4) (a : BitVec 12) (b : Byte)
  /-- `HostReadMem(id, a)`. -/
  | readMem (id : BitVec 4) (a : BitVec 12)
  /-- `rst_n` low, an event between commands (R260). -/
  | resetPin
deriving DecidableEq, Repr

/-- The state of the codec (R20), and after it the model's own fields. -/
structure State where
  /-- `STATUS.CODE` (R26). -/
  code : BitVec 8
  /-- `STATUS.FAULT`, the fault latch (R26). -/
  fault : BitVec 1
  /-- `RESULT` (R26). -/
  result : BitVec 16
  /-- `FAULT_CAUSE` (R26). -/
  faultCause : BitVec 8
  /-- `FAULT_CMD` (R26). -/
  faultCmd : BitVec 16
  /-- `FT_LAST` (R26). -/
  ftLast : BitVec 8
  /-- `IB_LEN` (R25). -/
  ibLen : BitVec 9
  /-- `IB_PTR` (R24). -/
  ibPtr : BitVec 9
  /-- `IB_VALID` (R25). -/
  ibValid : BitVec 1
  /-- `OB_CAP` (R25). -/
  obCap : BitVec 9
  /-- `OB_PTR` (R24). -/
  obPtr : BitVec 9
  /-- `OB_VALID` (R25). -/
  obValid : BitVec 1
  /-- `CD_*` (R21). -/
  cd : CallData
  /-- `PTT_*` (R29). -/
  ptt : PttFile
  /-- The payload header registers (R30). -/
  hdr : PayloadHeader
  /-- `BH_*[0..3]` (R31). -/
  bh : Vector BlockHeader Config.nbh
  /-- `VB_*[0..2]`, `VBIMBE[0..2]`, `VBAFD[0..2]` (R32, R40). -/
  vb : Vector VoiceSlot Config.nvb
  /-- `BP_*` (R33). -/
  bp : BitPacker
  /-- Memory `IB`, id 0 (R40). -/
  ib : Memory
  /-- Memory `OB`, id 1 (R40). -/
  ob : Memory
  /-- Memory `LDU1`, id 2 (R40, R42). -/
  ldu1 : Memory
  /-- Memory `LDU2`, id 3 (R40, R42). -/
  ldu2 : Memory
  /-- Memory `IMBE`, id 4 (R40). -/
  imbe : Memory
  /-- Memory `PAFD`, id 11 (R40). -/
  pafd : Memory
  /-- The model's own: the environment's moves still to come, the next one first (log entry 1). -/
  host : List HostAction
  /-- The model's own: the port `h_rdata`, what the last host read answered (R46; log entry 2). -/
  hRdata : RegData
  /-- The model's own: the OPEN parameters this codec is configured with (00_scope.md R6), which no step changes. The spec
  counts the parameter record as constant and no state (R43); it stands here because the step takes a state only (log
  entry 5). -/
  cfg : Config.OpenParams
deriving DecidableEq, Repr

/-- The record of parameters of this codec (R6). -/
abbrev State.params (s : State) : Config.Params := Config.paramsFor s.cfg

/-- How a step of the model can stop with a fault: it cannot. A fault of the codec (60_exceptions.md R241, R242) is
taken, as a next state with the latch set, and every command word in every state ends with a status (R231). The
type has no constructor: nothing raises one (log entry 6; safe). -/
inductive Fault where
deriving DecidableEq, Repr

/-- How a step can be refused. -/
inductive Refusal where
  /-- Raised by an arm of `exec` for an instruction without a meaning, by its mnemonic in the opcode table (safe: the
  model stops). No arm raises it: every row has its meaning. -/
  | notModelled (mnemonic : String)
deriving DecidableEq, Repr

/-- A block-header slot after reset (R45). -/
def BlockHeader.reset : BlockHeader := { e := 0, bt := 0, tso := 0, bl := 0 }

/-- A voice-block slot after reset (R45). -/
def VoiceSlot.reset : VoiceSlot :=
  { ft := 0, totErr := 0, mute := 0, lost := 0, sfc := 0, afdLen := 0, imbe := [], afd := [] }

/-- A codec with the OPEN parameters `o` right after reset: every register 0, every memory byte 0x00 (R45, R261). The last
three fields are the model's own: no move is pending, the read port shows 0 (log entries 1 and 2), the parameters are `o`. -/
def State.resetFor (o : Config.OpenParams) : State where
  code := 0
  fault := 0
  result := 0
  faultCause := 0
  faultCmd := 0
  ftLast := 0
  ibLen := 0
  ibPtr := 0
  ibValid := 0
  obCap := 0
  obPtr := 0
  obValid := 0
  cd :=
    { lco := 0, mfId := 0, svcOpt := 0, srcId := 0, dstId := 0, mi := Vector.replicate 9 0, algId := 0,
      keyId := 0, lsd1 := 0, lsd2 := 0, rssi := 0 }
  ptt := { present := 0, wacn := 0, sysId := 0, unitId := 0, prio := 0 }
  hdr :=
    { ctlS := 0, ctlC := 0, bhCnt := 0, pktM := 0, pktPt := 0, pktAux := 0, frhPresent := 0, frhVbb := 0,
      vbCnt := 0, pafdLen := 0 }
  bh := Vector.replicate Config.nbh BlockHeader.reset
  vb := Vector.replicate Config.nvb VoiceSlot.reset
  bp := { n := 0, w := Vector.replicate Config.nf 0, v := Vector.replicate Config.nf 0 }
  ib := []
  ob := []
  ldu1 := []
  ldu2 := []
  imbe := []
  pafd := []
  host := []
  hRdata := 0
  cfg := o

/-- The machine right after reset, with the parameters "this hardware takes" (R6, R261; log entry 5). -/
def State.reset : State := State.resetFor Config.hardwareOpen

end Sys2Proof.Machine
end

