-- ==== Sys2Proof/Machine/Flags.lean ====
section
/-! DEFINITION. The status register (10_state.md R26) and its codes (60_exceptions.md R231). The codec has no condition
codes, no carry and no predicates (R26); `STATUS` is the only flag register. -/

namespace Sys2Proof.Machine

/-- The status codes a command can end with, but for the two fault causes (R231). -/
inductive Status where
  | ok
  | nopNull
  | dropped
  | errFrameType
  | errNull
  | errShort
  | errCapacity
  | errMalformed
  | errOperand
  | errIllegal
  | refused
deriving DecidableEq, Repr

/-- The code of a status (R231). -/
def Status.code : Status → BitVec 8
  | .ok => 0x00#8
  | .nopNull => 0x01#8
  | .dropped => 0x02#8
  | .errFrameType => 0x10#8
  | .errNull => 0x11#8
  | .errShort => 0x12#8
  | .errCapacity => 0x13#8
  | .errMalformed => 0x14#8
  | .errOperand => 0x15#8
  | .errIllegal => 0x1F#8
  | .refused => 0xFF#8

/-- The two fault causes (R242). -/
inductive FaultCause where
  /-- FAULT_NULLBUF: an encoder with no target buffer. -/
  | nullBuf
  /-- FAULT_OVERFLOW: a composed LDU byte count above 255. -/
  | overflow
deriving DecidableEq, Repr

/-- The code of a fault cause (R231, R242). -/
def FaultCause.code : FaultCause → BitVec 8
  | .nullBuf => 0x80#8
  | .overflow => 0x81#8

/-- Every code `STATUS.CODE` ever holds (R231: the other values "are never written"). -/
def statusCodes : List (BitVec 8) :=
  [0x00#8, 0x01#8, 0x02#8, 0x10#8, 0x11#8, 0x12#8, 0x13#8, 0x14#8, 0x15#8, 0x1F#8, 0x80#8, 0x81#8, 0xFF#8]

/-- `STATUS`, 9 bits: `FAULT` in bit 8, `CODE` in bits 7:0 (R26). -/
def State.status (s : State) : BitVec 9 := s.fault ++ s.code

/-- The output port `fault_o`, equal to `STATUS.FAULT` (R46, R245). -/
def State.faultO (s : State) : BitVec 1 := s.fault

end Sys2Proof.Machine
end

