-- ==== Sys2Proof/Machine/Ops.lean ====
section
/-! DEFINITION. The named operations every meaning is written with: reading and writing a byte memory (00_scope.md R9),
ending with a status, fault entry (60_exceptions.md R241), the common checks (R240), and the two procedures of
43_issi_blocks.md R190. -/

namespace Sys2Proof.Machine

/-- What a step of the codec answers. -/
abbrev Answer := Host.Outcome State Fault Refusal

/-! ### Byte memories -/

/-- The byte at offset `a`. -/
def Memory.read : Memory → Nat → Byte
  | [], _ => Memory.unlisted
  | (x, b) :: m, a => if x = a then b else Memory.read m a

/-- The memory without an entry for offset `a`: that byte reads `Memory.unlisted`. -/
def Memory.erase (m : Memory) (a : Nat) : Memory := m.filter (fun c => c.1 != a)

/-- The memory with an entry for offset `a` added at its place in the rising order. -/
def Memory.insert : Memory → Nat → Byte → Memory
  | [], a, b => [(a, b)]
  | (x, y) :: m, a, b => if a < x then (a, b) :: (x, y) :: m else (x, y) :: Memory.insert m a b

/-- The memory with byte `b` at offset `a`, in the canonical form again: no entry for the unlisted value. -/
def Memory.write (m : Memory) (a : Nat) (b : Byte) : Memory :=
  if b = Memory.unlisted then Memory.erase m a else Memory.insert (Memory.erase m a) a b

/-- `MemRead(M, a, n)` (R9): the n bytes `M[a +: n]`. -/
def memRead (m : Memory) (a n : Nat) : List Byte := (List.range n).map (fun t => Memory.read m (a + t))

/-- `MemWrite(M, a, n, v)` (R9) with n the length of `v`: byte t of `v` goes to offset a + t. -/
def memWrite (m : Memory) (a : Nat) : List Byte → Memory
  | [] => m
  | b :: v => memWrite (Memory.write m a b) (a + 1) v

/-! ### Slots -/

/-- The vector with the list `xs` laid over it from index `i` on; what would lie beyond the end is dropped. -/
def setFrom {α : Type} {n : Nat} (v : Vector α n) (i : Nat) : List α → Vector α n
  | [] => v
  | x :: xs => setFrom (v.setIfInBounds i x) (i + 1) xs

/-- Block-header slot i. -/
def State.bhAt (s : State) (i : Nat) : BlockHeader := s.bh.getD i BlockHeader.reset

/-- Voice-block slot j. -/
def State.vbAt (s : State) (j : Nat) : VoiceSlot := s.vb.getD j VoiceSlot.reset

/-- Block-header slot i set to `b`. -/
def State.setBh (s : State) (i : Nat) (b : BlockHeader) : State := { s with bh := s.bh.setIfInBounds i b }

/-- Voice-block slot j set to `v`. -/
def State.setVb (s : State) (j : Nat) (v : VoiceSlot) : State := { s with vb := s.vb.setIfInBounds j v }

/-- Memory `LDU(k)`: LDU1 for k = 1, LDU2 otherwise (R9; the operand check admits only 1 and 2). -/
def State.ldu (s : State) (k : BitVec 2) : Memory := if k = 1#2 then s.ldu1 else s.ldu2

/-- Memory `LDU(k)` set to `m`. -/
def State.setLdu (s : State) (k : BitVec 2) (m : Memory) : State :=
  if k = 1#2 then { s with ldu1 := m } else { s with ldu2 := m }

/-! ### Ending a command -/

/-- `status(c)` (R9): STATUS.CODE is written and the command ends. -/
def endWith (c : Status) (s : State) : State := { s with code := c.code }

/-- `result(v)` (R9), cut to 16 bits. -/
def setResult (v : Nat) (s : State) : State := { s with result := BitVec.ofNat 16 v }

/-- Fault entry, `raise Fault(cause)` (R241): these four writes and nothing else. The way back is reset (R244),
`resetCodec`; the codec has no return that resumes the faulting command. -/
def raiseFault (cause : FaultCause) (cmd : CmdWord) (s : State) : State :=
  { s with fault := 1, faultCause := cause.code, faultCmd := cmd, code := cause.code }

/-- The reset event (R260): every register and every memory byte at its reset value (R261). The environment's pending
moves and the read port are not the codec's and stay (log entries 1 and 2), and so does the configuration (R43). -/
def resetCodec (s : State) : State := { State.resetFor s.cfg with host := s.host, hRdata := s.hRdata }

/-- The common checks 1 to 3 of R240 before the rest of a command, for a command other than RESET whose opcode is
known: the latch (REFUSED), then the operand form (ERR_OPERAND). -/
def commonChecks (operandOk : Bool) (s : State) (rest : State) : State :=
  if s.fault = 1 then endWith .refused s
  else if operandOk then rest
  else endWith .errOperand s

/-- A word whose opcode is not in the map: REFUSED under the latch, else ERR_ILLEGAL (R84, R240). -/
def illegalOpcode (s : State) : State :=
  if s.fault = 1 then endWith .refused s else endWith .errIllegal s

/-! ### Producing and consuming bytes -/

/-- The bytes `b` written at the write cursor, the cursor advanced, RESULT their number, status OK (R190). -/
def emit (b : List Byte) (s : State) : State :=
  endWith .ok (setResult b.length
    { s with ob := memWrite s.ob s.obPtr.toNat b, obPtr := BitVec.ofNat 9 (s.obPtr.toNat + b.length) })

/-- `emit` if the bytes fit between OB_PTR and OB_CAP, else ERR_CAPACITY (R190, R65). -/
def emitIfRoom (b : List Byte) (s : State) : State :=
  if s.obPtr.toNat + b.length > s.obCap.toNat then endWith .errCapacity s else emit b s

/-- `EncFixed(b)` (R190) for the command word `cmd`. -/
def encFixed (cmd : CmdWord) (b : List Byte) (s : State) : State :=
  if s.obValid = 0 then raiseFault .nullBuf cmd s else emitIfRoom b s

/-- The read cursor advanced by `n`, RESULT n, status OK (R190). -/
def consume (n : Nat) (s : State) : State :=
  endWith .ok (setResult n { s with ibPtr := BitVec.ofNat 9 (s.ibPtr.toNat + n) })

/-- `DecFixed(n)` (R190), then `k` with the n bytes on the state whose cursor has advanced: "the command then writes its
registers and ends with status(OK)". -/
def decFixed (n : Nat) (s : State) (k : List Byte → State → State) : State :=
  if s.ibValid = 0 then endWith .errNull s
  else if s.ibPtr.toNat + n > s.ibLen.toNat then endWith .errShort s
  else k (memRead s.ib s.ibPtr.toNat n) (consume n s)

/-- The bytes of IB from the cursor to IB_LEN, none if the cursor is beyond it (R25: available = max(0, limit - cursor)). -/
def available (s : State) : List Byte := memRead s.ib s.ibPtr.toNat (s.ibLen.toNat - s.ibPtr.toNat)

end Sys2Proof.Machine
end

