-- ==== Sys2Proof/Machine/BitPack.lean ====
section
/-! DEFINITION. The multi-field bit-packer (40_bitpack.md): `Pack` and `Unpack` (R110, R111), the descriptor (R115), and
the commands BP.PACK and BP.UNPACK. -/

namespace Sys2Proof.Machine

/-- `mask(w) = 2^w - 1` (R7). -/
def mask (w : Nat) : Nat := 2 ^ w - 1

/-- The accumulator of `Pack` (R110), from `acc` on, over fields (width, value). -/
def packAcc (acc : Nat) : List (Nat × Nat) → Nat
  | [] => acc
  | (w, v) :: fs => packAcc ((acc <<< w) ||| (v &&& mask w)) fs

/-- The total width T of a list of fields (R110). -/
def totalWidth (ws : List Nat) : Nat := ws.foldr (· + ·) 0

/-- The `n` bytes of a number, most significant first (the second loop of R110). -/
def bytesOfNat (n acc : Nat) : List Byte := (List.range n).map (fun b => BitVec.ofNat 8 (acc >>> (8 * (n - (b + 1)))))

/-- `Pack` (R110). -/
def pack (fs : List (Nat × Nat)) : List Byte :=
  bytesOfNat (totalWidth (fs.map Prod.fst) / 8) (packAcc 0 fs)

/-- The accumulator of `Unpack` (R111): bytes read most significant first. -/
def natOfBytes (bs : List Byte) : Nat := bs.foldl (fun acc b => (acc <<< 8) ||| b.toNat) 0

/-- The fields of an accumulator, `s` bits of which are still unread (the second loop of R111). -/
def unpackFrom (acc : Nat) : Nat → List Nat → List Nat
  | _, [] => []
  | s, w :: ws => ((acc >>> (s - w)) &&& mask w) :: unpackFrom acc (s - w) ws

/-- `Unpack` (R111). -/
def unpack (ws : List Nat) (bs : List Byte) : List Nat := unpackFrom (natOfBytes bs) (totalWidth ws) ws

/-- The widths `BP_W[i]`, i < BP_N, of the descriptor. -/
def BitPacker.widths (bp : BitPacker) : List Nat := (List.range bp.n.toNat).map (fun i => (bp.w.getD i 0).toNat)

/-- The fields (BP_W[i], BP_V[i]), i < BP_N, of the descriptor. -/
def BitPacker.fields (bp : BitPacker) : List (Nat × Nat) :=
  (List.range bp.n.toNat).map (fun i => ((bp.w.getD i 0).toNat, (bp.v.getD i 0).toNat))

/-- A well-formed descriptor (R115). -/
def BitPacker.wellFormed (bp : BitPacker) : Bool :=
  decide (1 ≤ bp.n.toNat) && decide (bp.n.toNat ≤ Config.nf)
  && bp.widths.all (fun w => decide (1 ≤ w) && decide (w ≤ Config.fieldMax))
  && decide (totalWidth bp.widths ≤ Config.accBits) && decide (totalWidth bp.widths % 8 = 0)

/-- `BP.PACK` (R112). -/
def execBpPack (op : Byte) (s : State) : Answer :=
  .next <| commonChecks (operandNone op) s <|
    if s.obValid = 0 then raiseFault .nullBuf (commandWord (.bpPack op)) s
    else if s.bp.wellFormed then emitIfRoom (pack s.bp.fields) s
    else endWith .errMalformed s

/-- The registers BP_V[i], i < BP_N, set to the values of the fields, each zero-extended to 32 bits (R113). -/
def writeBpValues (vs : List Nat) (s : State) : State :=
  { s with bp := { s.bp with v := setFrom s.bp.v 0 (vs.map (BitVec.ofNat 32)) } }

/-- `BP.UNPACK` (R113). -/
def execBpUnpack (op : Byte) (s : State) : Answer :=
  .next <| commonChecks (operandNone op) s <|
    if s.ibValid = 0 then endWith .errNull s
    else if s.bp.wellFormed then
      decFixed (totalWidth s.bp.widths / 8) s (fun b t => writeBpValues (unpack s.bp.widths b) t)
    else endWith .errMalformed s

end Sys2Proof.Machine
end

