-- ==== Sys2Proof/Machine/Voice.lean ====
section
/-! DEFINITION. The 18 sub-frame formats VOICE1 to VOICE18 (41_dfsi_subframe.md R120 to R139): building the sub-frame of a
type from the call-data file (`SubFrame`, R120), and the meaning of a sub-frame as DFSI.DEC acts on it (R141, R144).
A format's meaning carries DFSI.DEC's own guards, so that it never acts where DFSI.DEC would not (log entry 3). -/

namespace Sys2Proof.Machine

/-- Is the byte one of the 18 discriminants (R85)? -/
def validFrameType (ft : Byte) : Bool := decide (Config.ftLdu1Base ≤ ft.toNat) && decide (ft.toNat ≤ Config.ftLast)

/-- The sub-frame of type `ft` with its metadata from the call-data file and the codeword `imbe`: what encode reads,
type by type (R122 to R139). The 24-bit fields lose bits 31:24 (R88). -/
def voiceOf (ft : Nat) (cd : CallData) (imbe : List Byte) : Option Instr :=
  match ft with
  | 0x62 => some (.voice1 cd.rssi imbe)
  | 0x63 => some (.voice2 imbe)
  | 0x64 => some (.voice3 cd.lco cd.mfId cd.svcOpt imbe)
  | 0x65 => some (.voice4 (cd.dstId.setWidth 24) imbe)
  | 0x66 => some (.voice5 (cd.srcId.setWidth 24) imbe)
  | 0x67 => some (.voice6 imbe)
  | 0x68 => some (.voice7 imbe)
  | 0x69 => some (.voice8 imbe)
  | 0x6A => some (.voice9 cd.lsd1 cd.lsd2 imbe)
  | 0x6B => some (.voice10 cd.rssi imbe)
  | 0x6C => some (.voice11 imbe)
  | 0x6D => some (.voice12 (cd.mi.getD 0 0) (cd.mi.getD 1 0) (cd.mi.getD 2 0) imbe)
  | 0x6E => some (.voice13 (cd.mi.getD 3 0) (cd.mi.getD 4 0) (cd.mi.getD 5 0) imbe)
  | 0x6F => some (.voice14 (cd.mi.getD 6 0) (cd.mi.getD 7 0) (cd.mi.getD 8 0) imbe)
  | 0x70 => some (.voice15 cd.algId cd.keyId imbe)
  | 0x71 => some (.voice16 imbe)
  | 0x72 => some (.voice17 imbe)
  | 0x73 => some (.voice18 cd.lsd1 cd.lsd2 imbe)
  | _ => none

/-- `SubFrame(ft, cd, imbe)` (R120), for ft in 0x62..0x73. -/
def subFrame (ft : Nat) (cd : CallData) (imbe : List Byte) : List Byte :=
  match (voiceOf ft cd imbe).map encode with
  | some (.subFrame f) => f
  | _ => []

/-- The last five lines of R141 for a sub-frame of type `ft`: the metadata registers by `upd`, the codeword into IMBE,
FT_LAST, the cursor past the sub-frame, RESULT its length, OK. -/
def unpackSubFrame (ft : Nat) (upd : CallData → CallData) (imbe : List Byte) (s : State) : State :=
  consume (Config.sfLen ft)
    { s with cd := upd s.cd, imbe := memWrite s.imbe 0 imbe, ftLast := BitVec.ofNat 8 ft }

/-- The meaning of a sub-frame of type `ft`: DFSI.DEC's guards (R243, R141), then `unpackSubFrame`. -/
def execVoice (ft : Nat) (upd : CallData → CallData) (imbe : List Byte) (s : State) : Answer :=
  .next <| commonChecks true s <|
    if s.ibValid = 0 then endWith .errNull s
    else if s.ibPtr.toNat + Config.sfLen ft > s.ibLen.toNat then endWith .errShort s
    else unpackSubFrame ft upd imbe s

/-- Three bytes of the message indicator from index `n` on (R133, R134, R135). -/
def setMi (n : Nat) (x y z : Byte) (cd : CallData) : CallData := { cd with mi := setFrom cd.mi n [x, y, z] }

/-- `VOICE1` (R122). -/
def execVoice1 (rssi : Byte) (imbe : List Byte) (s : State) : Answer :=
  execVoice 0x62 (fun cd => { cd with rssi := rssi }) imbe s

/-- `VOICE2` (R123). -/
def execVoice2 (imbe : List Byte) (s : State) : Answer := execVoice 0x63 id imbe s

/-- `VOICE3` (R124). -/
def execVoice3 (lco mfId svcOpt : Byte) (imbe : List Byte) (s : State) : Answer :=
  execVoice 0x64 (fun cd => { cd with lco := lco, mfId := mfId, svcOpt := svcOpt }) imbe s

/-- `VOICE4` (R125): the 24-bit DstId, zero-extended. -/
def execVoice4 (dstId : BitVec 24) (imbe : List Byte) (s : State) : Answer :=
  execVoice 0x65 (fun cd => { cd with dstId := dstId.setWidth 32 }) imbe s

/-- `VOICE5` (R126): the 24-bit SrcId, zero-extended. -/
def execVoice5 (srcId : BitVec 24) (imbe : List Byte) (s : State) : Answer :=
  execVoice 0x66 (fun cd => { cd with srcId := srcId.setWidth 32 }) imbe s

/-- `VOICE6` (R127). -/
def execVoice6 (imbe : List Byte) (s : State) : Answer := execVoice 0x67 id imbe s

/-- `VOICE7` (R128). -/
def execVoice7 (imbe : List Byte) (s : State) : Answer := execVoice 0x68 id imbe s

/-- `VOICE8` (R129). -/
def execVoice8 (imbe : List Byte) (s : State) : Answer := execVoice 0x69 id imbe s

/-- `VOICE9` (R130). -/
def execVoice9 (lsd1 lsd2 : Byte) (imbe : List Byte) (s : State) : Answer :=
  execVoice 0x6A (fun cd => { cd with lsd1 := lsd1, lsd2 := lsd2 }) imbe s

/-- `VOICE10` (R131). -/
def execVoice10 (rssi : Byte) (imbe : List Byte) (s : State) : Answer :=
  execVoice 0x6B (fun cd => { cd with rssi := rssi }) imbe s

/-- `VOICE11` (R132). -/
def execVoice11 (imbe : List Byte) (s : State) : Answer := execVoice 0x6C id imbe s

/-- `VOICE12` (R133). -/
def execVoice12 (mi0 mi1 mi2 : Byte) (imbe : List Byte) (s : State) : Answer :=
  execVoice 0x6D (setMi 0 mi0 mi1 mi2) imbe s

/-- `VOICE13` (R134). -/
def execVoice13 (mi3 mi4 mi5 : Byte) (imbe : List Byte) (s : State) : Answer :=
  execVoice 0x6E (setMi 3 mi3 mi4 mi5) imbe s

/-- `VOICE14` (R135). -/
def execVoice14 (mi6 mi7 mi8 : Byte) (imbe : List Byte) (s : State) : Answer :=
  execVoice 0x6F (setMi 6 mi6 mi7 mi8) imbe s

/-- `VOICE15` (R136). -/
def execVoice15 (algId : Byte) (keyId : BitVec 16) (imbe : List Byte) (s : State) : Answer :=
  execVoice 0x70 (fun cd => { cd with algId := algId, keyId := keyId }) imbe s

/-- `VOICE16` (R137). -/
def execVoice16 (imbe : List Byte) (s : State) : Answer := execVoice 0x71 id imbe s

/-- `VOICE17` (R138). -/
def execVoice17 (imbe : List Byte) (s : State) : Answer := execVoice 0x72 id imbe s

/-- `VOICE18` (R139). -/
def execVoice18 (lsd1 lsd2 : Byte) (imbe : List Byte) (s : State) : Answer :=
  execVoice 0x73 (fun cd => { cd with lsd1 := lsd1, lsd2 := lsd2 }) imbe s

end Sys2Proof.Machine
end

