-- ==== Sys2Proof/Machine/Dfsi.lean ====
section
/-! DEFINITION. The commands DFSI.ENC, DFSI.DEC, DFSI.LEN (41_dfsi_subframe.md R140, R141, R142). -/

namespace Sys2Proof.Machine

/-- `DFSI.ENC ft` (R140). -/
def execDfsiEnc (ft : Byte) (s : State) : Answer :=
  .next <| commonChecks true s <|
    if s.obValid = 0 then raiseFault .nullBuf (commandWord (.dfsiEnc ft)) s
    else if validFrameType ft then
      emitIfRoom (subFrame ft.toNat s.cd (memRead s.imbe 0 Config.imbeLen)) s
    else endWith .errFrameType s

/-- The status DFSI.DEC ends with when the bytes at the cursor are no sub-frame (R141). A command word is no sub-frame, so
the opcode error cannot come from them. -/
def subFrameStatus : DecodeError → Status
  | .noDiscriminant => .errShort
  | .invalidFrameType _ => .errFrameType
  | .shortSubFrame _ => .errShort
  | .illegalOpcode _ => .errFrameType

/-- The meaning of the sub-frame that decoding answered: that of its format. (Decoding bytes answers no command.) -/
def execSubFrame (v : Instr) (s : State) : Answer :=
  match v with
  | .voice1 rssi c => execVoice1 rssi c s
  | .voice2 c => execVoice2 c s
  | .voice3 lco mfId svcOpt c => execVoice3 lco mfId svcOpt c s
  | .voice4 dstId c => execVoice4 dstId c s
  | .voice5 srcId c => execVoice5 srcId c s
  | .voice6 c => execVoice6 c s
  | .voice7 c => execVoice7 c s
  | .voice8 c => execVoice8 c s
  | .voice9 lsd1 lsd2 c => execVoice9 lsd1 lsd2 c s
  | .voice10 rssi c => execVoice10 rssi c s
  | .voice11 c => execVoice11 c s
  | .voice12 x y z c => execVoice12 x y z c s
  | .voice13 x y z c => execVoice13 x y z c s
  | .voice14 x y z c => execVoice14 x y z c s
  | .voice15 algId keyId c => execVoice15 algId keyId c s
  | .voice16 c => execVoice16 c s
  | .voice17 c => execVoice17 c s
  | .voice18 lsd1 lsd2 c => execVoice18 lsd1 lsd2 c s
  | .nop _ | .reset _ | .bpPack _ | .bpUnpack _ | .dfsiEnc _ | .dfsiDec _ | .dfsiLen _
  | .lduCheck _ _ _ | .lduReasm _ _ _ | .lduGetImbe _ _ _ | .lduCompose _ _ _ | .lduBegin _ | .lduEnd _
  | .lduToVb _ _ _ | .ctlEnc _ | .ctlDec _ | .bhEnc _ | .bhDec _ | .pktEnc _ | .pktDec _ | .pttEnc _
  | .pttDec _ | .frhEnc _ | .frhDec _ | .frvEnc _ | .frvDec _ | .frvSize _ | .plSize _ | .plEnc _
  | .plDec _ => .next (endWith .errFrameType s)

/-- `DFSI.DEC` (R141): the sub-frame at the cursor, chosen by its first byte among the bytes up to IB_LEN. -/
def execDfsiDec (op : Byte) (s : State) : Answer :=
  if s.fault = 1 then .next (endWith .refused s)
  else if operandNone op then
    if s.ibValid = 0 then .next (endWith .errNull s)
    else
      match decodeSubFrame (available s) with
      | .error e => .next (endWith (subFrameStatus e) s)
      | .ok v => execSubFrame v s
  else .next (endWith .errOperand s)

/-- `DFSI.LEN ft` (R142). -/
def execDfsiLen (ft : Byte) (s : State) : Answer :=
  .next <| commonChecks true s <|
    if validFrameType ft then endWith .ok (setResult (Config.sfLen ft.toNat) s) else endWith .errFrameType s

end Sys2Proof.Machine
end

