-- ==== Sys2Proof/Machine/Issi.lean ====
section
/-! DEFINITION. The ISSI RTP payload sub-blocks (43_issi_blocks.md): CTL, BH, PKT, PTT, FRH, FRV. Each record is `Pack` of
its fields, its decoder `Unpack` with the same widths (40_bitpack.md R116). -/

namespace Sys2Proof.Machine

/-- Field `n` of an unpacked record, cut to a register of `w` bits (it is never wider). -/
def field (w : Nat) (vs : List Nat) (n : Nat) : BitVec w := BitVec.ofNat w (vs.getD n 0)

/-! ### Control octet (R170) -/

/-- Field widths S, C, BHC. -/
def ctlWidths : List Nat := [1, 1, 6]

/-- The control octet of the payload header. -/
def ctlBytes (h : PayloadHeader) : List Byte :=
  pack [(1, h.ctlS.toNat), (1, h.ctlC.toNat), (6, h.bhCnt.toNat)]

/-- The payload header with the fields of a control octet. -/
def PayloadHeader.loadCtl (h : PayloadHeader) (b : List Byte) : PayloadHeader :=
  let v := unpack ctlWidths b
  { h with ctlS := field 1 v 0, ctlC := field 1 v 1, bhCnt := field 8 v 2 }

/-- `CTL.ENC` (R171). -/
def execCtlEnc (op : Byte) (s : State) : Answer :=
  .next <| commonChecks (operandNone op) s <| encFixed (commandWord (.ctlEnc op)) (ctlBytes s.hdr) s

/-- `CTL.DEC` (R172). -/
def execCtlDec (op : Byte) (s : State) : Answer :=
  .next <| commonChecks (operandNone op) s <|
    decFixed 1 s (fun b t => { t with hdr := t.hdr.loadCtl b })

/-! ### Block header (R173) -/

/-- Field widths E, BT, TSO, BL. -/
def bhWidths : List Nat := [1, 7, 14, 10]

/-- The four bytes of a block header. -/
def bhBytes (b : BlockHeader) : List Byte :=
  pack [(1, b.e.toNat), (7, b.bt.toNat), (14, b.tso.toNat), (10, b.bl.toNat)]

/-- The slot that four bytes stand for; every register of a slot is a field of the block. -/
def bhOfBytes (b : List Byte) : BlockHeader :=
  let v := unpack bhWidths b
  { e := field 1 v 0, bt := field 8 v 1, tso := field 16 v 2, bl := field 16 v 3 }

/-- `BH.ENC i` (R174). -/
def execBhEnc (slot : Byte) (s : State) : Answer :=
  .next <| commonChecks (operandIdx Config.nbh slot) s <|
    encFixed (commandWord (.bhEnc slot)) (bhBytes (s.bhAt slot.toNat)) s

/-- `BH.DEC i` (R175). -/
def execBhDec (slot : Byte) (s : State) : Answer :=
  .next <| commonChecks (operandIdx Config.nbh slot) s <|
    decFixed Config.bhLen s (fun b t => t.setBh slot.toNat (bhOfBytes b))

/-! ### Packet-type block (R176) -/

/-- Field widths M, PT, AUX. -/
def pktWidths : List Nat := [1, 7, 24]

/-- The four bytes of the packet-type block. -/
def pktBytes (h : PayloadHeader) : List Byte :=
  pack [(1, h.pktM.toNat), (7, h.pktPt.toNat), (24, h.pktAux.toNat)]

/-- The payload header with the fields of a packet-type block. -/
def PayloadHeader.loadPkt (h : PayloadHeader) (b : List Byte) : PayloadHeader :=
  let v := unpack pktWidths b
  { h with pktM := field 1 v 0, pktPt := field 8 v 1, pktAux := field 32 v 2 }

/-- `PKT.ENC` (R177). -/
def execPktEnc (op : Byte) (s : State) : Answer :=
  .next <| commonChecks (operandNone op) s <| encFixed (commandWord (.pktEnc op)) (pktBytes s.hdr) s

/-- `PKT.DEC` (R178). -/
def execPktDec (op : Byte) (s : State) : Answer :=
  .next <| commonChecks (operandNone op) s <|
    decFixed Config.pktLen s (fun b t => { t with hdr := t.hdr.loadPkt b })

/-! ### PTT control (R179) -/

/-- Field widths WACN, SysId, UnitID, Priority. -/
def pttWidths : List Nat := [20, 12, 24, 8]

/-- The eight bytes of the PTT control block. -/
def pttBytes (p : PttFile) : List Byte :=
  pack [(20, p.wacn.toNat), (12, p.sysId.toNat), (24, p.unitId.toNat), (8, p.prio.toNat)]

/-- The PTT file with the fields of a PTT control block; PTT_PRESENT is not one of them (R181). -/
def PttFile.load (p : PttFile) (b : List Byte) : PttFile :=
  let v := unpack pttWidths b
  { p with wacn := field 32 v 0, sysId := field 16 v 1, unitId := field 32 v 2, prio := field 8 v 3 }

/-- `PTT.ENC` (R180). -/
def execPttEnc (op : Byte) (s : State) : Answer :=
  .next <| commonChecks (operandNone op) s <| encFixed (commandWord (.pttEnc op)) (pttBytes s.ptt) s

/-- `PTT.DEC` (R181). -/
def execPttDec (op : Byte) (s : State) : Answer :=
  .next <| commonChecks (operandNone op) s <|
    decFixed Config.pttLen s (fun b t => { t with ptt := t.ptt.load b })

/-! ### Full-rate header (R182) -/

/-- `FRH.ENC` (R183). -/
def execFrhEnc (op : Byte) (s : State) : Answer :=
  .next <| commonChecks (operandNone op) s <| encFixed (commandWord (.frhEnc op)) [s.hdr.frhVbb] s

/-- `FRH.DEC` (R184). -/
def execFrhDec (op : Byte) (s : State) : Answer :=
  .next <| commonChecks (operandNone op) s <|
    decFixed Config.frhLen s (fun b t => { t with hdr := { t.hdr with frhVbb := byteAt b 0 } })

/-! ### Full-rate voice block (R185) -/

/-- The status byte, offset 12: TotalErrors 7:5, reserved 4:2, Mute 1, Lost 0. -/
def frvStatusByte (v : VoiceSlot) : List Byte :=
  pack [(3, v.totErr.toNat), (3, 0), (1, v.mute.toNat), (1, v.lost.toNat)]

/-- The super-frame byte, offset 13: SuperFrameCnt 3:2, the rest reserved. -/
def frvSuperFrameByte (v : VoiceSlot) : List Byte := pack [(4, 0), (2, v.sfc.toNat), (2, 0)]

/-- The 14 fixed bytes of a voice block (R185, R186). -/
def frvFixed (v : VoiceSlot) : List Byte :=
  [v.ft] ++ memRead v.imbe 0 Config.imbeLen ++ frvStatusByte v ++ frvSuperFrameByte v

/-- The additional frame data of a slot: `MemRead(VBAFD[j], 0, VB_AFDLEN[j])`. -/
def frvAfd (v : VoiceSlot) : List Byte := memRead v.afd 0 v.afdLen.toNat

/-- The size of a slot's voice block: 14 and its additional frame data (R188). -/
def frvSize (v : VoiceSlot) : Nat := Config.frvFixedLen + v.afdLen.toNat

/-- `FRV.ENC j` (R186): no fault on an absent target, and the additional frame data only if there is room for all of it. -/
def execFrvEnc (slot : Byte) (s : State) : Answer :=
  .next <| commonChecks (operandIdx Config.nvb slot) s <|
    let v := s.vbAt slot.toNat
    let room := s.obCap.toNat - s.obPtr.toNat
    if s.obValid = 0 then endWith .nopNull s
    else if room < Config.frvFixedLen then endWith .errCapacity s
    else if 0 < v.afdLen.toNat ∧ room ≥ Config.frvFixedLen + v.afdLen.toNat then emit (frvFixed v ++ frvAfd v) s
    else emit (frvFixed v) s

/-- A slot with the fields of the 14 fixed bytes; reserved bits are ignored (R187). -/
def VoiceSlot.loadFixed (v : VoiceSlot) (b : List Byte) : VoiceSlot :=
  let st := unpack [3, 3, 1, 1] [byteAt b 12]
  let sf := unpack [4, 2, 2] [byteAt b 13]
  { v with
    ft := byteAt b 0
    imbe := memWrite v.imbe 0 (slice b 1 Config.imbeLen)
    totErr := field 8 st 0, mute := field 1 st 2, lost := field 1 st 3, sfc := field 8 sf 1 }

/-- `FRV.DEC j` (R187): all the bytes from IB_PTR to IB_LEN. -/
def execFrvDec (slot : Byte) (s : State) : Answer :=
  .next <| commonChecks (operandIdx Config.nvb slot) s <|
    let b := available s
    let extra := b.length - Config.frvFixedLen
    if s.ibValid = 0 then endWith .errNull s
    else if b.length < Config.frvFixedLen then endWith .errShort s
    else if extra > Config.afdMax then endWith .errCapacity s
    else
      let v := (s.vbAt slot.toNat).loadFixed b
      let v := { v with afdLen := BitVec.ofNat 8 extra, afd := memWrite v.afd 0 (b.drop Config.frvFixedLen) }
      endWith .ok (setResult b.length { s.setVb slot.toNat v with ibPtr := s.ibLen })

/-- `FRV.SIZE j` (R188). -/
def execFrvSize (slot : Byte) (s : State) : Answer :=
  .next <| commonChecks (operandIdx Config.nvb slot) s <|
    endWith .ok (setResult (frvSize (s.vbAt slot.toNat)) s)

end Sys2Proof.Machine
end

