-- ==== Sys2Proof/Machine/Ldu.lean ====
section
/-! DEFINITION. LDU1/LDU2 record validation, reassembly, extraction and composition (42_ldu.md R150 to R159). -/

namespace Sys2Proof.Machine

/-- `ft(k, i) = 0x62 + 9*(k-1) + i` (R151). -/
def frameTypeOf (k i : Nat) : Nat := Config.ftLdu1Base + 9 * (k - 1) + i

/-- `Valid(k, rec)` (R152): the nine marker bytes. -/
def validRecord (k : Nat) (rec : List Byte) : Bool :=
  (List.range 9).all (fun i => byteAt rec (Config.moff i) == BitVec.ofNat 8 (frameTypeOf k i))

/-- The 154 bytes at the read cursor, or the status that says why they are not there (R153, R154). -/
def recordAtCursor (s : State) : Except Status (List Byte) :=
  if s.ibValid = 0 then .error .errNull
  else if s.ibPtr.toNat + Config.lduRecLen > s.ibLen.toNat then .error .errShort
  else .ok (memRead s.ib s.ibPtr.toNat Config.lduRecLen)

/-- `LDU.CHECK k` (R153). -/
def execLduCheck (k j : BitVec 2) (i : BitVec 4) (s : State) : Answer :=
  .next <| commonChecks (operandSelK k j i) s <|
    match recordAtCursor s with
    | .error c => endWith c s
    | .ok rec =>
      if validRecord k.toNat rec then endWith .ok (setResult 1 s) else endWith .dropped (setResult 0 s)

/-- The LDU buffer with the nine chunks of a record laid into it (R154, R69), chunk i from `MOFF[i]` to `DOFF[i]`. -/
def reassemble (rec : List Byte) (m : Memory) : Memory :=
  (List.range 9).foldl (fun m i => memWrite m (Config.doff i) (slice rec (Config.moff i) (Config.clen i))) m

/-- `LDU.REASM k` (R154). -/
def execLduReasm (k j : BitVec 2) (i : BitVec 4) (s : State) : Answer :=
  .next <| commonChecks (operandSelK k j i) s <|
    match recordAtCursor s with
    | .error c => endWith c s
    | .ok rec =>
      if validRecord k.toNat rec then endWith .ok (setResult 1 (s.setLdu k (reassemble rec (s.ldu k))))
      else endWith .dropped (setResult 0 s)

/-- The codeword of sub-frame i in an LDU buffer: `MemRead(LDU(k), IOFF[i], 11)`. -/
def lduCodeword (m : Memory) (i : Nat) : List Byte := memRead m (Config.ioff i) Config.imbeLen

/-- `LDU.GETIMBE k, i` (R155). -/
def execLduGetImbe (k j : BitVec 2) (i : BitVec 4) (s : State) : Answer :=
  .next <| commonChecks (operandSelKI k j i) s <|
    endWith .ok { s with imbe := memWrite s.imbe 0 (lduCodeword (s.ldu k) i.toNat) }

/-- `HDR_LEN` plus the nine sub-frame lengths of logical unit k (R158). -/
def composedLength (k : Nat) : Nat :=
  Config.hdrLen + ((List.range 9).map (fun i => Config.sfLen (frameTypeOf k i))).foldr (· + ·) 0

/-- The nine sub-frames of logical unit k in type order, codewords from the LDU buffer `m`, metadata from `cd` (R158). -/
def composedFrames (k : Nat) (cd : CallData) (m : Memory) : List Byte :=
  (List.range 9).flatMap (fun i => subFrame (frameTypeOf k i) cd (lduCodeword m i))

/-- `LDU.COMPOSE k` (R158). -/
def execLduCompose (k j : BitVec 2) (i : BitVec 4) (s : State) : Answer :=
  .next <| commonChecks (operandSelK k j i) s <|
    let total := composedLength k.toNat
    if s.obValid = 0 then raiseFault .nullBuf (commandWord (.lduCompose k j i)) s
    else if total > Config.lenMax then raiseFault .overflow (commandWord (.lduCompose k j i)) s
    else if total > s.obCap.toNat then endWith .errCapacity s
    else
      endWith .ok <| setResult total
        { s with
          ob := Memory.write (memWrite s.ob Config.hdrLen (composedFrames k.toNat s.cd (s.ldu k)))
                  Config.lenOff (BitVec.ofNat 8 total)
          obPtr := BitVec.ofNat 9 total }

/-- `LDU.BEGIN` (R156). -/
def execLduBegin (op : Byte) (s : State) : Answer :=
  .next <| commonChecks (operandNone op) s <| endWith .ok { s with obPtr := BitVec.ofNat 9 Config.hdrLen }

/-- `LDU.END` (R157). -/
def execLduEnd (op : Byte) (s : State) : Answer :=
  .next <| commonChecks (operandNone op) s <|
    if s.obValid = 0 then raiseFault .nullBuf (commandWord (.lduEnd op)) s
    else if s.obPtr.toNat > Config.lenMax then raiseFault .overflow (commandWord (.lduEnd op)) s
    else if s.obCap.toNat ≤ Config.lenOff then endWith .errCapacity s
    else
      endWith .ok <| setResult s.obPtr.toNat
        { s with ob := Memory.write s.ob Config.lenOff (s.obPtr.extractLsb' 0 8) }

/-- A voice slot loaded from sub-frame i of an LDU buffer (R159). -/
def VoiceSlot.fromLdu (v : VoiceSlot) (m : Memory) (i : Nat) : VoiceSlot :=
  { v with
    ft := Memory.read m (Config.doff i)
    imbe := memWrite v.imbe 0 (lduCodeword m i)
    totErr := 0, mute := 0, lost := 0, sfc := 0, afdLen := 0 }

/-- `LDU.TOVB k, j, i` (R159). -/
def execLduToVb (k j : BitVec 2) (i : BitVec 4) (s : State) : Answer :=
  .next <| commonChecks (operandSelKJI k j i) s <|
    endWith .ok (s.setVb j.toNat ((s.vbAt j.toNat).fromLdu (s.ldu k) i.toNat))

end Sys2Proof.Machine
end

