-- ==== Sys2Proof/Machine/Payload.lean ====
section
/-! DEFINITION. The ISSI RTP payload as a whole (44_issi_payload.md): PL.SIZE, PL.ENC, PL.DEC. What reads a packet type takes
the OPEN parameters `o` (00_scope.md R6, D17); the commands give it the codec's own, `s.cfg`. -/

namespace Sys2Proof.Machine

/-! ### The payload record (R200) -/

/-- `isStart`: the 7-bit packet type is PT_PTT_TRANSMIT_START. -/
def isStart (o : Config.OpenParams) (h : PayloadHeader) : Bool := h.pktPt.toNat &&& 0x7F == o.ptStart

/-- `isProg`: the 7-bit packet type is PT_PTT_TRANSMIT_PROGRESS. -/
def isProg (o : Config.OpenParams) (h : PayloadHeader) : Bool := h.pktPt.toNat &&& 0x7F == o.ptProgress

/-- The record is bounded: its counts are within the slots. -/
def payloadBounded (s : State) : Bool :=
  decide (s.hdr.bhCnt.toNat ≤ Config.nbh) && decide (s.hdr.vbCnt.toNat ≤ Config.nvb)

/-- The record is well-formed: bounded, and W1 to W4. -/
def payloadWellFormed (s : State) : Bool :=
  payloadBounded s
  && (s.ptt.present == 1) == isStart s.cfg s.hdr
  && (s.hdr.frhPresent == 1) == isProg s.cfg s.hdr
  && (isProg s.cfg s.hdr || s.hdr.vbCnt == 0)
  && (!isProg s.cfg s.hdr || s.hdr.frhVbb == s.hdr.vbCnt)

/-! ### Size (R201) -/

/-- The by-presence sum of R201. -/
def payloadSize (s : State) : Nat :=
  1 + Config.bhLen * s.hdr.bhCnt.toNat + Config.pktLen
  + (if s.ptt.present = 1 then Config.pttLen else 0)
  + (if s.hdr.frhPresent = 1 then Config.frhLen else 0)
  + ((List.range s.hdr.vbCnt.toNat).map (fun j => frvSize (s.vbAt j))).foldr (· + ·) 0
  + s.hdr.pafdLen.toNat

/-- `PL.SIZE` (R201). -/
def execPlSize (op : Byte) (s : State) : Answer :=
  .next <| commonChecks (operandNone op) s <|
    if payloadBounded s then endWith .ok (setResult (payloadSize s) s) else endWith .errMalformed s

/-! ### Encode (R203) -/

/-- The bytes of the payload, by packet type and in the fixed order of R89 and R203. -/
def payloadBytes (s : State) : List Byte :=
  ctlBytes s.hdr
  ++ (List.range s.hdr.bhCnt.toNat).flatMap (fun i => bhBytes (s.bhAt i))
  ++ pktBytes s.hdr
  ++ (if isStart s.cfg s.hdr then pttBytes s.ptt else [])
  ++ (if isProg s.cfg s.hdr then
        s.hdr.frhVbb :: (List.range s.hdr.vbCnt.toNat).flatMap (fun j => frvFixed (s.vbAt j) ++ frvAfd (s.vbAt j))
      else [])
  ++ memRead s.pafd 0 s.hdr.pafdLen.toNat

/-- `PL.ENC` (R203). The capacity is checked against the size of R201; the bytes written are as many
(R202: "length(out) = n by well-formedness"). -/
def execPlEnc (op : Byte) (s : State) : Answer :=
  .next <| commonChecks (operandNone op) s <|
    if s.obValid = 0 then raiseFault .nullBuf (commandWord (.plEnc op)) s
    else if payloadWellFormed s then
      if s.obPtr.toNat + payloadSize s > s.obCap.toNat then endWith .errCapacity s else emit (payloadBytes s) s
    else endWith .errMalformed s

/-! ### Decode (R204) -/

/-- The parts of a payload, as bytes, before the commit of R204. -/
structure PayloadParts where
  /-- The control octet. -/
  ctl : List Byte
  /-- The block headers, four bytes each. -/
  headers : List (List Byte)
  /-- The packet-type block. -/
  pkt : List Byte
  /-- The PTT control block, of a START packet. -/
  ptt : Option (List Byte)
  /-- The bundling count and the voice blocks, 14 bytes each, of a PROGRESS packet. -/
  voice : Option (Byte × List (List Byte))
  /-- The payload-level additional frame data. -/
  rest : List Byte
deriving DecidableEq, Repr

/-- `need(n)` and the step past the n bytes: ERR_SHORT if they are not there. -/
def takeBytes (n : Nat) (b : List Byte) : Except Status (List Byte × List Byte) :=
  if b.length < n then .error .errShort else .ok (b.take n, b.drop n)

/-- `count` blocks of `n` bytes each. -/
def takeBlocks (n : Nat) : Nat → List Byte → Except Status (List (List Byte) × List Byte)
  | 0, b => .ok ([], b)
  | count + 1, b => do
    let (x, b) ← takeBytes n b
    let (xs, b) ← takeBlocks n count b
    .ok (x :: xs, b)

/-- The packet type of a packet-type block: its 7-bit field (R176). -/
def packetTypeOf (pkt : List Byte) : Nat := (unpack pktWidths pkt).getD 1 0

/-- The block-header count of a control octet: its 6-bit field (R170). -/
def headerCountOf (ctl : List Byte) : Nat := (unpack ctlWidths ctl).getD 2 0

/-- The PTT control block, there if and only if the packet type is START. -/
def takePtt (o : Config.OpenParams) (pt : Nat) (b : List Byte) : Except Status (Option (List Byte) × List Byte) :=
  if pt = o.ptStart then do
    let (x, b) ← takeBytes Config.pttLen b
    .ok (some x, b)
  else .ok (none, b)

/-- The bundling count and that many voice blocks, there if and only if the packet type is PROGRESS. -/
def takeVoice (o : Config.OpenParams) (pt : Nat) (b : List Byte) : Except Status (Option (Byte × List (List Byte)) × List Byte) :=
  if pt = o.ptProgress then do
    let (h, b) ← takeBytes Config.frhLen b
    let vbb := byteAt h 0
    if vbb.toNat > Config.nvb then .error .errCapacity
    else do
      let (blocks, b) ← takeBlocks Config.frvFixedLen vbb.toNat b
      .ok (some (vbb, blocks), b)
  else .ok (none, b)

/-- The parsing of R204, in wire order; an error is the status the command ends with. -/
def parsePayload (o : Config.OpenParams) (b : List Byte) : Except Status PayloadParts := do
  let (ctl, b) ← takeBytes 1 b
  if headerCountOf ctl > Config.nbh then .error .errCapacity
  else do
    let (headers, b) ← takeBlocks Config.bhLen (headerCountOf ctl) b
    let (pkt, b) ← takeBytes Config.pktLen b
    let (ptt, b) ← takePtt o (packetTypeOf pkt) b
    let (voice, b) ← takeVoice o (packetTypeOf pkt) b
    if b.length > Config.pafdMax then .error .errCapacity
    else .ok { ctl, headers, pkt, ptt, voice, rest := b }

/-- Voice slots j, j+1, ... with the fields of the blocks, each with no additional data of its own (R204). -/
def loadVoiceBlocks (vb : Vector VoiceSlot Config.nvb) (j : Nat) : List (List Byte) → Vector VoiceSlot Config.nvb
  | [] => vb
  | x :: xs =>
    loadVoiceBlocks (vb.setIfInBounds j { (vb.getD j VoiceSlot.reset).loadFixed x with afdLen := 0 }) (j + 1) xs

/-- The commit of R204, but for the cursor, RESULT and the status. -/
def commitPayload (p : PayloadParts) (s : State) : State :=
  let hdr := (s.hdr.loadCtl p.ctl).loadPkt p.pkt
  let hdr := { hdr with pafdLen := BitVec.ofNat 8 p.rest.length }
  { s with
    bh := setFrom s.bh 0 (p.headers.map bhOfBytes)
    ptt :=
      match p.ptt with
      | some b => { s.ptt.load b with present := 1 }
      | none => { s.ptt with present := 0 }
    hdr :=
      match p.voice with
      | some (vbb, _) => { hdr with frhPresent := 1, frhVbb := vbb, vbCnt := vbb }
      | none => { hdr with frhPresent := 0, vbCnt := 0 }
    vb :=
      match p.voice with
      | some (_, blocks) => loadVoiceBlocks s.vb 0 blocks
      | none => s.vb
    pafd := memWrite s.pafd 0 p.rest }

/-- `PL.DEC` (R204). -/
def execPlDec (op : Byte) (s : State) : Answer :=
  .next <| commonChecks (operandNone op) s <|
    if s.ibValid = 0 then endWith .errNull s
    else
      match parsePayload s.cfg (available s) with
      | .error c => endWith c s
      | .ok parts => endWith .ok (setResult (available s).length { commitPayload parts s with ibPtr := s.ibLen })

end Sys2Proof.Machine
end

