-- ==== Sys2Proof/Machine/System.lean ====
section
/-! DEFINITION. The system commands NOP and RESET (60_exceptions.md R246, R244). -/

namespace Sys2Proof.Machine

/-- `NOP` (R246). -/
def execNop (op : Byte) (s : State) : Answer := .next <| commonChecks (operandNone op) s (endWith .ok s)

/-- `RESET` (R244): the only command accepted while the latch is set. -/
def execReset (op : Byte) (s : State) : Answer :=
  .next <|
    if op != 0#8 && s.fault == 1#1 then endWith .refused s
    else if op != 0#8 then endWith .errOperand s
    else resetCodec s

end Sys2Proof.Machine
end

