-- ==== Sys2Proof/Machine/Dispatch.lean ====
section
/-! DEFINITION. One arm per instruction, in the order of spec/opcode_table.json. -/

namespace Sys2Proof.Machine

def exec (i : Instr) (s : State) : Host.Outcome State Fault Refusal :=
  match i with
  | .nop operand => Sys2Proof.Machine.execNop operand s
  | .reset operand => Sys2Proof.Machine.execReset operand s
  | .bpPack operand => Sys2Proof.Machine.execBpPack operand s
  | .bpUnpack operand => Sys2Proof.Machine.execBpUnpack operand s
  | .dfsiEnc ft => Sys2Proof.Machine.execDfsiEnc ft s
  | .dfsiDec operand => Sys2Proof.Machine.execDfsiDec operand s
  | .dfsiLen ft => Sys2Proof.Machine.execDfsiLen ft s
  | .lduCheck k j n => Sys2Proof.Machine.execLduCheck k j n s
  | .lduReasm k j n => Sys2Proof.Machine.execLduReasm k j n s
  | .lduGetImbe k j n => Sys2Proof.Machine.execLduGetImbe k j n s
  | .lduCompose k j n => Sys2Proof.Machine.execLduCompose k j n s
  | .lduBegin operand => Sys2Proof.Machine.execLduBegin operand s
  | .lduEnd operand => Sys2Proof.Machine.execLduEnd operand s
  | .lduToVb k j n => Sys2Proof.Machine.execLduToVb k j n s
  | .ctlEnc operand => Sys2Proof.Machine.execCtlEnc operand s
  | .ctlDec operand => Sys2Proof.Machine.execCtlDec operand s
  | .bhEnc slot => Sys2Proof.Machine.execBhEnc slot s
  | .bhDec slot => Sys2Proof.Machine.execBhDec slot s
  | .pktEnc operand => Sys2Proof.Machine.execPktEnc operand s
  | .pktDec operand => Sys2Proof.Machine.execPktDec operand s
  | .pttEnc operand => Sys2Proof.Machine.execPttEnc operand s
  | .pttDec operand => Sys2Proof.Machine.execPttDec operand s
  | .frhEnc operand => Sys2Proof.Machine.execFrhEnc operand s
  | .frhDec operand => Sys2Proof.Machine.execFrhDec operand s
  | .frvEnc slot => Sys2Proof.Machine.execFrvEnc slot s
  | .frvDec slot => Sys2Proof.Machine.execFrvDec slot s
  | .frvSize slot => Sys2Proof.Machine.execFrvSize slot s
  | .plSize operand => Sys2Proof.Machine.execPlSize operand s
  | .plEnc operand => Sys2Proof.Machine.execPlEnc operand s
  | .plDec operand => Sys2Proof.Machine.execPlDec operand s
  | .voice1 rssi imbe => Sys2Proof.Machine.execVoice1 rssi imbe s
  | .voice2 imbe => Sys2Proof.Machine.execVoice2 imbe s
  | .voice3 lco mfId svcOpt imbe => Sys2Proof.Machine.execVoice3 lco mfId svcOpt imbe s
  | .voice4 dstId imbe => Sys2Proof.Machine.execVoice4 dstId imbe s
  | .voice5 srcId imbe => Sys2Proof.Machine.execVoice5 srcId imbe s
  | .voice6 imbe => Sys2Proof.Machine.execVoice6 imbe s
  | .voice7 imbe => Sys2Proof.Machine.execVoice7 imbe s
  | .voice8 imbe => Sys2Proof.Machine.execVoice8 imbe s
  | .voice9 lsd1 lsd2 imbe => Sys2Proof.Machine.execVoice9 lsd1 lsd2 imbe s
  | .voice10 rssi imbe => Sys2Proof.Machine.execVoice10 rssi imbe s
  | .voice11 imbe => Sys2Proof.Machine.execVoice11 imbe s
  | .voice12 mi0 mi1 mi2 imbe => Sys2Proof.Machine.execVoice12 mi0 mi1 mi2 imbe s
  | .voice13 mi3 mi4 mi5 imbe => Sys2Proof.Machine.execVoice13 mi3 mi4 mi5 imbe s
  | .voice14 mi6 mi7 mi8 imbe => Sys2Proof.Machine.execVoice14 mi6 mi7 mi8 imbe s
  | .voice15 algId keyId imbe => Sys2Proof.Machine.execVoice15 algId keyId imbe s
  | .voice16 imbe => Sys2Proof.Machine.execVoice16 imbe s
  | .voice17 imbe => Sys2Proof.Machine.execVoice17 imbe s
  | .voice18 lsd1 lsd2 imbe => Sys2Proof.Machine.execVoice18 lsd1 lsd2 imbe s

end Sys2Proof.Machine
end

