-- ==== Sys2Proof/Machine/HostPort.lean ====
section
/-! DEFINITION. The host's accesses: the register map (10_state.md R34, R35) and the byte memories (R40, R41), and which
write issues a command (R28). -/

namespace Sys2Proof.Machine

/-- The registers of the map of R34, each under its own name; an array's registers carry their number. -/
inductive Reg where
  | cmd | status | result | faultCause | faultCmd | id | ftLast
  | ibLen | ibPtr | ibValid | obCap | obPtr | obValid
  | cdLco | cdMfId | cdSvcOpt | cdSrcId | cdDstId | cdMi (n : Nat) | cdAlgId | cdKeyId | cdLsd1 | cdLsd2 | cdRssi
  | pttPresent | pttWacn | pttSysId | pttUnitId | pttPrio
  | ctlS | ctlC | bhCnt | pktM | pktPt | pktAux | frhPresent | frhVbb | vbCnt | pafdLen
  | bhE (i : Nat) | bhBt (i : Nat) | bhTso (i : Nat) | bhBl (i : Nat)
  | vbFt (j : Nat) | vbTotErr (j : Nat) | vbMute (j : Nat) | vbLost (j : Nat) | vbSfc (j : Nat) | vbAfdLen (j : Nat)
  | bpN | bpW (i : Nat) | bpV (i : Nat)
deriving DecidableEq, Repr

/-- The index of a register (R34; R21, R26, R29 to R33). -/
def Reg.index : Reg → Nat
  | .cmd => 0x000 | .status => 0x001 | .result => 0x002 | .faultCause => 0x003 | .faultCmd => 0x004
  | .id => 0x005 | .ftLast => 0x006
  | .ibLen => 0x008 | .ibPtr => 0x009 | .ibValid => 0x00A | .obCap => 0x00B | .obPtr => 0x00C | .obValid => 0x00D
  | .cdLco => 0x010 | .cdMfId => 0x011 | .cdSvcOpt => 0x012 | .cdSrcId => 0x013 | .cdDstId => 0x014
  | .cdMi n => 0x015 + n
  | .cdAlgId => 0x01E | .cdKeyId => 0x01F | .cdLsd1 => 0x020 | .cdLsd2 => 0x021 | .cdRssi => 0x022
  | .pttPresent => 0x030 | .pttWacn => 0x031 | .pttSysId => 0x032 | .pttUnitId => 0x033 | .pttPrio => 0x034
  | .ctlS => 0x038 | .ctlC => 0x039 | .bhCnt => 0x03A | .pktM => 0x03B | .pktPt => 0x03C | .pktAux => 0x03D
  | .frhPresent => 0x03E | .frhVbb => 0x03F | .vbCnt => 0x040 | .pafdLen => 0x041
  | .bhE i => 0x050 + 4 * i | .bhBt i => 0x051 + 4 * i | .bhTso i => 0x052 + 4 * i | .bhBl i => 0x053 + 4 * i
  | .vbFt j => 0x060 + 8 * j | .vbTotErr j => 0x061 + 8 * j | .vbMute j => 0x062 + 8 * j
  | .vbLost j => 0x063 + 8 * j | .vbSfc j => 0x064 + 8 * j | .vbAfdLen j => 0x065 + 8 * j
  | .bpN => 0x080 | .bpW i => 0x090 + i | .bpV i => 0x0A0 + i

/-- Every register of the map. -/
def allRegs : List Reg :=
  [.cmd, .status, .result, .faultCause, .faultCmd, .id, .ftLast, .ibLen, .ibPtr, .ibValid, .obCap, .obPtr, .obValid,
   .cdLco, .cdMfId, .cdSvcOpt, .cdSrcId, .cdDstId, .cdAlgId, .cdKeyId, .cdLsd1, .cdLsd2, .cdRssi,
   .pttPresent, .pttWacn, .pttSysId, .pttUnitId, .pttPrio,
   .ctlS, .ctlC, .bhCnt, .pktM, .pktPt, .pktAux, .frhPresent, .frhVbb, .vbCnt, .pafdLen, .bpN]
  ++ (List.range 9).map .cdMi
  ++ (List.range Config.nbh).flatMap (fun i => [.bhE i, .bhBt i, .bhTso i, .bhBl i])
  ++ (List.range Config.nvb).flatMap (fun j => [.vbFt j, .vbTotErr j, .vbMute j, .vbLost j, .vbSfc j, .vbAfdLen j])
  ++ (List.range Config.nf).map .bpW ++ (List.range Config.nf).map .bpV

/-- The register at an index, if the map has one there. -/
def regAt (index : BitVec 12) : Option Reg := allRegs.find? (fun r => r.index == index.toNat)

/-- A host read of a register: its value zero-extended to 32 bits; CMD reads 0 (R28), ID its constant (R27). -/
def Reg.read (s : State) : Reg → RegData
  | .cmd => 0
  | .status => s.status.setWidth 32
  | .result => s.result.setWidth 32
  | .faultCause => s.faultCause.setWidth 32
  | .faultCmd => s.faultCmd.setWidth 32
  | .id => Config.idValue
  | .ftLast => s.ftLast.setWidth 32
  | .ibLen => s.ibLen.setWidth 32
  | .ibPtr => s.ibPtr.setWidth 32
  | .ibValid => s.ibValid.setWidth 32
  | .obCap => s.obCap.setWidth 32
  | .obPtr => s.obPtr.setWidth 32
  | .obValid => s.obValid.setWidth 32
  | .cdLco => s.cd.lco.setWidth 32
  | .cdMfId => s.cd.mfId.setWidth 32
  | .cdSvcOpt => s.cd.svcOpt.setWidth 32
  | .cdSrcId => s.cd.srcId
  | .cdDstId => s.cd.dstId
  | .cdMi n => (s.cd.mi.getD n 0).setWidth 32
  | .cdAlgId => s.cd.algId.setWidth 32
  | .cdKeyId => s.cd.keyId.setWidth 32
  | .cdLsd1 => s.cd.lsd1.setWidth 32
  | .cdLsd2 => s.cd.lsd2.setWidth 32
  | .cdRssi => s.cd.rssi.setWidth 32
  | .pttPresent => s.ptt.present.setWidth 32
  | .pttWacn => s.ptt.wacn
  | .pttSysId => s.ptt.sysId.setWidth 32
  | .pttUnitId => s.ptt.unitId
  | .pttPrio => s.ptt.prio.setWidth 32
  | .ctlS => s.hdr.ctlS.setWidth 32
  | .ctlC => s.hdr.ctlC.setWidth 32
  | .bhCnt => s.hdr.bhCnt.setWidth 32
  | .pktM => s.hdr.pktM.setWidth 32
  | .pktPt => s.hdr.pktPt.setWidth 32
  | .pktAux => s.hdr.pktAux
  | .frhPresent => s.hdr.frhPresent.setWidth 32
  | .frhVbb => s.hdr.frhVbb.setWidth 32
  | .vbCnt => s.hdr.vbCnt.setWidth 32
  | .pafdLen => s.hdr.pafdLen.setWidth 32
  | .bhE i => (s.bhAt i).e.setWidth 32
  | .bhBt i => (s.bhAt i).bt.setWidth 32
  | .bhTso i => (s.bhAt i).tso.setWidth 32
  | .bhBl i => (s.bhAt i).bl.setWidth 32
  | .vbFt j => (s.vbAt j).ft.setWidth 32
  | .vbTotErr j => (s.vbAt j).totErr.setWidth 32
  | .vbMute j => (s.vbAt j).mute.setWidth 32
  | .vbLost j => (s.vbAt j).lost.setWidth 32
  | .vbSfc j => (s.vbAt j).sfc.setWidth 32
  | .vbAfdLen j => (s.vbAt j).afdLen.setWidth 32
  | .bpN => s.bp.n.setWidth 32
  | .bpW i => (s.bp.w.getD i 0).setWidth 32
  | .bpV i => s.bp.v.getD i 0

/-- What a clamped register stores: "min(v, limit) of the full 32-bit written value v" (R34). -/
def clamp (w limit : Nat) (v : RegData) : BitVec w := BitVec.ofNat w (min v.toNat limit)

/-- A host write of a register: the low bits up to its width, or the clamped value; an RO register ignores it (R34, R35).
CMD stores nothing (R28; `commandIssued` says what a write to it does). -/
def Reg.write (v : RegData) (s : State) : Reg → State
  | .cmd | .status | .result | .faultCause | .faultCmd | .id | .ftLast => s
  | .ibLen => { s with ibLen := clamp 9 Config.bufSize v }
  | .ibPtr => { s with ibPtr := clamp 9 Config.bufSize v }
  | .ibValid => { s with ibValid := v.setWidth 1 }
  | .obCap => { s with obCap := clamp 9 Config.bufSize v }
  | .obPtr => { s with obPtr := clamp 9 Config.bufSize v }
  | .obValid => { s with obValid := v.setWidth 1 }
  | .cdLco => { s with cd := { s.cd with lco := v.setWidth 8 } }
  | .cdMfId => { s with cd := { s.cd with mfId := v.setWidth 8 } }
  | .cdSvcOpt => { s with cd := { s.cd with svcOpt := v.setWidth 8 } }
  | .cdSrcId => { s with cd := { s.cd with srcId := v } }
  | .cdDstId => { s with cd := { s.cd with dstId := v } }
  | .cdMi n => { s with cd := { s.cd with mi := s.cd.mi.setIfInBounds n (v.setWidth 8) } }
  | .cdAlgId => { s with cd := { s.cd with algId := v.setWidth 8 } }
  | .cdKeyId => { s with cd := { s.cd with keyId := v.setWidth 16 } }
  | .cdLsd1 => { s with cd := { s.cd with lsd1 := v.setWidth 8 } }
  | .cdLsd2 => { s with cd := { s.cd with lsd2 := v.setWidth 8 } }
  | .cdRssi => { s with cd := { s.cd with rssi := v.setWidth 8 } }
  | .pttPresent => { s with ptt := { s.ptt with present := v.setWidth 1 } }
  | .pttWacn => { s with ptt := { s.ptt with wacn := v } }
  | .pttSysId => { s with ptt := { s.ptt with sysId := v.setWidth 16 } }
  | .pttUnitId => { s with ptt := { s.ptt with unitId := v } }
  | .pttPrio => { s with ptt := { s.ptt with prio := v.setWidth 8 } }
  | .ctlS => { s with hdr := { s.hdr with ctlS := v.setWidth 1 } }
  | .ctlC => { s with hdr := { s.hdr with ctlC := v.setWidth 1 } }
  | .bhCnt => { s with hdr := { s.hdr with bhCnt := v.setWidth 8 } }
  | .pktM => { s with hdr := { s.hdr with pktM := v.setWidth 1 } }
  | .pktPt => { s with hdr := { s.hdr with pktPt := v.setWidth 8 } }
  | .pktAux => { s with hdr := { s.hdr with pktAux := v } }
  | .frhPresent => { s with hdr := { s.hdr with frhPresent := v.setWidth 1 } }
  | .frhVbb => { s with hdr := { s.hdr with frhVbb := v.setWidth 8 } }
  | .vbCnt => { s with hdr := { s.hdr with vbCnt := v.setWidth 8 } }
  | .pafdLen => { s with hdr := { s.hdr with pafdLen := clamp 8 Config.pafdMax v } }
  | .bhE i => s.setBh i { s.bhAt i with e := v.setWidth 1 }
  | .bhBt i => s.setBh i { s.bhAt i with bt := v.setWidth 8 }
  | .bhTso i => s.setBh i { s.bhAt i with tso := v.setWidth 16 }
  | .bhBl i => s.setBh i { s.bhAt i with bl := v.setWidth 16 }
  | .vbFt j => s.setVb j { s.vbAt j with ft := v.setWidth 8 }
  | .vbTotErr j => s.setVb j { s.vbAt j with totErr := v.setWidth 8 }
  | .vbMute j => s.setVb j { s.vbAt j with mute := v.setWidth 1 }
  | .vbLost j => s.setVb j { s.vbAt j with lost := v.setWidth 1 }
  | .vbSfc j => s.setVb j { s.vbAt j with sfc := v.setWidth 8 }
  | .vbAfdLen j => s.setVb j { s.vbAt j with afdLen := clamp 8 Config.afdMax v }
  | .bpN => { s with bp := { s.bp with n := v.setWidth 8 } }
  | .bpW i => { s with bp := { s.bp with w := s.bp.w.setIfInBounds i (v.setWidth 8) } }
  | .bpV i => { s with bp := { s.bp with v := s.bp.v.setIfInBounds i v } }

/-- `HostReadReg(index)` (R34, R35): 0 at an index the map does not have. -/
def hostReadReg (s : State) (index : BitVec 12) : RegData :=
  match regAt index with
  | some r => r.read s
  | none => 0

/-- `HostWriteReg(index, v)` at an index other than CMD's (R34, R35): ignored at an index the map does not have. -/
def hostWriteReg (index : BitVec 12) (v : RegData) (s : State) : State :=
  match regAt index with
  | some r => r.write v s
  | none => s

/-- The length of the memory with an id (R40); 0 for an id above 11, so that every offset is out of range there. -/
def memLength (id : BitVec 4) : Nat :=
  ([Config.bufSize, Config.bufSize, Config.lduBufLen, Config.lduBufLen, Config.imbeLen]
    ++ List.replicate Config.nvb Config.imbeLen ++ List.replicate Config.nvb Config.afdMax ++ [Config.pafdMax]).getD id.toNat 0

/-- The memory with an id (R40). -/
def State.memory (s : State) (id : BitVec 4) : Memory :=
  match id.toNat with
  | 0 => s.ib
  | 1 => s.ob
  | 2 => s.ldu1
  | 3 => s.ldu2
  | 4 => s.imbe
  | 5 => (s.vbAt 0).imbe
  | 6 => (s.vbAt 1).imbe
  | 7 => (s.vbAt 2).imbe
  | 8 => (s.vbAt 0).afd
  | 9 => (s.vbAt 1).afd
  | 10 => (s.vbAt 2).afd
  | 11 => s.pafd
  | _ => []

/-- The state with the memory of an id replaced. -/
def State.setMemory (s : State) (id : BitVec 4) (m : Memory) : State :=
  match id.toNat with
  | 0 => { s with ib := m }
  | 1 => { s with ob := m }
  | 2 => { s with ldu1 := m }
  | 3 => { s with ldu2 := m }
  | 4 => { s with imbe := m }
  | 5 => s.setVb 0 { s.vbAt 0 with imbe := m }
  | 6 => s.setVb 1 { s.vbAt 1 with imbe := m }
  | 7 => s.setVb 2 { s.vbAt 2 with imbe := m }
  | 8 => s.setVb 0 { s.vbAt 0 with afd := m }
  | 9 => s.setVb 1 { s.vbAt 1 with afd := m }
  | 10 => s.setVb 2 { s.vbAt 2 with afd := m }
  | 11 => { s with pafd := m }
  | _ => s

/-- `HostReadMem(id, a)` (R41): 0x00 out of range. -/
def hostReadMem (s : State) (id : BitVec 4) (a : BitVec 12) : Byte :=
  if a.toNat < memLength id then Memory.read (s.memory id) a.toNat else 0

/-- `HostWriteMem(id, a, b)` (R41): ignored out of range. -/
def hostWriteMem (id : BitVec 4) (a : BitVec 12) (b : Byte) (s : State) : State :=
  if a.toNat < memLength id then s.setMemory id (Memory.write (s.memory id) a.toNat b) else s

/-- The command word a move issues: a write to CMD issues `v[15:0]` (R28, R81). -/
def commandIssued : HostAction → Option CmdWord
  | .writeReg index v => if index = 0 then some (v.setWidth 16) else none
  | .readReg _ => none
  | .writeMem _ _ _ => none
  | .readMem _ _ => none
  | .resetPin => none

/-- A move that issues no command, on the state it leaves. A read answers on the 32-bit port `h_rdata`: a register
zero-extended (R34); a memory byte zero-extended too, which is the model's choice: R41 answers a byte and no rule says what
bits 31:8 of the port hold then (DESIGN CHOICE, unsafe: log entry 2). -/
def hostAccess (a : HostAction) (s : State) : State :=
  match a with
  | .writeReg index v => hostWriteReg index v s
  | .readReg index => { s with hRdata := hostReadReg s index }
  | .writeMem id a b => hostWriteMem id a b s
  | .readMem id a => { s with hRdata := (hostReadMem s id a).setWidth 32 }
  | .resetPin => resetCodec s

/-- The write to CMD that issues a command word. -/
def issue (w : CmdWord) : HostAction := .writeReg 0 (w.setWidth 32)

/-- The state in which the bits of a table row are what the next step runs: a command word (16 bits) is issued; a
sub-frame is placed at offset 0 of IB, the read cursor at it, IB valid and of the longest sub-frame's length, and
DFSI.DEC is issued (log entry 4). -/
def placeTableWord (s : State) (nbits w : Nat) : State :=
  if nbits = 16 then { s with host := issue (BitVec.ofNat 16 w) :: s.host }
  else
    { s with
      ib := memWrite s.ib 0 (tableSubFrame (w % 2 ^ nbits))
      ibPtr := 0
      ibLen := BitVec.ofNat 9 longestSubFrame
      ibValid := 1
      host := issue (commandWord (.dfsiDec 0)) :: s.host }

end Sys2Proof.Machine
end

