-- ==== Sys2Proof/Machine/Step.lean ====
section
/-! DEFINITION. One step of the machine: the next move of the host, and if it issues a command, the whole command
(20_memory.md R66, R72). Three outcomes: next, fault, refused. -/

namespace Sys2Proof.Machine

/-- The command word `w` run on `s`: the instruction it decodes to, or ERR_ILLEGAL (R84). -/
def runWord (w : CmdWord) (s : State) : Host.Outcome State Fault Refusal :=
  match decodeWord w with
  | .ok i => exec i s
  | .error _ => .next (illegalOpcode s)

/-- One step: the host's next move is taken off the list and done. With no move pending the codec "is idle and holds its
state" (60_exceptions.md R255; log entry 8). -/
def step (s : State) : Host.Outcome State Fault Refusal :=
  match s.host with
  | [] => .next s
  | a :: rest =>
    match commandIssued a with
    | some w => runWord w { s with host := rest }
    | none => .next (hostAccess a { s with host := rest })

/-- `s` with a table row's instruction placed where the next step takes its instruction from (log entry 4). -/
def State.withFetchWord (s : State) (nbits w : Nat) : State := placeTableWord s nbits w

end Sys2Proof.Machine
end

