-- ==== Sys2Proof/Safety.lean ====
section
/-! DEFINITION. What the spec promises of every state the machine reaches. -/

namespace Sys2Proof.Machine

/-- Every byte memory is in its canonical form and within its length (10_state.md R40). -/
def State.memoriesOk (s : State) : Bool :=
  Memory.wf Config.bufSize s.ib && Memory.wf Config.bufSize s.ob
  && Memory.wf Config.lduBufLen s.ldu1 && Memory.wf Config.lduBufLen s.ldu2
  && Memory.wf Config.imbeLen s.imbe && Memory.wf Config.pafdMax s.pafd
  && (List.range Config.nvb).all (fun j =>
      Memory.wf Config.imbeLen (s.vbAt j).imbe && Memory.wf Config.afdMax (s.vbAt j).afd)

/-- The cursors and lengths are within their limits (R24, R25, R30, R32). -/
def State.cursorsOk (s : State) : Bool :=
  decide (s.ibLen.toNat ≤ Config.bufSize) && decide (s.ibPtr.toNat ≤ Config.bufSize)
  && decide (s.obCap.toNat ≤ Config.bufSize) && decide (s.obPtr.toNat ≤ Config.bufSize)
  && decide (s.hdr.pafdLen.toNat ≤ Config.pafdMax)
  && (List.range Config.nvb).all (fun j => decide ((s.vbAt j).afdLen.toNat ≤ Config.afdMax))

/-- The status registers agree (60_exceptions.md R231, R241, R243): CODE is one of the codes; with the latch clear no
fault is recorded and CODE is neither REFUSED nor a fault; with the latch set FAULT_CAUSE is one of the two causes and
CODE is that cause or REFUSED. FT_LAST is 0 or a discriminant (10_state.md R26), RESULT at most 256
(49_common_semantics.md R221). -/
def State.statusOk (s : State) : Bool :=
  statusCodes.contains s.code
  && (if s.fault = 1 then
        (s.faultCause == 0x80#8 || s.faultCause == 0x81#8) && (s.code == s.faultCause || s.code == 0xFF#8)
      else
        s.faultCause == 0#8 && s.faultCmd == 0#16
        && s.code != 0x80#8 && s.code != 0x81#8 && s.code != 0xFF#8)
  && (s.ftLast == 0#8 || (decide (Config.ftLdu1Base ≤ s.ftLast.toNat) && decide (s.ftLast.toNat ≤ Config.ftLast)))
  && decide (s.result.toNat ≤ Config.bufSize)

/-- The invariant of the machine; its parameters satisfy the constraints of R6. -/
def State.inv (s : State) : Bool := s.memoriesOk && s.cursorsOk && s.statusOk && s.params.constraintsHold

end Sys2Proof.Machine
end

