-- ==== Sys2Proof/Certificates/Slice0/Obligations.lean ====
section
/-! DEFINITION. What the spec says of the codec, stated for the provers. First the terms the statements share, each written
from the spec's tables and not from the meanings: the wire formats byte by byte, the register map, the outcomes of a command.
A statement about an instruction gives the whole next state, so that it is result, completion and frame at once:
{ s with … } names every register that changes, `Laid` every byte of memory that changes. -/

namespace Sys2Proof.Claims

open Sys2Proof.Machine

/-! ### Memories and cursors -/

/-- `m'` is `m` with the bytes `b` laid from offset `a` on: those offsets read as `b`, every other offset as before. -/
def Laid (m : Memory) (a : Nat) (b : List Byte) (m' : Memory) : Prop :=
  ∀ x, Memory.read m' x = if a ≤ x ∧ x < a + b.length then b.getD (x - a) 0 else Memory.read m x

/-- Byte `n` of IB counted from the read cursor. -/
def inputByte (s : State) (n : Nat) : Byte := Memory.read s.ib (s.ibPtr.toNat + n)

/-- `n` bytes of IB from byte `a` after the read cursor on. -/
def inputBytes (s : State) (a n : Nat) : List Byte := (List.range n).map (fun t => inputByte s (a + t))

/-- Memory `LDU(k)`, for k = 1 or 2. -/
def lduBuffer (s : State) (k : BitVec 2) : Memory := if k = 1#2 then s.ldu1 else s.ldu2

/-! ### How a command ends -/

/-- The instruction takes `s` to a next state that differs from `s` in STATUS.CODE alone, which is `c`. -/
def EndsWith (i : Instr) (c : BitVec 8) (s : State) : Prop := exec i s = .next { s with code := c }

/-- The instruction raises a fault (R241): the four writes and nothing else. -/
def Faults (i : Instr) (cause : BitVec 8) (word : BitVec 16) (s : State) : Prop :=
  exec i s = .next { s with fault := 1, faultCause := cause, faultCmd := word, code := cause }

/-- A command: its word (R83), and the common checks of R240: REFUSED under the latch, else ERR_OPERAND for a malformed
operand, else what `body` says. -/
def Guarded (i : Instr) (word : BitVec 16) (operandOk : Prop) (s : State) (body : Prop) : Prop :=
  encode i = .command word
  ∧ (s.fault = 1 → EndsWith i 0xFF#8 s)
  ∧ (s.fault = 0 → ¬ operandOk → EndsWith i 0x15#8 s)
  ∧ (s.fault = 0 → operandOk → body)

/-- The bytes `b` go to OB at the write cursor, the cursor moves past them, RESULT is their number, the status is OK; every
other byte and register is as before. -/
def Appends (i : Instr) (b : List Byte) (s : State) : Prop :=
  ∃ ob', Laid s.ob s.obPtr.toNat b ob' ∧
    exec i s = .next { s with
      ob := ob', obPtr := BitVec.ofNat 9 (s.obPtr.toNat + b.length), result := BitVec.ofNat 16 b.length, code := 0x00#8 }

/-- `EncFixed(b)` of R190 for the command word `word`. -/
def EncodesFixed (i : Instr) (word : BitVec 16) (b : List Byte) (s : State) : Prop :=
  (s.obValid = 0 → Faults i 0x80#8 word s)
  ∧ (s.obValid = 1 → s.obPtr.toNat + b.length > s.obCap.toNat → EndsWith i 0x13#8 s)
  ∧ (s.obValid = 1 → s.obPtr.toNat + b.length ≤ s.obCap.toNat → Appends i b s)

/-- `n` bytes consumed: `t` with the read cursor of `s` moved past them, RESULT `n`, the status OK. -/
def consumed (n : Nat) (s t : State) : State :=
  { t with ibPtr := BitVec.ofNat 9 (s.ibPtr.toNat + n), result := BitVec.ofNat 16 n, code := 0x00#8 }

/-- `DecFixed(n)` of R190, after which the registers are as in `t`. -/
def DecodesFixed (i : Instr) (n : Nat) (s t : State) : Prop :=
  (s.ibValid = 0 → EndsWith i 0x11#8 s)
  ∧ (s.ibValid = 1 → s.ibPtr.toNat + n > s.ibLen.toNat → EndsWith i 0x12#8 s)
  ∧ (s.ibValid = 1 → s.ibPtr.toNat + n ≤ s.ibLen.toNat → exec i s = .next (consumed n s t))

/-- State `u` is ready to decode the bytes that an encoder wrote when it took `s` to `t`: latch clear, input present, the
RESULT bytes at the read cursor and equal to those at the encoder's write cursor. -/
def Carried (s t u : State) : Prop :=
  u.fault = 0 ∧ u.ibValid = 1 ∧ u.ibPtr.toNat + t.result.toNat ≤ u.ibLen.toNat
  ∧ ∀ n, n < t.result.toNat → inputByte u n = Memory.read t.ob (s.obPtr.toNat + n)

/-- Instructions run one after the other. -/
def runAll : List Instr → State → Answer
  | [], s => .next s
  | i :: is, s =>
    match exec i s with
    | .next t => runAll is t
    | .fault r => .fault r
    | .refused r => .refused r

/-! ### Sub-frames (R87, R120 to R139) -/

/-- The 18 discriminants (R85). -/
def isFrameType (ft : Nat) : Prop := 0x62 ≤ ft ∧ ft ≤ 0x73

/-- The length of a sub-frame (R87). -/
def sfLength : Nat → Nat
  | 0x62 | 0x6B => 22
  | 0x63 | 0x6C => 14
  | 0x6A | 0x73 => 16
  | _ => 17

/-- The offset of the codeword in a sub-frame (R87). -/
def sfCodeword : Nat → Nat
  | 0x62 | 0x6B => 10
  | 0x63 | 0x6C => 1
  | 0x6A | 0x73 => 4
  | _ => 5

/-- The unnamed bytes of a sub-frame, with the reserved bytes of VOICE6, 7, 8, 16, 17 (R121). -/
def unnamed : Nat → List Nat
  | 0x62 | 0x6B => [1, 2, 3, 4, 5, 7, 8, 9, 21]
  | 0x63 | 0x6C => [12, 13]
  | 0x67 | 0x68 | 0x69 | 0x71 | 0x72 => [1, 2, 3, 4, 16]
  | 0x6A | 0x73 => [3, 15]
  | _ => [4, 16]

/-- The bytes of a sub-frame built from the call data and the codeword `c`, offset 0 first (R122 to R139). -/
def sfBytes (ft : Nat) (cd : CallData) (c : List Byte) : List Byte :=
  match ft with
  | 0x62 => [0x62, 0, 0, 0, 0, 0, cd.rssi, 0, 0, 0] ++ c ++ [0]
  | 0x63 => [0x63] ++ c ++ [0, 0]
  | 0x64 => [0x64, cd.lco, cd.mfId, cd.svcOpt, 0] ++ c ++ [0]
  | 0x65 => [0x65, cd.dstId.extractLsb' 16 8, cd.dstId.extractLsb' 8 8, cd.dstId.extractLsb' 0 8, 0] ++ c ++ [0]
  | 0x66 => [0x66, cd.srcId.extractLsb' 16 8, cd.srcId.extractLsb' 8 8, cd.srcId.extractLsb' 0 8, 0] ++ c ++ [0]
  | 0x67 => [0x67, 0, 0, 0, 0] ++ c ++ [0]
  | 0x68 => [0x68, 0, 0, 0, 0] ++ c ++ [0]
  | 0x69 => [0x69, 0, 0, 0, 0] ++ c ++ [0]
  | 0x6A => [0x6A, cd.lsd1, cd.lsd2, 0] ++ c ++ [0]
  | 0x6B => [0x6B, 0, 0, 0, 0, 0, cd.rssi, 0, 0, 0] ++ c ++ [0]
  | 0x6C => [0x6C] ++ c ++ [0, 0]
  | 0x6D => [0x6D, cd.mi.getD 0 0, cd.mi.getD 1 0, cd.mi.getD 2 0, 0] ++ c ++ [0]
  | 0x6E => [0x6E, cd.mi.getD 3 0, cd.mi.getD 4 0, cd.mi.getD 5 0, 0] ++ c ++ [0]
  | 0x6F => [0x6F, cd.mi.getD 6 0, cd.mi.getD 7 0, cd.mi.getD 8 0, 0] ++ c ++ [0]
  | 0x70 => [0x70, cd.algId, cd.keyId.extractLsb' 8 8, cd.keyId.extractLsb' 0 8, 0] ++ c ++ [0]
  | 0x71 => [0x71, 0, 0, 0, 0] ++ c ++ [0]
  | 0x72 => [0x72, 0, 0, 0, 0] ++ c ++ [0]
  | 0x73 => [0x73, cd.lsd1, cd.lsd2, 0] ++ c ++ [0]
  | _ => []

/-- The message indicator with three bytes from index `n` on replaced. -/
def withMi (n : Nat) (x y z : Byte) (cd : CallData) : CallData :=
  { cd with mi := ((cd.mi.setIfInBounds n x).setIfInBounds (n + 1) y).setIfInBounds (n + 2) z }

/-- The call data after a sub-frame of type `ft` with bytes `f 0`, `f 1`, … is decoded (R122 to R139). -/
def sfMetadata (ft : Nat) (f : Nat → Byte) (cd : CallData) : CallData :=
  match ft with
  | 0x62 | 0x6B => { cd with rssi := f 6 }
  | 0x64 => { cd with lco := f 1, mfId := f 2, svcOpt := f 3 }
  | 0x65 => { cd with dstId := (f 1 ++ f 2 ++ f 3).setWidth 32 }
  | 0x66 => { cd with srcId := (f 1 ++ f 2 ++ f 3).setWidth 32 }
  | 0x6A | 0x73 => { cd with lsd1 := f 1, lsd2 := f 2 }
  | 0x6D => withMi 0 (f 1) (f 2) (f 3) cd
  | 0x6E => withMi 3 (f 1) (f 2) (f 3) cd
  | 0x6F => withMi 6 (f 1) (f 2) (f 3) cd
  | 0x70 => { cd with algId := f 1, keyId := f 2 ++ f 3 }
  | _ => cd

/-- The call data `cd` with the registers a sub-frame of type `ft` carries taken from `src`, 24-bit fields cut to 24 bits
(R143 a). -/
def sfCarries (ft : Nat) (src cd : CallData) : CallData :=
  match ft with
  | 0x62 | 0x6B => { cd with rssi := src.rssi }
  | 0x64 => { cd with lco := src.lco, mfId := src.mfId, svcOpt := src.svcOpt }
  | 0x65 => { cd with dstId := (src.dstId.extractLsb' 0 24).setWidth 32 }
  | 0x66 => { cd with srcId := (src.srcId.extractLsb' 0 24).setWidth 32 }
  | 0x6A | 0x73 => { cd with lsd1 := src.lsd1, lsd2 := src.lsd2 }
  | 0x6D => withMi 0 (src.mi.getD 0 0) (src.mi.getD 1 0) (src.mi.getD 2 0) cd
  | 0x6E => withMi 3 (src.mi.getD 3 0) (src.mi.getD 4 0) (src.mi.getD 5 0) cd
  | 0x6F => withMi 6 (src.mi.getD 6 0) (src.mi.getD 7 0) (src.mi.getD 8 0) cd
  | 0x70 => { cd with algId := src.algId, keyId := src.keyId }
  | _ => cd

/-- A sub-frame format of type `ft` and length `n`: its bytes are `f`, and where DFSI.DEC would act on it, its meaning writes
the call data `cd`, the codeword `c` into IMBE and FT_LAST, and consumes `n` bytes; else it ends as DFSI.DEC does. -/
def ActsAsSubFrame (v : Instr) (ft n : Nat) (f : List Byte) (c : List Byte) (cd : CallData) (s : State) : Prop :=
  encode v = .subFrame f ∧ f.length = n
  ∧ (s.fault = 1 → EndsWith v 0xFF#8 s)
  ∧ (s.fault = 0 → s.ibValid = 0 → EndsWith v 0x11#8 s)
  ∧ (s.fault = 0 → s.ibValid = 1 → s.ibPtr.toNat + n > s.ibLen.toNat → EndsWith v 0x12#8 s)
  ∧ (s.fault = 0 → s.ibValid = 1 → s.ibPtr.toNat + n ≤ s.ibLen.toNat →
      ∃ imbe', Laid s.imbe 0 c imbe' ∧
        exec v s = .next (consumed n s { s with cd := cd, imbe := imbe', ftLast := BitVec.ofNat 8 ft }))

/-! ### LDU records and buffers (R68, R69, R151, R152) -/

/-- Where chunk i stands in a record. -/
def recordOffset (i : Nat) : Nat := [0, 22, 36, 53, 70, 87, 104, 121, 138].getD i 0
/-- How long chunk i is. -/
def chunkLength (i : Nat) : Nat := [22, 14, 17, 17, 17, 17, 17, 17, 16].getD i 0
/-- Where the codeword of chunk i stands in a record. -/
def recordCodeword (i : Nat) : Nat := [10, 23, 41, 58, 75, 92, 109, 126, 142].getD i 0
/-- Where the codeword of chunk i stands in an LDU buffer. -/
def bufferCodeword (i : Nat) : Nat := [10, 26, 55, 80, 105, 130, 155, 180, 204].getD i 0
/-- `ft(k, i)`. -/
def frameTypeAt (k : BitVec 2) (i : Nat) : Nat := if k = 1#2 then 0x62 + i else 0x6B + i

/-- SEL operand using k alone. -/
def selectsK (k j : BitVec 2) (i : BitVec 4) : Prop := (k = 1 ∨ k = 2) ∧ j = 0 ∧ i = 0

/-- `Valid(k, rec)` for the record at the read cursor. -/
def validAtCursor (k : BitVec 2) (s : State) : Prop :=
  ∀ i, i < 9 → inputByte s (recordOffset i) = BitVec.ofNat 8 (frameTypeAt k i)

/-- The record at the cursor is there: else ERR_NULL or ERR_SHORT, else what `body` says. -/
def WithRecord (i : Instr) (s : State) (body : Prop) : Prop :=
  (s.ibValid = 0 → EndsWith i 0x11#8 s)
  ∧ (s.ibValid = 1 → s.ibPtr.toNat + 154 > s.ibLen.toNat → EndsWith i 0x12#8 s)
  ∧ (s.ibValid = 1 → s.ibPtr.toNat + 154 ≤ s.ibLen.toNat → body)

/-- `m'` is the buffer `m` with the nine chunks of the record at the cursor in their slots: slot i starts at 25 * i and holds
chunk i in its first `chunkLength i` bytes; every other byte is as in `m` (R69). -/
def Reassembled (s : State) (m m' : Memory) : Prop :=
  ∀ x, Memory.read m' x =
    if x < 216 ∧ x % 25 < chunkLength (x / 25) then inputByte s (recordOffset (x / 25) + x % 25) else Memory.read m x

/-- The 154 bytes that LDU.COMPOSE k puts together. -/
def composedBytes (k : BitVec 2) (s : State) : List Byte :=
  (List.range 9).flatMap (fun i => sfBytes (frameTypeAt k i) s.cd (memRead (lduBuffer s k) (bufferCodeword i) 11))

/-- The sequence by hand that R158 names: LDU.BEGIN, nine times LDU.GETIMBE and DFSI.ENC, LDU.END. -/
def composedByHand (k : BitVec 2) : List Instr :=
  [.lduBegin 0]
  ++ (List.range 9).flatMap (fun i =>
      [.lduGetImbe k 0 (BitVec.ofNat 4 i), .dfsiEnc (BitVec.ofNat 8 (frameTypeAt k i))])
  ++ [.lduEnd 0]

/-! ### The bit-packer (R110, R111, R115) -/

/-- The width of field i. -/
def fieldWidth (bp : BitPacker) (i : Nat) : Nat := (bp.w.getD i 0).toNat

/-- The total width T. -/
def fieldTotal (bp : BitPacker) : Nat := ((List.range bp.n.toNat).map (fieldWidth bp)).sum

/-- How many bits stand below field i. -/
def bitsBelow (bp : BitPacker) (i : Nat) : Nat := (((List.range bp.n.toNat).drop (i + 1)).map (fieldWidth bp)).sum

/-- R115. -/
def descriptorOk (bp : BitPacker) : Prop :=
  1 ≤ bp.n.toNat ∧ bp.n.toNat ≤ 8 ∧ (∀ i, i < bp.n.toNat → 1 ≤ fieldWidth bp i ∧ fieldWidth bp i ≤ 32)
  ∧ fieldTotal bp ≤ 64 ∧ fieldTotal bp % 8 = 0

/-- The number whose bits are the fields, field 0 most significant, each cut to its width. -/
def fieldNumber (bp : BitPacker) : Nat :=
  ((List.range bp.n.toNat).map (fun i => (bp.v.getD i 0).toNat % 2 ^ fieldWidth bp i * 2 ^ bitsBelow bp i)).sum

/-- The `n` bytes of a number, most significant first. -/
def bigEndian (n a : Nat) : List Byte := (List.range n).map (fun b => BitVec.ofNat 8 (a / 256 ^ (n - 1 - b)))

/-- The number that the `n` bytes at the read cursor are, most significant first. -/
def inputNumber (s : State) (n : Nat) : Nat :=
  ((List.range n).map (fun b => (inputByte s b).toNat * 256 ^ (n - 1 - b))).sum

/-- Widths that the functions of R110 and R111 are defined on. -/
def widthsOk (ws : List Nat) : Prop := (∀ w ∈ ws, 1 ≤ w) ∧ ws.sum % 8 = 0 ∧ ws.sum ≤ 64

/-! ### ISSI sub-blocks, byte by byte (R170 to R185) -/

/-- Control octet (R170). -/
def wireCtl (h : PayloadHeader) : List Byte := [h.ctlS ++ h.ctlC ++ h.bhCnt.extractLsb' 0 6]

/-- Block header (R173). -/
def wireBh (b : BlockHeader) : List Byte :=
  [b.e ++ b.bt.extractLsb' 0 7, b.tso.extractLsb' 6 8, b.tso.extractLsb' 0 6 ++ b.bl.extractLsb' 8 2,
   b.bl.extractLsb' 0 8]

/-- Packet-type block (R176). -/
def wirePkt (h : PayloadHeader) : List Byte :=
  [h.pktM ++ h.pktPt.extractLsb' 0 7, h.pktAux.extractLsb' 16 8, h.pktAux.extractLsb' 8 8, h.pktAux.extractLsb' 0 8]

/-- PTT control (R179). -/
def wirePtt (p : PttFile) : List Byte :=
  [p.wacn.extractLsb' 12 8, p.wacn.extractLsb' 4 8, p.wacn.extractLsb' 0 4 ++ p.sysId.extractLsb' 8 4,
   p.sysId.extractLsb' 0 8, p.unitId.extractLsb' 16 8, p.unitId.extractLsb' 8 8, p.unitId.extractLsb' 0 8, p.prio]

/-- The 14 fixed bytes of a voice block (R185). -/
def wireVoice (v : VoiceSlot) : List Byte :=
  [v.ft] ++ memRead v.imbe 0 11
  ++ [v.totErr.extractLsb' 0 3 ++ 0#3 ++ v.mute ++ v.lost, 0#4 ++ v.sfc.extractLsb' 0 2 ++ 0#2]

/-- The block header that four bytes are (R173, R175). -/
def blockHeaderOf (b0 b1 b2 b3 : Byte) : BlockHeader :=
  { e := b0.extractLsb' 7 1, bt := (b0.extractLsb' 0 7).setWidth 8, tso := (b1 ++ b2.extractLsb' 2 6).setWidth 16,
    bl := (b2.extractLsb' 0 2 ++ b3).setWidth 16 }

/-- A voice slot with the fields that the bytes `f 0`, …, `f 13` are, its codeword in `imbe` (R185, R187). -/
def voiceSlotOf (f : Nat → Byte) (imbe : Memory) (v : VoiceSlot) : VoiceSlot :=
  { v with
    ft := f 0, imbe := imbe, totErr := ((f 12).extractLsb' 5 3).setWidth 8, mute := (f 12).extractLsb' 1 1,
    lost := (f 12).extractLsb' 0 1, sfc := ((f 13).extractLsb' 2 2).setWidth 8 }

/-! ### The payload (R200, R201, R203, R204) -/

/-- The record is bounded. -/
def recordBounded (s : State) : Prop := s.hdr.bhCnt.toNat ≤ 4 ∧ s.hdr.vbCnt.toNat ≤ 3

/-- The 7-bit packet type of the record is the codec's PT_PTT_TRANSMIT_START (R200; on this hardware 4, R6). -/
def recordStarts (s : State) : Prop := s.hdr.pktPt.toNat % 128 = s.cfg.ptStart

/-- The 7-bit packet type of the record is the codec's PT_PTT_TRANSMIT_PROGRESS (R200; on this hardware 2, R6). -/
def recordProgresses (s : State) : Prop := s.hdr.pktPt.toNat % 128 = s.cfg.ptProgress

/-- The record is well-formed: bounded and W1 to W4. -/
def recordOk (s : State) : Prop :=
  recordBounded s
  ∧ (s.ptt.present = 1 ↔ recordStarts s)
  ∧ (s.hdr.frhPresent = 1 ↔ recordProgresses s)
  ∧ (¬ recordProgresses s → s.hdr.vbCnt = 0)
  ∧ (recordProgresses s → s.hdr.frhVbb = s.hdr.vbCnt)

/-- The sum of R201. -/
def recordSize (s : State) : Nat :=
  1 + 4 * s.hdr.bhCnt.toNat + 4 + (if s.ptt.present = 1 then 8 else 0) + (if s.hdr.frhPresent = 1 then 1 else 0)
  + ((List.range s.hdr.vbCnt.toNat).map (fun j => 14 + (s.vbAt j).afdLen.toNat)).sum + s.hdr.pafdLen.toNat

/-- The bytes of the payload in the order of R203. -/
def recordBytes (s : State) : List Byte :=
  wireCtl s.hdr
  ++ (List.range s.hdr.bhCnt.toNat).flatMap (fun i => wireBh (s.bhAt i))
  ++ wirePkt s.hdr
  ++ (if s.hdr.pktPt.toNat % 128 = s.cfg.ptStart then wirePtt s.ptt else [])
  ++ (if s.hdr.pktPt.toNat % 128 = s.cfg.ptProgress then
        [s.hdr.frhVbb] ++ (List.range s.hdr.vbCnt.toNat).flatMap (fun j =>
          wireVoice (s.vbAt j) ++ memRead (s.vbAt j).afd 0 (s.vbAt j).afdLen.toNat)
      else [])
  ++ memRead s.pafd 0 s.hdr.pafdLen.toNat

/-- How many bytes stand between the read cursor and IB_LEN. -/
def inputLength (s : State) : Nat := s.ibLen.toNat - s.ibPtr.toNat

/-- The block-header count of the payload at the cursor. -/
def inputBhc (s : State) : Nat := (inputByte s 0).toNat % 64

/-- Where the packet-type block of the payload at the cursor stands. -/
def inputPkt (s : State) : Nat := 1 + 4 * inputBhc s

/-- The packet type of the payload at the cursor. -/
def inputType (s : State) : Nat := (inputByte s (inputPkt s)).toNat % 128

/-- The bundling count of the PROGRESS payload at the cursor. -/
def inputVbb (s : State) : Nat := (inputByte s (inputPkt s + 4)).toNat

/-- Where the trailing additional data of the payload at the cursor begins. -/
def inputRest (s : State) : Nat :=
  inputPkt s + 4
    + (if inputType s = s.cfg.ptStart then 8 else if inputType s = s.cfg.ptProgress then 1 + 14 * inputVbb s else 0)

/-- The status PL.DEC ends with for the payload at the cursor, its tests in wire order (R204). -/
def inputStatus (s : State) : BitVec 8 :=
  if inputLength s < 1 then 0x12
  else if inputBhc s > 4 then 0x13
  else if inputLength s < inputPkt s + 4 then 0x12
  else if inputType s = s.cfg.ptProgress ∧ inputLength s < inputPkt s + 5 then 0x12
  else if inputType s = s.cfg.ptProgress ∧ inputVbb s > 3 then 0x13
  else if inputLength s < inputRest s then 0x12
  else if inputLength s - inputRest s > 64 then 0x13
  else 0x00

/-- The payload header after PL.DEC. -/
def inputHeader (s : State) : PayloadHeader :=
  let p := inputPkt s
  let h :=
    { s.hdr with
      ctlS := (inputByte s 0).extractLsb' 7 1, ctlC := (inputByte s 0).extractLsb' 6 1
      bhCnt := BitVec.ofNat 8 (inputBhc s)
      pktM := (inputByte s p).extractLsb' 7 1, pktPt := BitVec.ofNat 8 (inputType s)
      pktAux := (inputByte s (p + 1) ++ inputByte s (p + 2) ++ inputByte s (p + 3)).setWidth 32
      pafdLen := BitVec.ofNat 8 (inputLength s - inputRest s) }
  if inputType s = s.cfg.ptProgress then
    { h with frhPresent := 1, frhVbb := inputByte s (p + 4), vbCnt := inputByte s (p + 4) }
  else { h with frhPresent := 0, vbCnt := 0 }

/-- The PTT file after eight bytes from byte `p` after the read cursor on are decoded. -/
def pttOf (s : State) (p : Nat) : PttFile :=
  { s.ptt with
    wacn := (inputByte s p ++ inputByte s (p + 1) ++ (inputByte s (p + 2)).extractLsb' 4 4).setWidth 32
    sysId := ((inputByte s (p + 2)).extractLsb' 0 4 ++ inputByte s (p + 3)).setWidth 16
    unitId := (inputByte s (p + 4) ++ inputByte s (p + 5) ++ inputByte s (p + 6)).setWidth 32
    prio := inputByte s (p + 7) }

/-- The PTT file after PL.DEC. -/
def inputPtt (s : State) : PttFile :=
  if inputType s = s.cfg.ptStart then { pttOf s (inputPkt s + 4) with present := 1 } else { s.ptt with present := 0 }

/-- Block-header slot i after PL.DEC. -/
def inputBh (s : State) (i : Nat) : BlockHeader :=
  if i < inputBhc s then
    blockHeaderOf (inputByte s (1 + 4 * i)) (inputByte s (2 + 4 * i)) (inputByte s (3 + 4 * i)) (inputByte s (4 + 4 * i))
  else s.bhAt i

/-- Byte `n` of voice block j of the PROGRESS payload at the cursor. -/
def inputVoice (s : State) (j n : Nat) : Byte := inputByte s (inputPkt s + 5 + 14 * j + n)

/-- Voice slot j is `v` after PL.DEC: the fields of block j with no additional data if there is a block j, else as before. -/
def InputSlot (s : State) (j : Nat) (v : VoiceSlot) : Prop :=
  if inputType s = s.cfg.ptProgress ∧ j < inputVbb s then
    ∃ imbe', Laid (s.vbAt j).imbe 0 ((List.range 11).map (fun t => inputVoice s j (1 + t))) imbe' ∧
      v = { voiceSlotOf (inputVoice s j) imbe' (s.vbAt j) with afdLen := 0 }
  else v = s.vbAt j

/-! ### The register map (R34) -/

/-- Every register of the map by its index, with the value it holds. -/
def registers (s : State) : List (Nat × BitVec 32) :=
  [(0x000, 0), (0x001, (s.fault ++ s.code).setWidth 32), (0x002, s.result.setWidth 32),
   (0x003, s.faultCause.setWidth 32), (0x004, s.faultCmd.setWidth 32), (0x005, 0x44460100), (0x006, s.ftLast.setWidth 32),
   (0x008, s.ibLen.setWidth 32), (0x009, s.ibPtr.setWidth 32), (0x00A, s.ibValid.setWidth 32),
   (0x00B, s.obCap.setWidth 32), (0x00C, s.obPtr.setWidth 32), (0x00D, s.obValid.setWidth 32),
   (0x010, s.cd.lco.setWidth 32), (0x011, s.cd.mfId.setWidth 32), (0x012, s.cd.svcOpt.setWidth 32),
   (0x013, s.cd.srcId), (0x014, s.cd.dstId)]
  ++ (List.range 9).map (fun n => (0x015 + n, (s.cd.mi.getD n 0).setWidth 32))
  ++ [(0x01E, s.cd.algId.setWidth 32), (0x01F, s.cd.keyId.setWidth 32), (0x020, s.cd.lsd1.setWidth 32),
   (0x021, s.cd.lsd2.setWidth 32), (0x022, s.cd.rssi.setWidth 32),
   (0x030, s.ptt.present.setWidth 32), (0x031, s.ptt.wacn), (0x032, s.ptt.sysId.setWidth 32), (0x033, s.ptt.unitId),
   (0x034, s.ptt.prio.setWidth 32),
   (0x038, s.hdr.ctlS.setWidth 32), (0x039, s.hdr.ctlC.setWidth 32), (0x03A, s.hdr.bhCnt.setWidth 32),
   (0x03B, s.hdr.pktM.setWidth 32), (0x03C, s.hdr.pktPt.setWidth 32), (0x03D, s.hdr.pktAux),
   (0x03E, s.hdr.frhPresent.setWidth 32), (0x03F, s.hdr.frhVbb.setWidth 32), (0x040, s.hdr.vbCnt.setWidth 32),
   (0x041, s.hdr.pafdLen.setWidth 32)]
  ++ (List.range 4).flatMap (fun i =>
      [(0x050 + 4 * i, (s.bhAt i).e.setWidth 32), (0x051 + 4 * i, (s.bhAt i).bt.setWidth 32),
       (0x052 + 4 * i, (s.bhAt i).tso.setWidth 32), (0x053 + 4 * i, (s.bhAt i).bl.setWidth 32)])
  ++ (List.range 3).flatMap (fun j =>
      [(0x060 + 8 * j, (s.vbAt j).ft.setWidth 32), (0x061 + 8 * j, (s.vbAt j).totErr.setWidth 32),
       (0x062 + 8 * j, (s.vbAt j).mute.setWidth 32), (0x063 + 8 * j, (s.vbAt j).lost.setWidth 32),
       (0x064 + 8 * j, (s.vbAt j).sfc.setWidth 32), (0x065 + 8 * j, (s.vbAt j).afdLen.setWidth 32)])
  ++ [(0x080, s.bp.n.setWidth 32)]
  ++ (List.range 8).map (fun i => (0x090 + i, (s.bp.w.getD i 0).setWidth 32))
  ++ (List.range 8).map (fun i => (0x0A0 + i, s.bp.v.getD i 0))

/-- What a read of an index answers: the register's value, 0 where the map has none (R35). -/
def registerValue (s : State) (index : Nat) : BitVec 32 := ((registers s).lookup index).getD 0

/-- How a host write acts on a register. -/
inductive Access where
  /-- Read-only, write-only or not in the map: the write stores nothing. -/
  | ignored
  /-- The low `w` bits are stored. -/
  | low (w : Nat)
  /-- The value is stored, cut down to a limit. -/
  | clamped (limit : Nat)
deriving DecidableEq, Repr

/-- The access column of R34, with the widths of R21, R25 and R29 to R33. -/
def access (index : Nat) : Access :=
  if index ≤ 0x007 then .ignored
  else if index = 0x00A ∨ index = 0x00D then .low 1
  else if index ≤ 0x00C then .clamped 256
  else if index < 0x010 then .ignored
  else if index = 0x013 ∨ index = 0x014 then .low 32
  else if index = 0x01F then .low 16
  else if index ≤ 0x022 then .low 8
  else if index < 0x030 then .ignored
  else if index = 0x030 then .low 1
  else if index = 0x031 ∨ index = 0x033 then .low 32
  else if index = 0x032 then .low 16
  else if index = 0x034 then .low 8
  else if index < 0x038 then .ignored
  else if index = 0x038 ∨ index = 0x039 ∨ index = 0x03B ∨ index = 0x03E then .low 1
  else if index = 0x03D then .low 32
  else if index ≤ 0x040 then .low 8
  else if index = 0x041 then .clamped 64
  else if index < 0x050 then .ignored
  else if index < 0x060 then
    if index % 4 = 0 then .low 1 else if index % 4 = 1 then .low 8 else .low 16
  else if index < 0x076 then
    if index % 8 = 0 ∨ index % 8 = 1 ∨ index % 8 = 4 then .low 8
    else if index % 8 = 2 ∨ index % 8 = 3 then .low 1
    else if index % 8 = 5 then .clamped 16
    else .ignored
  else if index = 0x080 then .low 8
  else if 0x090 ≤ index ∧ index < 0x098 then .low 8
  else if 0x0A0 ≤ index ∧ index < 0x0A8 then .low 32
  else .ignored

/-- What a register holds after a host write of `v`, `old` before it. -/
def stored (index : Nat) (v old : BitVec 32) : BitVec 32 :=
  match access index with
  | .ignored => old
  | .low w => BitVec.ofNat 32 (v.toNat % 2 ^ w)
  | .clamped limit => BitVec.ofNat 32 (min v.toNat limit)

/-- The lengths of the memories by id (R40); an id above 11 has no byte. -/
def memoryLength (id : Nat) : Nat := [256, 256, 216, 216, 11, 11, 11, 11, 16, 16, 16, 64].getD id 0

/-- The memories by id (R40). -/
def memories (s : State) : List Memory :=
  [s.ib, s.ob, s.ldu1, s.ldu2, s.imbe, (s.vbAt 0).imbe, (s.vbAt 1).imbe, (s.vbAt 2).imbe, (s.vbAt 0).afd,
   (s.vbAt 1).afd, (s.vbAt 2).afd, s.pafd]

/-- What a host read of byte `a` of memory `id` answers (R41). -/
def memoryByte (s : State) (id a : Nat) : Byte :=
  if a < memoryLength id then Memory.read ((memories s).getD id []) a else 0

/-- A host's move, then what is pending. -/
def withMove (a : HostAction) (s : State) : State := { s with host := a :: s.host }

/-! ### Command words (R82, R83) -/

/-- The opcodes of the map (R83). -/
def opcodes : List Nat :=
  [0x00, 0x0F, 0x10, 0x11, 0x20, 0x21, 0x22, 0x30, 0x31, 0x32, 0x33, 0x34, 0x35, 0x36, 0x40, 0x41, 0x42, 0x43, 0x44, 0x45,
   0x46, 0x47, 0x48, 0x49, 0x4A, 0x4B, 0x4C, 0x50, 0x51, 0x52]

/-- Does the operand byte `x` satisfy the form of the opcode `o` (R82, R83)? k is x / 64, j is x / 16 % 4, i is x % 16. -/
def operandFits (o x : Nat) : Prop :=
  if o = 0x20 ∨ o = 0x22 then True
  else if o = 0x42 ∨ o = 0x43 then x < 4
  else if o = 0x4A ∨ o = 0x4B ∨ o = 0x4C then x < 3
  else if o = 0x30 ∨ o = 0x31 ∨ o = 0x33 then x = 0x40 ∨ x = 0x80
  else if o = 0x32 then (x / 64 = 1 ∨ x / 64 = 2) ∧ x / 16 % 4 = 0 ∧ x % 16 ≤ 8
  else if o = 0x36 then (x / 64 = 1 ∨ x / 64 = 2) ∧ x / 16 % 4 < 3 ∧ x % 16 ≤ 8
  else x = 0

/-- The opcode of a command; a sub-frame has none, and stands for the DFSI.DEC that reads it. -/
def opcodeNumber (i : Instr) : Nat :=
  match encode i with
  | .command w => w.toNat / 256
  | .subFrame _ => 0x21

/-- The statuses that the rule of a command lists ("Statuses:", "Faults:"), by opcode (R232). -/
def listedStatuses (o : Nat) : List (BitVec 8) :=
  if o = 0x00 ∨ o = 0x0F ∨ o = 0x32 ∨ o = 0x36 ∨ o = 0x34 ∨ o = 0x4C then [0x00, 0x15, 0xFF]
  else if o = 0x10 ∨ o = 0x51 then [0x00, 0x14, 0x13, 0x15, 0xFF, 0x80]
  else if o = 0x11 then [0x00, 0x11, 0x14, 0x12, 0x15, 0xFF]
  else if o = 0x20 then [0x00, 0x10, 0x13, 0xFF, 0x80]
  else if o = 0x21 then [0x00, 0x11, 0x12, 0x10, 0x15, 0xFF]
  else if o = 0x22 then [0x00, 0x10, 0xFF]
  else if o = 0x30 ∨ o = 0x31 then [0x00, 0x02, 0x11, 0x12, 0x15, 0xFF]
  else if o = 0x35 ∨ o = 0x33 then [0x00, 0x13, 0x15, 0xFF, 0x80, 0x81]
  else if o = 0x4A then [0x00, 0x01, 0x13, 0x15, 0xFF]
  else if o = 0x4B ∨ o = 0x52 then [0x00, 0x11, 0x12, 0x13, 0x15, 0xFF]
  else if o = 0x50 then [0x00, 0x14, 0x15, 0xFF]
  else if o = 0x41 ∨ o = 0x43 ∨ o = 0x45 ∨ o = 0x47 ∨ o = 0x49 then [0x00, 0x11, 0x12, 0x15, 0xFF]
  else [0x00, 0x13, 0x15, 0xFF, 0x80]

end Sys2Proof.Claims

open Sys2Proof Sys2Proof.Machine Sys2Proof.Claims

/-! ### Encoding -/

/-- Decoding the encoding of a well-formed instruction gives it back, for all 48 rows and every operand (R81 to R83, R120 to
R139). -/
def Obligations.DecodeEncodeRoundTrip : Prop := ∀ i : Instr, i.wellFormed = true → decode (encode i) = .ok i

/-- A command word that decodes is the encoding of what it decodes to: no bit of it is dropped, and the instruction is
well-formed. A word decodes exactly when its opcode is in the map (R81, R83). -/
def Obligations.DecodedWordsReencode : Prop :=
  ∀ w : BitVec 16,
    (∀ i, decodeWord w = .ok i → encode i = .command w ∧ i.wellFormed = true)
    ∧ ((∃ i, decodeWord w = .ok i) ↔ w.toNat / 256 ∈ opcodes)

/-- Unnamed bytes of a sub-frame are 0 on encode and ignored on decode (R121, R86): in the encoding of every sub-frame, and
between any two byte strings that agree on all bytes but those. -/
def Obligations.UnnamedBytesAreZeroAndIgnored : Prop :=
  (∀ (v : Instr) (f : List Byte), v.wellFormed = true → encode v = .subFrame f →
    f.length = sfLength (f.getD 0 0).toNat ∧ isFrameType (f.getD 0 0).toNat
    ∧ ∀ n, n ∈ unnamed (f.getD 0 0).toNat → f.getD n 0 = 0)
  ∧ (∀ (f g : List Byte), isFrameType (f.getD 0 0).toNat → sfLength (f.getD 0 0).toNat ≤ f.length →
      f.length = g.length → (∀ n, n ∉ unnamed (f.getD 0 0).toNat → f.getD n 0 = g.getD n 0) →
      decodeSubFrame f = decodeSubFrame g)

/-- Decoding a sub-frame and encoding it again gives its first bytes, as many as its type has, with every unnamed byte 0
(R143 b, which the spec marks derived). -/
def Obligations.DecodeThenEncodeClearsUnnamedBytes : Prop :=
  ∀ (f : List Byte) (v : Instr), decodeSubFrame f = .ok v →
    ∃ g, encode v = .subFrame g ∧ g.length = sfLength (f.getD 0 0).toNat ∧ v.wellFormed = true
      ∧ ∀ n, n < g.length → g.getD n 0 = if n ∈ unnamed (f.getD 0 0).toNat then 0 else f.getD n 0

/-- A byte outside 0x62..0x73 is an invalid discriminant: no sub-frame begins with it, and DFSI.ENC, DFSI.DEC and DFSI.LEN end
with ERR_FRAMETYPE and write nothing else; each of the 18 values begins one (R85). -/
def Obligations.FrameTypesAreTheEighteen : Prop :=
  (∀ ft : Byte, (∃ rest v, decodeSubFrame (ft :: rest) = .ok v) ↔ isFrameType ft.toNat)
  ∧ (∀ (ft : Byte) (s : State), ¬ isFrameType ft.toNat → s.fault = 0 →
      EndsWith (.dfsiLen ft) 0x10#8 s
      ∧ (s.obValid = 1 → EndsWith (.dfsiEnc ft) 0x10#8 s)
      ∧ (s.ibValid = 1 → s.ibPtr.toNat < s.ibLen.toNat → inputByte s 0 = ft → EndsWith (.dfsiDec 0) 0x10#8 s))

/-- Words and sub-frames written out from R90 and the examples of R124, R130 and R136 decode to what they stand for. -/
def Obligations.SampleEncodingsDecode : Prop :=
  decodeWord 0x2064#16 = .ok (.dfsiEnc 0x64) ∧ decodeWord 0x3140#16 = .ok (.lduReasm 1 0 0)
  ∧ decodeWord 0x3284#16 = .ok (.lduGetImbe 2 0 4) ∧ decodeWord 0x3668#16 = .ok (.lduToVb 1 2 8)
  ∧ decodeWord 0x4A02#16 = .ok (.frvEnc 2) ∧ decodeWord 0x5100#16 = .ok (.plEnc 0)
  ∧ decodeSubFrame [0x64, 0x00, 0x90, 0x04, 0x00, 0xA0, 0xA1, 0xA2, 0xA3, 0xA4, 0xA5, 0xA6, 0xA7, 0xA8, 0xA9, 0xAA, 0x00]
      = .ok (.voice3 0x00 0x90 0x04 [0xA0, 0xA1, 0xA2, 0xA3, 0xA4, 0xA5, 0xA6, 0xA7, 0xA8, 0xA9, 0xAA])
  ∧ decodeSubFrame [0x6A, 0xAB, 0xCD, 0x00, 0xA0, 0xA1, 0xA2, 0xA3, 0xA4, 0xA5, 0xA6, 0xA7, 0xA8, 0xA9, 0xAA, 0x00]
      = .ok (.voice9 0xAB 0xCD [0xA0, 0xA1, 0xA2, 0xA3, 0xA4, 0xA5, 0xA6, 0xA7, 0xA8, 0xA9, 0xAA])
  ∧ decodeSubFrame [0x70, 0x80, 0x12, 0x34, 0x00, 0xA0, 0xA1, 0xA2, 0xA3, 0xA4, 0xA5, 0xA6, 0xA7, 0xA8, 0xA9, 0xAA, 0x00]
      = .ok (.voice15 0x80 0x1234 [0xA0, 0xA1, 0xA2, 0xA3, 0xA4, 0xA5, 0xA6, 0xA7, 0xA8, 0xA9, 0xAA])

/-- Every command word has an outcome (R84): under the latch every word but RESET ends REFUSED; else an opcode outside the map
ends ERR_ILLEGAL, and one in the map with an operand that breaks its form ends ERR_OPERAND; nothing but the status
changes and no fault is taken. -/
def Obligations.IllegalAndMalformedWordsOnlyReport : Prop :=
  ∀ (w : BitVec 16) (s : State),
    (s.fault = 1 → w ≠ 0x0F00 → step (withMove (.writeReg 0 (w.setWidth 32)) s) = .next { s with code := 0xFF#8 })
    ∧ (s.fault = 0 → w.toNat / 256 ∉ opcodes →
        step (withMove (.writeReg 0 (w.setWidth 32)) s) = .next { s with code := 0x1F#8 })
    ∧ (s.fault = 0 → w.toNat / 256 ∈ opcodes → ¬ operandFits (w.toNat / 256) (w.toNat % 256) →
        step (withMove (.writeReg 0 (w.setWidth 32)) s) = .next { s with code := 0x15#8 })

/-! ### The step and the invariant -/

/-- A write to CMD runs the instruction that its low 16 bits decode to, on the state with that move taken off the list
(R28, R66), and DFSI.DEC runs the sub-frame that the bytes at the read cursor decode to. `withFetchWord` of a command
word, or of the first byte of a sub-frame, makes the next step run it (log entry 4). -/
def Obligations.StepRunsTheDecodedInstruction : Prop :=
  (∀ (s : State) (v : RegData) (rest : List HostAction) (i : Instr),
    s.host = .writeReg 0 v :: rest → decodeWord (v.setWidth 16) = .ok i → step s = exec i { s with host := rest })
  ∧ (∀ (s : State) (v : Instr), s.fault = 0 → s.ibValid = 1 → decodeSubFrame (inputBytes s 0 (inputLength s)) = .ok v →
      exec (.dfsiDec 0) s = exec v s)
  ∧ (∀ (s : State) (w : Nat) (i : Instr), decodeTableWord 16 w = some i → step (s.withFetchWord 16 w) = exec i s)
  ∧ (∀ (s : State) (w : Nat) (v : Instr), s.fault = 0 → decodeTableWord 8 w = some v →
      step (s.withFetchWord 8 w) = exec v { s.withFetchWord 8 w with host := s.host })

/-- Every instruction in every state ends with a status, and with one that its rule lists (R231, R232). -/
def Obligations.EveryCommandEndsWithAListedStatus : Prop :=
  ∀ (i : Instr) (s : State), ∃ t, exec i s = .next t ∧ t.code ∈ listedStatuses (opcodeNumber i)

/-- Every step of the machine answers a next state: none is stuck, none is refused (R231); and with no move of the host
pending the codec is idle and holds its state (R255; the list of pending moves is the model's own, log entries 1 and 8). -/
def Obligations.EveryStepAnswersNext : Prop :=
  ∀ s : State, (∃ t, step s = .next t) ∧ (s.host = [] → step s = .next s)

/-- The invariant (memories in their form and within their lengths, cursors and lengths within their limits, status
registers that agree, parameters that satisfy R6: R6, R24, R25, R40, R231, R241, R243) is kept by every step from every state that has it. -/
def Obligations.EveryStepKeepsTheInvariant : Prop :=
  ∀ s t : State, s.inv = true → step s = .next t → t.inv = true

/-- The reset state has the invariant. -/
def Obligations.ResetHasTheInvariant : Prop := State.reset.inv = true

/-! ### Reset, the register map and the memories -/

/-- After reset every register reads 0 but the hardwired ID, and every byte of every memory reads 0 (R45). The answers stand on
the read port: that it shows 0 at reset, and zeros above the byte of a memory read, is the model's choice (log entry 2). -/
def Obligations.ResetStateIsZeroButTheId : Prop :=
  (∀ index : BitVec 12, step (withMove (.readReg index) State.reset)
    = .next { State.reset with hRdata := if index = 0x005 then 0x44460100 else 0 })
  ∧ (∀ (id : BitVec 4) (a : BitVec 12), step (withMove (.readMem id a) State.reset) = .next State.reset)
  ∧ (∀ index : Nat, registerValue State.reset index = if index = 0x005 then 0x44460100 else 0)

/-- RESET with operand 0 leaves the reset state whether the latch is set or not; with another operand it is refused under
the latch, and malformed without it (R244). That the pending moves and the read port stay is the model's choice (log entries
1 and 2); the configuration is constant (R43). -/
def Obligations.ResetCommandGivesTheResetState : Prop :=
  ∀ (op : Byte) (s : State),
    encode (.reset op) = .command (0x0F#8 ++ op)
    ∧ (op = 0 → exec (.reset op) s = .next { State.reset with host := s.host, hRdata := s.hRdata, cfg := s.cfg })
    ∧ (op ≠ 0 → s.fault = 1 → EndsWith (.reset op) 0xFF#8 s)
    ∧ (op ≠ 0 → s.fault = 0 → EndsWith (.reset op) 0x15#8 s)

/-- The reset input and the command RESET leave the same state (R260). -/
def Obligations.ResetInputAndResetCommandAgree : Prop :=
  ∀ s : State, step (withMove .resetPin s) = .next { State.reset with host := s.host, hRdata := s.hRdata, cfg := s.cfg }
    ∧ step (withMove (.writeReg 0 0x0F00) s) = step (withMove .resetPin s)

/-- The register map (R34): a read of any index answers the register's value zero-extended; a write stores the low bits up to
the register's width, or the value cut to the limit of a clamped register, and changes no other register and no memory;
after reset a register holds 0, ID its constant. -/
def Obligations.RegisterMap : Prop :=
  ∀ (s : State) (index : BitVec 12) (v : BitVec 32),
    step (withMove (.readReg index) s) = .next { s with hRdata := registerValue s index.toNat }
    ∧ (index ≠ 0 → ∃ t, step (withMove (.writeReg index v) s) = .next t ∧ t.host = s.host ∧ t.hRdata = s.hRdata
        ∧ t.cfg = s.cfg
        ∧ (∀ n, registerValue t n = if n = index.toNat then stored n v (registerValue s n) else registerValue s n)
        ∧ ∀ id a, memoryByte t id a = memoryByte s id a)
    ∧ registerValue State.reset index.toNat = if index = 0x005 then 0x44460100 else 0

/-- A write to a read-only register or to an index that the map does not have changes nothing, and a read has no side effect,
also while the latch is set (R35). -/
def Obligations.IgnoredRegisterWrites : Prop :=
  ∀ (s : State) (index : BitVec 12) (v : BitVec 32), index ≠ 0 → access index.toNat = .ignored →
    step (withMove (.writeReg index v) s) = .next s

/-- The byte memories (R41): a write within a memory changes that byte alone and no register; a write out of range changes
nothing; a read answers the byte, 0 out of range, and changes nothing. That bits 31:8 of the read port are 0 then is the
model's choice (log entry 2). -/
def Obligations.MemoryAccess : Prop :=
  ∀ (s : State) (id : BitVec 4) (a : BitVec 12) (b : Byte),
    step (withMove (.readMem id a) s) = .next { s with hRdata := (memoryByte s id.toNat a.toNat).setWidth 32 }
    ∧ (memoryLength id.toNat ≤ a.toNat → step (withMove (.writeMem id a b) s) = .next s)
    ∧ (a.toNat < memoryLength id.toNat → ∃ t, step (withMove (.writeMem id a b) s) = .next t
        ∧ (∀ id' a', memoryByte t id' a' = if id' = id.toNat ∧ a' = a.toNat then b else memoryByte s id' a')
        ∧ (∀ n, registerValue t n = registerValue s n) ∧ t.host = s.host ∧ t.hRdata = s.hRdata ∧ t.cfg = s.cfg)

/-! ### Statuses, faults and the latch -/

/-- While the latch is set every command word but RESET with operand 0 ends REFUSED with no other change, and the host's
accesses to registers and memories work as without it (R243). R243 speaks of command words: that a sub-frame format is refused
too is the model's reading (log entry 3), and bits 31:8 of the read port after a memory read its choice (log entry 2). -/
def Obligations.LatchRefusesAllButReset : Prop :=
  ∀ s : State, s.fault = 1 →
    (∀ v : BitVec 32, v.setWidth 16 ≠ 0x0F00#16 → step (withMove (.writeReg 0 v) s) = .next { s with code := 0xFF#8 })
    ∧ (∀ i : Instr, i ≠ .reset 0 → EndsWith i 0xFF#8 s)
    ∧ (∀ index : BitVec 12, step (withMove (.readReg index) s) = .next { s with hRdata := registerValue s index.toNat })
    ∧ (∀ (id : BitVec 4) (a : BitVec 12),
        step (withMove (.readMem id a) s) = .next { s with hRdata := (memoryByte s id.toNat a.toNat).setWidth 32 })
    ∧ (∀ (index : BitVec 12) (v : BitVec 32), index ≠ 0 → ∃ t, step (withMove (.writeReg index v) s) = .next t
        ∧ ∀ n, registerValue t n = if n = index.toNat then stored n v (registerValue s n) else registerValue s n)
    ∧ (∀ (id : BitVec 4) (a : BitVec 12) (b : Byte), ∃ t, step (withMove (.writeMem id a b) s) = .next t
        ∧ ∀ id' a', memoryByte t id' a'
            = if id' = id.toNat ∧ a' = a.toNat ∧ a' < memoryLength id' then b else memoryByte s id' a')

/-- Fault entry (R241): whenever an instruction sets the latch, the next state is the state before it with exactly four
writes: the latch, the cause in FAULT_CAUSE and STATUS.CODE, and the command's own word in FAULT_CMD. Under the latch no
instruction but RESET overwrites the record of the first fault. R241 speaks of commands: that the same holds of the sub-frame
formats, which never fault, is the model's reading (log entry 3). -/
def Obligations.FaultEntryIsPrecise : Prop :=
  ∀ (i : Instr) (s t : State), exec i s = .next t →
    (s.fault = 0 → t.fault = 1 →
      ∃ cause word, (cause = 0x80#8 ∨ cause = 0x81#8) ∧ encode i = .command word
        ∧ t = { s with fault := 1, faultCause := cause, faultCmd := word, code := cause })
    ∧ (s.fault = 1 → i ≠ .reset 0 → t.fault = 1 ∧ t.faultCause = s.faultCause ∧ t.faultCmd = s.faultCmd)

/-- Which commands fault and when (R231, R242): FAULT_NULLBUF exactly the encoders but FRV.ENC, BP.PACK, LDU.END and
LDU.COMPOSE, with a fitting operand and OB_VALID = 0; FAULT_OVERFLOW LDU.END alone, when OB_PTR is above 255. -/
def Obligations.FaultsHappenExactlyWhenTheSpecSays : Prop :=
  ∀ (w : BitVec 16) (i : Instr) (s t : State), decodeWord w = .ok i → s.fault = 0 → exec i s = .next t →
    (t.code = 0x80#8 ↔ w.toNat / 256 ∈ [0x10, 0x20, 0x33, 0x35, 0x40, 0x42, 0x44, 0x46, 0x48, 0x51]
      ∧ operandFits (w.toNat / 256) (w.toNat % 256) ∧ s.obValid = 0)
    ∧ (t.code = 0x81#8 ↔ w = 0x3500 ∧ s.obValid = 1 ∧ 255 < s.obPtr.toNat)
    ∧ (t.fault = 1 ↔ t.code = 0x80#8 ∨ t.code = 0x81#8)

/-- A status other than OK that is no fault changes nothing but STATUS.CODE, and DROPPED sets RESULT to 0: an unsuccessful
command has written nothing (R230, R65, R205 e). A sub-frame format's statuses and guards are those of DFSI.DEC, the model's
reading (log entry 3). -/
def Obligations.UnsuccessfulCommandsWriteNothing : Prop :=
  ∀ (i : Instr) (s t : State), exec i s = .next t → t.code ≠ 0x00#8 → t.fault = s.fault →
    t = { s with code := t.code } ∨ (t.code = 0x02#8 ∧ t = { s with code := 0x02#8, result := 0 })

/-- How each command moves the cursors (R224). -/
def Obligations.CursorMovement : Prop :=
  ∀ (i : Instr) (s t : State), exec i s = .next t →
    (t.code ≠ 0x00#8 → t.ibPtr = s.ibPtr ∧ t.obPtr = s.obPtr)
    ∧ (t.code = 0x00#8 →
        match i with
        | .nop _ | .dfsiLen _ | .frvSize _ | .plSize _ | .lduCheck _ _ _ | .lduReasm _ _ _ | .lduGetImbe _ _ _
        | .lduToVb _ _ _ | .lduEnd _ => t.ibPtr = s.ibPtr ∧ t.obPtr = s.obPtr
        | .reset _ => t.ibPtr = 0 ∧ t.obPtr = 0
        | .bpPack _ => t.ibPtr = s.ibPtr ∧ t.obPtr.toNat = s.obPtr.toNat + fieldTotal s.bp / 8
        | .bpUnpack _ => t.ibPtr.toNat = s.ibPtr.toNat + fieldTotal s.bp / 8 ∧ t.obPtr = s.obPtr
        | .dfsiEnc ft => t.ibPtr = s.ibPtr ∧ t.obPtr.toNat = s.obPtr.toNat + sfLength ft.toNat
        | .dfsiDec _ => t.ibPtr.toNat = s.ibPtr.toNat + sfLength (inputByte s 0).toNat ∧ t.obPtr = s.obPtr
        | .lduBegin _ => t.ibPtr = s.ibPtr ∧ t.obPtr = 24
        | .lduCompose _ _ _ => t.ibPtr = s.ibPtr ∧ t.obPtr = 178
        | .ctlEnc _ | .frhEnc _ => t.ibPtr = s.ibPtr ∧ t.obPtr.toNat = s.obPtr.toNat + 1
        | .bhEnc _ | .pktEnc _ => t.ibPtr = s.ibPtr ∧ t.obPtr.toNat = s.obPtr.toNat + 4
        | .pttEnc _ => t.ibPtr = s.ibPtr ∧ t.obPtr.toNat = s.obPtr.toNat + 8
        | .ctlDec _ | .frhDec _ => t.ibPtr.toNat = s.ibPtr.toNat + 1 ∧ t.obPtr = s.obPtr
        | .bhDec _ | .pktDec _ => t.ibPtr.toNat = s.ibPtr.toNat + 4 ∧ t.obPtr = s.obPtr
        | .pttDec _ => t.ibPtr.toNat = s.ibPtr.toNat + 8 ∧ t.obPtr = s.obPtr
        | .frvEnc j => t.ibPtr = s.ibPtr ∧ (t.obPtr.toNat = s.obPtr.toNat + 14
            ∨ t.obPtr.toNat = s.obPtr.toNat + 14 + (s.vbAt j.toNat).afdLen.toNat)
        | .frvDec _ | .plDec _ => t.ibPtr = s.ibLen ∧ t.obPtr = s.obPtr
        | .plEnc _ => t.ibPtr = s.ibPtr ∧ t.obPtr.toNat = s.obPtr.toNat + recordSize s
        | .voice1 _ _ | .voice10 _ _ => t.ibPtr.toNat = s.ibPtr.toNat + 22 ∧ t.obPtr = s.obPtr
        | .voice2 _ | .voice11 _ => t.ibPtr.toNat = s.ibPtr.toNat + 14 ∧ t.obPtr = s.obPtr
        | .voice9 _ _ _ | .voice18 _ _ _ => t.ibPtr.toNat = s.ibPtr.toNat + 16 ∧ t.obPtr = s.obPtr
        | .voice3 _ _ _ _ | .voice4 _ _ | .voice5 _ _ | .voice6 _ | .voice7 _ | .voice8 _ | .voice12 _ _ _ _
        | .voice13 _ _ _ _ | .voice14 _ _ _ _ | .voice15 _ _ _ | .voice16 _ | .voice17 _ =>
          t.ibPtr.toNat = s.ibPtr.toNat + 17 ∧ t.obPtr = s.obPtr)

/-- NOP writes STATUS.CODE only: OK, or what the common checks say (R246). -/
def Obligations.NopWritesOnlyTheStatus : Prop :=
  ∀ (op : Byte) (s : State), Guarded (.nop op) (0x00#8 ++ op) (op = 0) s (EndsWith (.nop op) 0x00#8 s)

/-! ### The bit-packer -/

/-- The laws of Pack and Unpack, for every width list they are defined on (R114): Unpack after Pack gives each value cut to
its width; Pack after Unpack gives the bytes; Pack depends on a value only through its low bits; and packing two groups
of whole bytes is packing each and putting the bytes one after the other. -/
def Obligations.PackAndUnpackLaws : Prop :=
  (∀ fs : List (Nat × Nat), widthsOk (fs.map Prod.fst) →
    (pack fs).length = (fs.map Prod.fst).sum / 8
    ∧ unpack (fs.map Prod.fst) (pack fs) = fs.map (fun f => f.2 % 2 ^ f.1)
    ∧ pack (fs.map (fun f => (f.1, f.2 % 2 ^ f.1))) = pack fs)
  ∧ (∀ (ws : List Nat) (bytes : List Byte), widthsOk ws → bytes.length = ws.sum / 8 →
      pack (ws.zip (unpack ws bytes)) = bytes)
  ∧ (∀ fs gs : List (Nat × Nat), widthsOk (fs.map Prod.fst) → widthsOk (gs.map Prod.fst) →
      widthsOk ((fs ++ gs).map Prod.fst) → pack (fs ++ gs) = pack fs ++ pack gs)

/-- BP.PACK (R112): fault with no target, ERR_MALFORMED for a descriptor that is not well-formed, ERR_CAPACITY without room,
else the T/8 bytes of the fields at the write cursor. -/
def Obligations.BpPackOutcomes : Prop :=
  ∀ (op : Byte) (s : State), Guarded (.bpPack op) (0x10#8 ++ op) (op = 0) s
    ((s.obValid = 0 → Faults (.bpPack op) 0x80#8 0x1000#16 s)
    ∧ (s.obValid = 1 → ¬ descriptorOk s.bp → EndsWith (.bpPack op) 0x14#8 s)
    ∧ (s.obValid = 1 → descriptorOk s.bp → s.obPtr.toNat + fieldTotal s.bp / 8 > s.obCap.toNat →
        EndsWith (.bpPack op) 0x13#8 s)
    ∧ (s.obValid = 1 → descriptorOk s.bp → s.obPtr.toNat + fieldTotal s.bp / 8 ≤ s.obCap.toNat →
        Appends (.bpPack op) (bigEndian (fieldTotal s.bp / 8) (fieldNumber s.bp)) s))

/-- BP.UNPACK (R113): the T/8 bytes at the read cursor, cut into the fields; BP_V beyond BP_N is unchanged. -/
def Obligations.BpUnpackOutcomes : Prop :=
  ∀ (op : Byte) (s : State), Guarded (.bpUnpack op) (0x11#8 ++ op) (op = 0) s
    ((s.ibValid = 0 → EndsWith (.bpUnpack op) 0x11#8 s)
    ∧ (s.ibValid = 1 → ¬ descriptorOk s.bp → EndsWith (.bpUnpack op) 0x14#8 s)
    ∧ (s.ibValid = 1 → descriptorOk s.bp → s.ibPtr.toNat + fieldTotal s.bp / 8 > s.ibLen.toNat →
        EndsWith (.bpUnpack op) 0x12#8 s)
    ∧ (s.ibValid = 1 → descriptorOk s.bp → s.ibPtr.toNat + fieldTotal s.bp / 8 ≤ s.ibLen.toNat →
        ∃ v' : Vector (BitVec 32) 8,
          (∀ i, i < 8 → v'.getD i 0 =
            if i < s.bp.n.toNat then
              BitVec.ofNat 32 (inputNumber s (fieldTotal s.bp / 8) / 2 ^ bitsBelow s.bp i % 2 ^ fieldWidth s.bp i)
            else s.bp.v.getD i 0)
          ∧ exec (.bpUnpack op) s = .next (consumed (fieldTotal s.bp / 8) s { s with bp := { s.bp with v := v' } })))

/-! ### DFSI sub-frames -/

/-- DFSI.ENC ft (R140): fault with no target, ERR_FRAMETYPE for an invalid discriminant, ERR_CAPACITY without room, else the
sub-frame of the call data and memory IMBE at the write cursor, byte by byte (R122 to R139). -/
def Obligations.DfsiEncOutcomes : Prop :=
  ∀ (ft : Byte) (s : State), Guarded (.dfsiEnc ft) (0x20#8 ++ ft) True s
    ((s.obValid = 0 → Faults (.dfsiEnc ft) 0x80#8 (0x20#8 ++ ft) s)
    ∧ (s.obValid = 1 → ¬ isFrameType ft.toNat → EndsWith (.dfsiEnc ft) 0x10#8 s)
    ∧ (s.obValid = 1 → isFrameType ft.toNat → s.obPtr.toNat + sfLength ft.toNat > s.obCap.toNat →
        EndsWith (.dfsiEnc ft) 0x13#8 s)
    ∧ (s.obValid = 1 → isFrameType ft.toNat → s.obPtr.toNat + sfLength ft.toNat ≤ s.obCap.toNat →
        (sfBytes ft.toNat s.cd (memRead s.imbe 0 11)).length = sfLength ft.toNat
        ∧ Appends (.dfsiEnc ft) (sfBytes ft.toNat s.cd (memRead s.imbe 0 11)) s))

/-- DFSI.DEC (R141): ERR_NULL, ERR_SHORT without a discriminant, ERR_FRAMETYPE, ERR_SHORT without the whole sub-frame, else the
registers that the type names, the codeword into IMBE, FT_LAST, the cursor and RESULT. -/
def Obligations.DfsiDecOutcomes : Prop :=
  ∀ (op : Byte) (s : State), Guarded (.dfsiDec op) (0x21#8 ++ op) (op = 0) s
    ((s.ibValid = 0 → EndsWith (.dfsiDec op) 0x11#8 s)
    ∧ (s.ibValid = 1 → s.ibPtr.toNat ≥ s.ibLen.toNat → EndsWith (.dfsiDec op) 0x12#8 s)
    ∧ (s.ibValid = 1 → s.ibPtr.toNat < s.ibLen.toNat → ¬ isFrameType (inputByte s 0).toNat →
        EndsWith (.dfsiDec op) 0x10#8 s)
    ∧ (s.ibValid = 1 → s.ibPtr.toNat < s.ibLen.toNat → isFrameType (inputByte s 0).toNat →
        s.ibPtr.toNat + sfLength (inputByte s 0).toNat > s.ibLen.toNat → EndsWith (.dfsiDec op) 0x12#8 s)
    ∧ (s.ibValid = 1 → isFrameType (inputByte s 0).toNat →
        s.ibPtr.toNat + sfLength (inputByte s 0).toNat ≤ s.ibLen.toNat →
        ∃ imbe', Laid s.imbe 0 (inputBytes s (sfCodeword (inputByte s 0).toNat) 11) imbe' ∧
          exec (.dfsiDec op) s = .next (consumed (sfLength (inputByte s 0).toNat) s
            { s with
              cd := sfMetadata (inputByte s 0).toNat (inputByte s) s.cd, imbe := imbe', ftLast := inputByte s 0 })))

/-- DFSI.LEN ft (R142): the length by frame type, or ERR_FRAMETYPE. -/
def Obligations.DfsiLenOutcomes : Prop :=
  ∀ (ft : Byte) (s : State), Guarded (.dfsiLen ft) (0x22#8 ++ ft) True s
    ((¬ isFrameType ft.toNat → EndsWith (.dfsiLen ft) 0x10#8 s)
    ∧ (isFrameType ft.toNat → exec (.dfsiLen ft) s
        = .next { s with result := BitVec.ofNat 16 (sfLength ft.toNat), code := 0x00#8 }))

/-- VOICE1 to VOICE9: the bytes of each format, and what decoding it writes (R122 to R130, R144). That a format's row has this
meaning of its own, with DFSI.DEC's guards, is the model's reading (log entry 3). -/
def Obligations.Ldu1SubFrames : Prop :=
  ∀ (s : State) (x y z : Byte) (d : BitVec 24) (c : List Byte), c.length = 11 →
    ActsAsSubFrame (.voice1 x c) 0x62 22 ([0x62, 0, 0, 0, 0, 0, x, 0, 0, 0] ++ c ++ [0]) c { s.cd with rssi := x } s
    ∧ ActsAsSubFrame (.voice2 c) 0x63 14 ([0x63] ++ c ++ [0, 0]) c s.cd s
    ∧ ActsAsSubFrame (.voice3 x y z c) 0x64 17 ([0x64, x, y, z, 0] ++ c ++ [0]) c
        { s.cd with lco := x, mfId := y, svcOpt := z } s
    ∧ ActsAsSubFrame (.voice4 d c) 0x65 17
        ([0x65, d.extractLsb' 16 8, d.extractLsb' 8 8, d.extractLsb' 0 8, 0] ++ c ++ [0]) c
        { s.cd with dstId := d.setWidth 32 } s
    ∧ ActsAsSubFrame (.voice5 d c) 0x66 17
        ([0x66, d.extractLsb' 16 8, d.extractLsb' 8 8, d.extractLsb' 0 8, 0] ++ c ++ [0]) c
        { s.cd with srcId := d.setWidth 32 } s
    ∧ ActsAsSubFrame (.voice6 c) 0x67 17 ([0x67, 0, 0, 0, 0] ++ c ++ [0]) c s.cd s
    ∧ ActsAsSubFrame (.voice7 c) 0x68 17 ([0x68, 0, 0, 0, 0] ++ c ++ [0]) c s.cd s
    ∧ ActsAsSubFrame (.voice8 c) 0x69 17 ([0x69, 0, 0, 0, 0] ++ c ++ [0]) c s.cd s
    ∧ ActsAsSubFrame (.voice9 x y c) 0x6A 16 ([0x6A, x, y, 0] ++ c ++ [0]) c { s.cd with lsd1 := x, lsd2 := y } s

/-- VOICE10 to VOICE18: the bytes of each format, and what decoding it writes (R131 to R139, R144; log entry 3). -/
def Obligations.Ldu2SubFrames : Prop :=
  ∀ (s : State) (x y z : Byte) (key : BitVec 16) (c : List Byte), c.length = 11 →
    ActsAsSubFrame (.voice10 x c) 0x6B 22 ([0x6B, 0, 0, 0, 0, 0, x, 0, 0, 0] ++ c ++ [0]) c { s.cd with rssi := x } s
    ∧ ActsAsSubFrame (.voice11 c) 0x6C 14 ([0x6C] ++ c ++ [0, 0]) c s.cd s
    ∧ ActsAsSubFrame (.voice12 x y z c) 0x6D 17 ([0x6D, x, y, z, 0] ++ c ++ [0]) c (withMi 0 x y z s.cd) s
    ∧ ActsAsSubFrame (.voice13 x y z c) 0x6E 17 ([0x6E, x, y, z, 0] ++ c ++ [0]) c (withMi 3 x y z s.cd) s
    ∧ ActsAsSubFrame (.voice14 x y z c) 0x6F 17 ([0x6F, x, y, z, 0] ++ c ++ [0]) c (withMi 6 x y z s.cd) s
    ∧ ActsAsSubFrame (.voice15 x key c) 0x70 17
        ([0x70, x, key.extractLsb' 8 8, key.extractLsb' 0 8, 0] ++ c ++ [0]) c { s.cd with algId := x, keyId := key } s
    ∧ ActsAsSubFrame (.voice16 c) 0x71 17 ([0x71, 0, 0, 0, 0] ++ c ++ [0]) c s.cd s
    ∧ ActsAsSubFrame (.voice17 c) 0x72 17 ([0x72, 0, 0, 0, 0] ++ c ++ [0]) c s.cd s
    ∧ ActsAsSubFrame (.voice18 x y c) 0x73 16 ([0x73, x, y, 0] ++ c ++ [0]) c { s.cd with lsd1 := x, lsd2 := y } s

/-- Round trip of every sub-frame type (R143 a): DFSI.ENC of a valid type with room, its bytes carried to the input of any
ready state, and DFSI.DEC there: the call-data registers of the type have their masked encode-time values and the others
are as they were, IMBE holds the encoder's codeword, FT_LAST is the type. -/
def Obligations.DfsiRoundTrip : Prop :=
  ∀ (ft : Byte) (s : State), isFrameType ft.toNat → s.fault = 0 → s.obValid = 1 →
    s.obPtr.toNat + sfLength ft.toNat ≤ s.obCap.toNat →
    ∃ t, exec (.dfsiEnc ft) s = .next t ∧ ∀ u, Carried s t u →
      ∃ imbe', (∀ x, Memory.read imbe' x = if x < 11 then Memory.read s.imbe x else Memory.read u.imbe x) ∧
        exec (.dfsiDec 0) u = .next (consumed (sfLength ft.toNat) u
          { u with cd := sfCarries ft.toNat s.cd u.cd, imbe := imbe', ftLast := ft })

/-! ### LDU records -/

/-- LDU.CHECK k (R153). -/
def Obligations.LduCheckOutcomes : Prop :=
  ∀ (k j : BitVec 2) (i : BitVec 4) (s : State), Guarded (.lduCheck k j i) (0x30#8 ++ (k ++ j ++ i)) (selectsK k j i) s
    (WithRecord (.lduCheck k j i) s
      ((¬ validAtCursor k s → exec (.lduCheck k j i) s = .next { s with result := 0, code := 0x02#8 })
      ∧ (validAtCursor k s → exec (.lduCheck k j i) s = .next { s with result := 1, code := 0x00#8 })))

/-- LDU.REASM k (R154): DROPPED with the buffer untouched for a record with a wrong marker, else the nine chunks in their
slots of LDU(k), the other bytes of it and the other LDU memory as before. -/
def Obligations.LduReasmOutcomes : Prop :=
  ∀ (k j : BitVec 2) (i : BitVec 4) (s : State), Guarded (.lduReasm k j i) (0x31#8 ++ (k ++ j ++ i)) (selectsK k j i) s
    (WithRecord (.lduReasm k j i) s
      ((¬ validAtCursor k s → exec (.lduReasm k j i) s = .next { s with result := 0, code := 0x02#8 })
      ∧ (validAtCursor k s → ∃ m', Reassembled s (lduBuffer s k) m' ∧
          exec (.lduReasm k j i) s = .next
            (if k = 1 then { s with ldu1 := m', result := 1, code := 0x00#8 }
             else { s with ldu2 := m', result := 1, code := 0x00#8 }))))

/-- LDU.GETIMBE k, i (R155). -/
def Obligations.LduGetImbeOutcomes : Prop :=
  ∀ (k j : BitVec 2) (i : BitVec 4) (s : State),
    Guarded (.lduGetImbe k j i) (0x32#8 ++ (k ++ j ++ i)) ((k = 1 ∨ k = 2) ∧ j = 0 ∧ i.toNat ≤ 8) s
      (∃ m', Laid s.imbe 0 (memRead (lduBuffer s k) (bufferCodeword i.toNat) 11) m' ∧
        exec (.lduGetImbe k j i) s = .next { s with imbe := m', code := 0x00#8 })

/-- LDU.TOVB k, j, i (R159): voice slot j takes the stored discriminant and the codeword of sub-frame i of LDU(k), its other
registers 0. -/
def Obligations.LduToVbOutcomes : Prop :=
  ∀ (k j : BitVec 2) (i : BitVec 4) (s : State),
    Guarded (.lduToVb k j i) (0x36#8 ++ (k ++ j ++ i)) ((k = 1 ∨ k = 2) ∧ j.toNat < 3 ∧ i.toNat ≤ 8) s
      (∃ m', Laid (s.vbAt j.toNat).imbe 0 (memRead (lduBuffer s k) (bufferCodeword i.toNat) 11) m' ∧
        exec (.lduToVb k j i) s = .next { s with
          vb := s.vb.setIfInBounds j.toNat { s.vbAt j.toNat with
            ft := Memory.read (lduBuffer s k) (25 * i.toNat), imbe := m', totErr := 0, mute := 0, lost := 0, sfc := 0,
            afdLen := 0 }
          code := 0x00#8 })

/-- LDU.BEGIN (R156): the write cursor to 24. LDU.END (R157): fault with no target, fault for a count above 255, ERR_CAPACITY
without a byte 23, else the count in byte 23 and RESULT. -/
def Obligations.LduBeginAndEndOutcomes : Prop :=
  ∀ (op : Byte) (s : State),
    Guarded (.lduBegin op) (0x34#8 ++ op) (op = 0) s (exec (.lduBegin op) s = .next { s with obPtr := 24, code := 0x00#8 })
    ∧ Guarded (.lduEnd op) (0x35#8 ++ op) (op = 0) s
        ((s.obValid = 0 → Faults (.lduEnd op) 0x80#8 0x3500#16 s)
        ∧ (s.obValid = 1 → s.obPtr.toNat > 255 → Faults (.lduEnd op) 0x81#8 0x3500#16 s)
        ∧ (s.obValid = 1 → s.obPtr.toNat ≤ 255 → s.obCap.toNat ≤ 23 → EndsWith (.lduEnd op) 0x13#8 s)
        ∧ (s.obValid = 1 → s.obPtr.toNat ≤ 255 → 23 < s.obCap.toNat →
            ∃ ob', Laid s.ob 23 [BitVec.ofNat 8 s.obPtr.toNat] ob' ∧
              exec (.lduEnd op) s = .next { s with ob := ob', result := s.obPtr.setWidth 16, code := 0x00#8 }))

/-- LDU.COMPOSE k (R158): fault with no target, ERR_CAPACITY for fewer than 178 bytes, else the nine sub-frames at OB[24..177],
the length 178 at OB[23], every other byte of OB as before. -/
def Obligations.LduComposeOutcomes : Prop :=
  ∀ (k j : BitVec 2) (i : BitVec 4) (s : State), Guarded (.lduCompose k j i) (0x33#8 ++ (k ++ j ++ i)) (selectsK k j i) s
    ((s.obValid = 0 → Faults (.lduCompose k j i) 0x80#8 (0x33#8 ++ (k ++ j ++ i)) s)
    ∧ (s.obValid = 1 → s.obCap.toNat < 178 → EndsWith (.lduCompose k j i) 0x13#8 s)
    ∧ (s.obValid = 1 → 178 ≤ s.obCap.toNat →
        (composedBytes k s).length = 154 ∧
        ∃ ob', Laid s.ob 23 (178 :: composedBytes k s) ob' ∧
          exec (.lduCompose k j i) s = .next { s with ob := ob', obPtr := 178, result := 178, code := 0x00#8 }))

/-- LDU.COMPOSE k leaves OB, OB_PTR and RESULT as the sequence by hand does, and differs from it only in leaving memory IMBE
unchanged (R158, the equivalence, which the spec marks derived). -/
def Obligations.ComposeEqualsTheSequenceByHand : Prop :=
  ∀ (k : BitVec 2) (s : State), (k = 1 ∨ k = 2) → s.fault = 0 → s.obValid = 1 → 178 ≤ s.obCap.toNat →
    ∃ t u, exec (.lduCompose k 0 0) s = .next t ∧ runAll (composedByHand k) s = .next u
      ∧ (∀ x, Memory.read t.ob x = Memory.read u.ob x) ∧ t = { u with ob := t.ob, imbe := s.imbe }

/-- LDU.CHECK k ends OK exactly when LDU.REASM k from the same state does, and LDU.REASM k changes LDU(k) only if it ends OK
(R160 b, c). -/
def Obligations.CheckAcceptsExactlyWhatReassemblyAccepts : Prop :=
  ∀ (k : BitVec 2) (s : State), s.fault = 0 → (k = 1 ∨ k = 2) →
    ∃ t u, exec (.lduCheck k 0 0) s = .next t ∧ exec (.lduReasm k 0 0) s = .next u
      ∧ t.code = u.code ∧ t.result = u.result ∧ (u.code ≠ 0x00#8 → u = t) ∧ t = { s with code := t.code, result := t.result }

/-- After LDU.REASM k of a valid record, LDU.GETIMBE k, i gives the codeword of sub-frame i of the record, and the stored
discriminant is that of the sub-frame (R160 a). -/
def Obligations.ReassembledCodewordsAreTheRecords : Prop :=
  ∀ (k : BitVec 2) (i : BitVec 4) (s : State), (k = 1 ∨ k = 2) → i.toNat ≤ 8 → s.fault = 0 → s.ibValid = 1 →
    s.ibPtr.toNat + 154 ≤ s.ibLen.toNat → validAtCursor k s →
    ∃ t u, exec (.lduReasm k 0 0) s = .next t ∧ exec (.lduGetImbe k 0 i) t = .next u
      ∧ memRead u.imbe 0 11 = inputBytes s (recordCodeword i.toNat) 11
      ∧ Memory.read (lduBuffer t k) (25 * i.toNat) = BitVec.ofNat 8 (frameTypeAt k i.toNat)

/-- A composed record always passes validation (R160 d): LDU.COMPOSE k, its 154 bytes at the read cursor of any ready state,
and LDU.CHECK k there ends OK with RESULT 1. -/
def Obligations.ComposedRecordsAreAccepted : Prop :=
  ∀ (k : BitVec 2) (s : State), (k = 1 ∨ k = 2) → s.fault = 0 → s.obValid = 1 → 178 ≤ s.obCap.toNat →
    ∃ t, exec (.lduCompose k 0 0) s = .next t ∧
      ∀ u : State, u.fault = 0 → u.ibValid = 1 → u.ibPtr.toNat + 154 ≤ u.ibLen.toNat →
        (∀ n, n < 154 → inputByte u n = Memory.read t.ob (24 + n)) →
        exec (.lduCheck k 0 0) u = .next { u with result := 1, code := 0x00#8 }

/-! ### ISSI sub-blocks -/

/-- CTL.ENC and CTL.DEC (R171, R172): the control octet of CTL_S, CTL_C and BH_CNT. -/
def Obligations.CtlEncAndDecOutcomes : Prop :=
  ∀ (op : Byte) (s : State),
    Guarded (.ctlEnc op) (0x40#8 ++ op) (op = 0) s (EncodesFixed (.ctlEnc op) 0x4000#16 (wireCtl s.hdr) s)
    ∧ Guarded (.ctlDec op) (0x41#8 ++ op) (op = 0) s (DecodesFixed (.ctlDec op) 1 s
        { s with hdr := { s.hdr with
          ctlS := (inputByte s 0).extractLsb' 7 1, ctlC := (inputByte s 0).extractLsb' 6 1
          bhCnt := ((inputByte s 0).extractLsb' 0 6).setWidth 8 } })

/-- BH.ENC i and BH.DEC i (R174, R175): the four bytes of block-header slot i. -/
def Obligations.BhEncAndDecOutcomes : Prop :=
  ∀ (i : Byte) (s : State),
    Guarded (.bhEnc i) (0x42#8 ++ i) (i.toNat < 4) s (EncodesFixed (.bhEnc i) (0x42#8 ++ i) (wireBh (s.bhAt i.toNat)) s)
    ∧ Guarded (.bhDec i) (0x43#8 ++ i) (i.toNat < 4) s (DecodesFixed (.bhDec i) 4 s
        { s with
          bh := s.bh.setIfInBounds i.toNat
            (blockHeaderOf (inputByte s 0) (inputByte s 1) (inputByte s 2) (inputByte s 3)) })

/-- PKT.ENC and PKT.DEC (R177, R178): the packet-type block of PKT_M, PKT_PT and PKT_AUX. -/
def Obligations.PktEncAndDecOutcomes : Prop :=
  ∀ (op : Byte) (s : State),
    Guarded (.pktEnc op) (0x44#8 ++ op) (op = 0) s (EncodesFixed (.pktEnc op) 0x4400#16 (wirePkt s.hdr) s)
    ∧ Guarded (.pktDec op) (0x45#8 ++ op) (op = 0) s (DecodesFixed (.pktDec op) 4 s
        { s with hdr := { s.hdr with
          pktM := (inputByte s 0).extractLsb' 7 1, pktPt := ((inputByte s 0).extractLsb' 0 7).setWidth 8
          pktAux := (inputByte s 1 ++ inputByte s 2 ++ inputByte s 3).setWidth 32 } })

/-- PTT.ENC and PTT.DEC (R180, R181): the PTT control block; PTT_PRESENT is not in it and not written. -/
def Obligations.PttEncAndDecOutcomes : Prop :=
  ∀ (op : Byte) (s : State),
    Guarded (.pttEnc op) (0x46#8 ++ op) (op = 0) s (EncodesFixed (.pttEnc op) 0x4600#16 (wirePtt s.ptt) s)
    ∧ Guarded (.pttDec op) (0x47#8 ++ op) (op = 0) s (DecodesFixed (.pttDec op) 8 s { s with ptt := pttOf s 0 })

/-- FRH.ENC and FRH.DEC (R183, R184): the bundling count is the one byte. -/
def Obligations.FrhEncAndDecOutcomes : Prop :=
  ∀ (op : Byte) (s : State),
    Guarded (.frhEnc op) (0x48#8 ++ op) (op = 0) s (EncodesFixed (.frhEnc op) 0x4800#16 [s.hdr.frhVbb] s)
    ∧ Guarded (.frhDec op) (0x49#8 ++ op) (op = 0) s
        (DecodesFixed (.frhDec op) 1 s { s with hdr := { s.hdr with frhVbb := inputByte s 0 } })

/-- FRV.ENC j (R186): NOP_NULL with no target, ERR_CAPACITY for fewer than 14 bytes of room, else the 14 fixed bytes, and the
additional frame data after them if there is some and room for all of it. -/
def Obligations.FrvEncOutcomes : Prop :=
  ∀ (j : Byte) (s : State), Guarded (.frvEnc j) (0x4A#8 ++ j) (j.toNat < 3) s
    ((s.obValid = 0 → EndsWith (.frvEnc j) 0x01#8 s)
    ∧ (s.obValid = 1 → s.obCap.toNat < s.obPtr.toNat + 14 → EndsWith (.frvEnc j) 0x13#8 s)
    ∧ (s.obValid = 1 → s.obPtr.toNat + 14 ≤ s.obCap.toNat →
        s.obCap.toNat < s.obPtr.toNat + 14 + (s.vbAt j.toNat).afdLen.toNat →
        Appends (.frvEnc j) (wireVoice (s.vbAt j.toNat)) s)
    ∧ (s.obValid = 1 → s.obPtr.toNat + 14 + (s.vbAt j.toNat).afdLen.toNat ≤ s.obCap.toNat →
        Appends (.frvEnc j)
          (wireVoice (s.vbAt j.toNat) ++ memRead (s.vbAt j.toNat).afd 0 (s.vbAt j.toNat).afdLen.toNat) s))

/-- FRV.DEC j (R187): ERR_NULL, ERR_SHORT for fewer than 14 bytes, ERR_CAPACITY for more than 30, else slot j from all the bytes
between the read cursor and IB_LEN. -/
def Obligations.FrvDecOutcomes : Prop :=
  ∀ (j : Byte) (s : State), Guarded (.frvDec j) (0x4B#8 ++ j) (j.toNat < 3) s
    ((s.ibValid = 0 → EndsWith (.frvDec j) 0x11#8 s)
    ∧ (s.ibValid = 1 → inputLength s < 14 → EndsWith (.frvDec j) 0x12#8 s)
    ∧ (s.ibValid = 1 → inputLength s > 30 → EndsWith (.frvDec j) 0x13#8 s)
    ∧ (s.ibValid = 1 → 14 ≤ inputLength s → inputLength s ≤ 30 →
        ∃ imbe' afd', Laid (s.vbAt j.toNat).imbe 0 (inputBytes s 1 11) imbe'
          ∧ Laid (s.vbAt j.toNat).afd 0 (inputBytes s 14 (inputLength s - 14)) afd'
          ∧ exec (.frvDec j) s = .next { s with
              vb := s.vb.setIfInBounds j.toNat
                { voiceSlotOf (inputByte s) imbe' (s.vbAt j.toNat) with
                  afdLen := BitVec.ofNat 8 (inputLength s - 14), afd := afd' }
              ibPtr := s.ibLen, result := BitVec.ofNat 16 (inputLength s), code := 0x00#8 }))

/-- FRV.SIZE j (R188). -/
def Obligations.FrvSizeOutcomes : Prop :=
  ∀ (j : Byte) (s : State), Guarded (.frvSize j) (0x4C#8 ++ j) (j.toNat < 3) s
    (exec (.frvSize j) s
      = .next { s with result := BitVec.ofNat 16 (14 + (s.vbAt j.toNat).afdLen.toNat), code := 0x00#8 })

/-- Decoding what the encoder wrote restores every register of the record to its value cut to the wire width, for CTL, BH, PKT,
PTT and FRH (R189 a). -/
def Obligations.FixedBlocksDecodeWhatWasEncoded : Prop :=
  ∀ (s t u : State) (i k : Byte), s.fault = 0 → t.code = 0x00#8 → Carried s t u →
    (exec (.ctlEnc 0) s = .next t → exec (.ctlDec 0) u = .next (consumed 1 u { u with hdr := { u.hdr with
        ctlS := s.hdr.ctlS, ctlC := s.hdr.ctlC, bhCnt := s.hdr.bhCnt &&& 0x3F } }))
    ∧ (i.toNat < 4 → k.toNat < 4 → exec (.bhEnc i) s = .next t →
        exec (.bhDec k) u = .next (consumed 4 u { u with
          bh := u.bh.setIfInBounds k.toNat
            { e := (s.bhAt i.toNat).e, bt := (s.bhAt i.toNat).bt &&& 0x7F, tso := (s.bhAt i.toNat).tso &&& 0x3FFF,
              bl := (s.bhAt i.toNat).bl &&& 0x3FF } }))
    ∧ (exec (.pktEnc 0) s = .next t → exec (.pktDec 0) u = .next (consumed 4 u { u with hdr := { u.hdr with
        pktM := s.hdr.pktM, pktPt := s.hdr.pktPt &&& 0x7F, pktAux := s.hdr.pktAux &&& 0xFFFFFF } }))
    ∧ (exec (.pttEnc 0) s = .next t → exec (.pttDec 0) u = .next (consumed 8 u { u with ptt := { u.ptt with
        wacn := s.ptt.wacn &&& 0xFFFFF, sysId := s.ptt.sysId &&& 0xFFF, unitId := s.ptt.unitId &&& 0xFFFFFF
        prio := s.ptt.prio } }))
    ∧ (exec (.frhEnc 0) s = .next t → exec (.frhDec 0) u = .next (consumed 1 u { u with hdr := { u.hdr with
        frhVbb := s.hdr.frhVbb } }))

/-- Encoding after decoding reproduces the bytes, for CTL, BH, PKT, PTT and FRH (R189 b): every bit of these records is a
field. -/
def Obligations.FixedBlocksEncodeWhatWasDecoded : Prop :=
  ∀ (s t u : State) (i : Byte), s.fault = 0 → t.code = 0x00#8 → s.obValid = 1 →
    (∀ (dec enc : Instr), (dec, enc) ∈ [(Instr.ctlDec 0, Instr.ctlEnc 0), (.bhDec i, .bhEnc i), (.pktDec 0, .pktEnc 0),
        (.pttDec 0, .pttEnc 0), (.frhDec 0, .frhEnc 0)] →
      exec dec s = .next t → exec enc t = .next u → u.code = 0x00#8 →
      u.result = t.result ∧ Laid s.ob s.obPtr.toNat (inputBytes s 0 t.result.toNat) u.ob)

/-- A voice block survives FRV.ENC with room for all of it and FRV.DEC of exactly those bytes, whatever the two slots, and the
encoder's RESULT is what FRV.SIZE answers (R189 c, e). -/
def Obligations.VoiceBlockRoundTrip : Prop :=
  ∀ (j l : Byte) (s : State), s.fault = 0 → j.toNat < 3 → l.toNat < 3 → s.obValid = 1 →
    (s.vbAt j.toNat).afdLen.toNat ≤ 16 → s.obPtr.toNat + 14 + (s.vbAt j.toNat).afdLen.toNat ≤ s.obCap.toNat →
    ∃ t size, exec (.frvEnc j) s = .next t ∧ exec (.frvSize j) s = .next size ∧ size.result = t.result ∧
      ∀ u, Carried s t u → inputLength u = t.result.toNat →
        ∃ v, exec (.frvDec l) u = .next v
          ∧ (v.vbAt l.toNat).ft = (s.vbAt j.toNat).ft
          ∧ (v.vbAt l.toNat).totErr = (s.vbAt j.toNat).totErr &&& 7
          ∧ (v.vbAt l.toNat).mute = (s.vbAt j.toNat).mute ∧ (v.vbAt l.toNat).lost = (s.vbAt j.toNat).lost
          ∧ (v.vbAt l.toNat).sfc = (s.vbAt j.toNat).sfc &&& 3
          ∧ (v.vbAt l.toNat).afdLen = (s.vbAt j.toNat).afdLen
          ∧ memRead (v.vbAt l.toNat).imbe 0 11 = memRead (s.vbAt j.toNat).imbe 0 11
          ∧ memRead (v.vbAt l.toNat).afd 0 (s.vbAt j.toNat).afdLen.toNat
              = memRead (s.vbAt j.toNat).afd 0 (s.vbAt j.toNat).afdLen.toNat

/-! ### The payload -/

/-- PL.SIZE (R201): ERR_MALFORMED for a record that is not bounded, else the sum by presence. -/
def Obligations.PlSizeOutcomes : Prop :=
  ∀ (op : Byte) (s : State), Guarded (.plSize op) (0x50#8 ++ op) (op = 0) s
    ((¬ recordBounded s → EndsWith (.plSize op) 0x14#8 s)
    ∧ (recordBounded s → exec (.plSize op) s = .next { s with result := BitVec.ofNat 16 (recordSize s), code := 0x00#8 }))

/-- PL.ENC (R203): fault with no target, ERR_MALFORMED for a record that is not well-formed, ERR_CAPACITY without room for the
whole payload, else its bytes at the write cursor, as many as the sum of R201. -/
def Obligations.PlEncOutcomes : Prop :=
  ∀ (op : Byte) (s : State), Guarded (.plEnc op) (0x51#8 ++ op) (op = 0) s
    ((s.obValid = 0 → Faults (.plEnc op) 0x80#8 0x5100#16 s)
    ∧ (s.obValid = 1 → ¬ recordOk s → EndsWith (.plEnc op) 0x14#8 s)
    ∧ (s.obValid = 1 → recordOk s → s.obPtr.toNat + recordSize s > s.obCap.toNat → EndsWith (.plEnc op) 0x13#8 s)
    ∧ (s.obValid = 1 → recordOk s → s.obPtr.toNat + recordSize s ≤ s.obCap.toNat →
        (recordBytes s).length = recordSize s ∧ Appends (.plEnc op) (recordBytes s) s))

/-- PL.ENC of a well-formed record with room writes exactly as many bytes as PL.SIZE reports (R202). -/
def Obligations.SizeIsWhatEncodeWrites : Prop :=
  ∀ s : State, s.fault = 0 → s.obValid = 1 → recordOk s → s.obPtr.toNat + recordSize s ≤ s.obCap.toNat →
    ∃ t u, exec (.plSize 0) s = .next t ∧ exec (.plEnc 0) s = .next u ∧ u.result = t.result
      ∧ u.obPtr.toNat = s.obPtr.toNat + t.result.toNat
      ∧ ∀ x, x < s.obPtr.toNat ∨ s.obPtr.toNat + t.result.toNat ≤ x → Memory.read u.ob x = Memory.read s.ob x

/-- The OPEN parameters of R6, whatever their values: no step changes them (R43: the record is constant), and no instruction
but PL.ENC and PL.DEC acts by them, these two by the packet types alone (D16: "the codec never compares" the block type tags).
The field of State that carries them is the model's own (log entry 5). -/
def Obligations.ConfigurationIsConstantAndReadByThePayloadCommands : Prop :=
  (∀ s t : State, step s = .next t → t.cfg = s.cfg)
  ∧ (∀ (i : Instr) (s t : State) (o : Config.OpenParams), exec i s = .next t →
      (∀ op, i ≠ .plEnc op ∧ i ≠ .plDec op) ∨ (o.ptStart = s.cfg.ptStart ∧ o.ptProgress = s.cfg.ptProgress) →
      exec i { s with cfg := o } = .next { t with cfg := o })

/-- PL.DEC (R204), for every configuration that R6 admits: its tests in wire order, each with its status and nothing written;
else the whole record. -/
def Obligations.PlDecOutcomes : Prop :=
  ∀ (op : Byte) (s : State), s.params.constraintsHold = true → Guarded (.plDec op) (0x52#8 ++ op) (op = 0) s
    ((s.ibValid = 0 → EndsWith (.plDec op) 0x11#8 s)
    ∧ (s.ibValid = 1 → inputStatus s ≠ 0x00#8 → EndsWith (.plDec op) (inputStatus s) s)
    ∧ (s.ibValid = 1 → inputStatus s = 0x00#8 →
        ∃ (bh' : Vector BlockHeader 4) (vb' : Vector VoiceSlot 3) (pafd' : Memory),
          (∀ i, i < 4 → bh'.getD i BlockHeader.reset = inputBh s i)
          ∧ (∀ j, j < 3 → InputSlot s j (vb'.getD j VoiceSlot.reset))
          ∧ Laid s.pafd 0 (inputBytes s (inputRest s) (inputLength s - inputRest s)) pafd'
          ∧ exec (.plDec op) s = .next { s with
              hdr := inputHeader s, ptt := inputPtt s, bh := bh', vb := vb', pafd := pafd'
              ibPtr := s.ibLen, result := BitVec.ofNat 16 (inputLength s), code := 0x00#8 }))

/-- A payload that decodes leaves a well-formed record, and if the reserved bits of its voice blocks are 0, PL.ENC of the
decoded record writes the same bytes (R204, R205 d), for every configuration that R6 admits. -/
def Obligations.DecodedPayloadsEncodeBack : Prop :=
  ∀ s t : State, s.params.constraintsHold = true → s.fault = 0 → exec (.plDec 0) s = .next t → t.code = 0x00#8 →
    recordOk t ∧
    ((inputType s = s.cfg.ptProgress → ∀ j, j < inputVbb s → (inputVoice s j 12).extractLsb' 2 3 = 0 ∧ (inputVoice s j 13) &&& 0xF3 = 0) →
      s.obValid = 1 → s.obPtr.toNat + inputLength s ≤ s.obCap.toNat →
      Appends (.plEnc 0) (inputBytes s 0 (inputLength s)) t)
end

