-- ==== Sys2Proof/Laws/BitPack.lean ====
section
/-! SUPPORT. The arithmetic of the bit-packer (40_bitpack.md R110, R111) without shifts: `Pack` as a sum, `Unpack` as
quotients, and what follows for reading back what was written. -/

namespace Sys2Proof.Machine

/-- The sum that `Pack` forms from `acc` on: each field, cut to its width, below the ones before it. -/
def fieldSum (acc : Nat) (fs : List (Nat × Nat)) : Nat := fs.foldl (fun acc f => acc * 2 ^ f.1 + f.2 % 2 ^ f.1) acc

@[simp] theorem fieldSum_nil (acc : Nat) : fieldSum acc [] = acc := rfl

@[simp] theorem fieldSum_cons (acc w v : Nat) (fs : List (Nat × Nat)) :
    fieldSum acc ((w, v) :: fs) = fieldSum (acc * 2 ^ w + v % 2 ^ w) fs := rfl

theorem and_mask (v w : Nat) : v &&& mask w = v % 2 ^ w := Nat.and_two_pow_sub_one_eq_mod v w

/-- One step of the accumulator of R110. -/
theorem accumulate (acc w v : Nat) : (acc <<< w) ||| (v &&& mask w) = acc * 2 ^ w + v % 2 ^ w := by
  rw [and_mask, ← Nat.shiftLeft_add_eq_or_of_lt (Nat.mod_lt _ (Nat.two_pow_pos w)), Nat.shiftLeft_eq]

theorem packAcc_eq (acc : Nat) (fs : List (Nat × Nat)) : packAcc acc fs = fieldSum acc fs := by
  induction fs generalizing acc with
  | nil => rfl
  | cons f fs ih => obtain ⟨w, v⟩ := f; rw [packAcc, accumulate, ih, fieldSum_cons]

@[simp] theorem totalWidth_nil : totalWidth [] = 0 := rfl
@[simp] theorem totalWidth_cons (w : Nat) (ws : List Nat) : totalWidth (w :: ws) = w + totalWidth ws := rfl

theorem totalWidth_append (us ws : List Nat) : totalWidth (us ++ ws) = totalWidth us + totalWidth ws := by
  induction us with
  | nil => simp
  | cons u us ih => simp [ih, Nat.add_assoc]

/-- What is accumulated already stands above all the fields still to come. -/
theorem fieldSum_eq (acc : Nat) (fs : List (Nat × Nat)) :
    fieldSum acc fs = acc * 2 ^ totalWidth (fs.map Prod.fst) + fieldSum 0 fs := by
  induction fs generalizing acc with
  | nil => simp
  | cons f fs ih =>
    obtain ⟨w, v⟩ := f
    simp only [fieldSum_cons, List.map_cons, totalWidth_cons]
    rw [ih, ih (0 * 2 ^ w + v % 2 ^ w), Nat.pow_add]
    ring

theorem fieldSum_lt (fs : List (Nat × Nat)) : fieldSum 0 fs < 2 ^ totalWidth (fs.map Prod.fst) := by
  induction fs with
  | nil => simp
  | cons f fs ih =>
    obtain ⟨w, v⟩ := f
    simp only [fieldSum_cons, List.map_cons, totalWidth_cons]
    rw [fieldSum_eq, Nat.pow_add]
    have h : v % 2 ^ w < 2 ^ w := Nat.mod_lt _ (Nat.two_pow_pos w)
    nlinarith [Nat.two_pow_pos (totalWidth (fs.map Prod.fst))]

/-! ### Bytes and numbers -/

@[simp] theorem length_bytesOfNat (n a : Nat) : (bytesOfNat n a).length = n := by simp [bytesOfNat]

@[simp] theorem length_pack (fs : List (Nat × Nat)) : (pack fs).length = totalWidth (fs.map Prod.fst) / 8 := by
  simp [pack]

theorem getD_bytesOfNat (n a t : Nat) (h : t < n) :
    (bytesOfNat n a).getD t 0 = BitVec.ofNat 8 (a / 256 ^ (n - 1 - t)) := by
  rw [List.getD_eq_getElem _ _ (by simpa using h)]
  simp only [bytesOfNat, List.getElem_map, List.getElem_range, Nat.shiftRight_eq_div_pow]
  rw [show 8 * (n - (t + 1)) = 8 * (n - 1 - t) by omega, Nat.pow_mul]

/-- The number that bytes stand for, the first most significant. -/
def byteSum (acc : Nat) (bs : List Byte) : Nat := bs.foldl (fun acc b => acc * 256 + b.toNat) acc

@[simp] theorem byteSum_nil (acc : Nat) : byteSum acc [] = acc := rfl
@[simp] theorem byteSum_cons (acc : Nat) (b : Byte) (bs : List Byte) :
    byteSum acc (b :: bs) = byteSum (acc * 256 + b.toNat) bs := rfl

theorem natOfBytes_eq (bs : List Byte) : natOfBytes bs = byteSum 0 bs := by
  have step : ∀ (acc : Nat) (b : Byte), (acc <<< 8) ||| b.toNat = acc * 256 + b.toNat := fun acc b => by
    rw [← Nat.shiftLeft_add_eq_or_of_lt (by simpa using b.isLt), Nat.shiftLeft_eq]
  simp only [natOfBytes, byteSum, step]

theorem byteSum_eq (acc : Nat) (bs : List Byte) : byteSum acc bs = acc * 256 ^ bs.length + byteSum 0 bs := by
  induction bs generalizing acc with
  | nil => simp
  | cons b bs ih =>
    simp only [byteSum_cons, List.length_cons]
    rw [ih, ih (0 * 256 + b.toNat), Nat.pow_succ]
    ring

theorem byteSum_lt (bs : List Byte) : byteSum 0 bs < 256 ^ bs.length := by
  induction bs with
  | nil => simp
  | cons b bs ih =>
    simp only [byteSum_cons, List.length_cons]
    rw [byteSum_eq, Nat.pow_succ]
    have := b.isLt
    nlinarith [Nat.pow_pos (n := bs.length) (show 0 < 256 by decide)]

/-- The bytes of a number, its top part and its low part. -/
theorem bytesOfNat_succ (n a : Nat) : bytesOfNat (n + 1) a = BitVec.ofNat 8 (a / 256 ^ n) :: bytesOfNat n a := by
  simp only [bytesOfNat, List.range_succ_eq_map, List.map_cons, List.map_map]
  congr 1
  · simp [Nat.shiftRight_eq_div_pow, Nat.pow_mul]
  · apply List.map_congr_left
    intro t _
    simp only [Function.comp_apply]
    rw [show n + 1 - (t.succ + 1) = n - (t + 1) by omega]

theorem byteSum_bytesOfNat (n a : Nat) : byteSum 0 (bytesOfNat n a) = a % 256 ^ n := by
  induction n with
  | zero => simp [bytesOfNat, Nat.mod_one]
  | succ n ih =>
    rw [bytesOfNat_succ, byteSum_cons, byteSum_eq, ih, length_bytesOfNat, BitVec.toNat_ofNat, Nat.zero_mul,
      Nat.zero_add, Nat.pow_succ 256 n, Nat.mod_mul, Nat.add_comm, Nat.mul_comm]

theorem bytesOfNat_byteSum (bs : List Byte) (a : Nat) :
    bytesOfNat bs.length (a * 256 ^ bs.length + byteSum 0 bs) = bs := by
  induction bs generalizing a with
  | nil => rfl
  | cons b bs ih =>
    have hlt := byteSum_lt bs
    have hb := b.isLt
    rw [List.length_cons, bytesOfNat_succ, byteSum_cons, byteSum_eq (0 * 256 + b.toNat), Nat.zero_mul, Nat.zero_add,
      show a * 256 ^ (bs.length + 1) + (b.toNat * 256 ^ bs.length + byteSum 0 bs)
        = (a * 256 + b.toNat) * 256 ^ bs.length + byteSum 0 bs by rw [Nat.pow_succ]; ring, ih]
    congr 1
    rw [Nat.add_comm, Nat.add_mul_div_right _ _ (Nat.pow_pos (by decide)), Nat.div_eq_of_lt hlt, Nat.zero_add]
    apply BitVec.eq_of_toNat_eq
    rw [BitVec.toNat_ofNat]
    omega

theorem bytesOfNat_natOfBytes (bs : List Byte) : bytesOfNat bs.length (natOfBytes bs) = bs := by
  have := bytesOfNat_byteSum bs 0
  rwa [Nat.zero_mul, Nat.zero_add, ← natOfBytes_eq] at this

theorem bytesOfNat_add (m n a b : Nat) (hb : b < 256 ^ n) :
    bytesOfNat (m + n) (a * 256 ^ n + b) = bytesOfNat m a ++ bytesOfNat n b := by
  induction m generalizing b with
  | zero =>
    simp only [Nat.zero_add]
    rw [show bytesOfNat 0 a = [] from rfl, List.nil_append]
    apply List.ext_getElem (by simp)
    intro t h1 h2
    have ht : t < n := by simpa using h1
    rw [← List.getD_eq_getElem _ 0 h1, ← List.getD_eq_getElem _ 0 h2, getD_bytesOfNat _ _ _ ht, getD_bytesOfNat _ _ _ ht]
    apply BitVec.eq_of_toNat_eq
    simp only [BitVec.toNat_ofNat]
    obtain ⟨k, hk⟩ : ∃ k, n = (n - 1 - t) + (k + 1) := ⟨t, by omega⟩
    generalize n - 1 - t = e at hk
    subst hk
    rw [show a * 256 ^ (e + (k + 1)) + b = b + 256 ^ e * (a * 256 ^ k * 256) by rw [Nat.pow_add, Nat.pow_succ]; ring,
      Nat.add_mul_div_left _ _ (Nat.pow_pos (by decide))]
    omega
  | succ m ih =>
    rw [show m + 1 + n = (m + n) + 1 by omega, bytesOfNat_succ, bytesOfNat_succ, ih b hb, List.cons_append]
    congr 2
    rw [show m + n = n + m by omega, Nat.pow_add, ← Nat.div_div_eq_div_mul, Nat.add_comm,
      Nat.add_mul_div_right _ _ (Nat.pow_pos (by decide)), Nat.div_eq_of_lt hb, Nat.zero_add]

/-! ### Unpack -/

@[simp] theorem unpackFrom_nil (acc s : Nat) : unpackFrom acc s [] = [] := rfl

theorem unpackFrom_cons (acc s w : Nat) (ws : List Nat) :
    unpackFrom acc s (w :: ws) = acc / 2 ^ (s - w) % 2 ^ w :: unpackFrom acc (s - w) ws := by
  rw [unpackFrom, and_mask, Nat.shiftRight_eq_div_pow]

@[simp] theorem length_unpackFrom (acc s : Nat) (ws : List Nat) : (unpackFrom acc s ws).length = ws.length := by
  induction ws generalizing s with
  | nil => rfl
  | cons w ws ih => simp [unpackFrom, ih]

@[simp] theorem length_unpack (ws : List Nat) (bs : List Byte) : (unpack ws bs).length = ws.length := by simp [unpack]

/-- Field `i` that `Unpack` answers: the quotient by what stands below it, cut to its width. -/
theorem getD_unpackFrom (acc s : Nat) (ws : List Nat) (i : Nat) (h : i < ws.length) :
    (unpackFrom acc s ws).getD i 0
      = acc / 2 ^ (s - totalWidth (ws.take (i + 1))) % 2 ^ ws.getD i 0 := by
  induction ws generalizing s i with
  | nil => simp at h
  | cons w ws ih =>
    rw [unpackFrom_cons]
    cases i with
    | zero => simp [totalWidth]
    | succ i =>
      rw [List.getD_cons_succ, List.getD_cons_succ, ih _ _ (by simpa using h), List.take_succ_cons, totalWidth_cons]
      congr 3
      omega

theorem unpackFrom_fieldSum (a : Nat) (fs : List (Nat × Nat)) :
    unpackFrom (fieldSum a fs) (totalWidth (fs.map Prod.fst)) (fs.map Prod.fst)
      = fs.map (fun f => f.2 % 2 ^ f.1) := by
  induction fs generalizing a with
  | nil => rfl
  | cons f fs ih =>
    obtain ⟨w, v⟩ := f
    simp only [List.map_cons, totalWidth_cons, unpackFrom_cons, fieldSum_cons, Nat.add_sub_cancel_left, ih]
    congr 1
    rw [fieldSum_eq, Nat.add_comm, Nat.add_mul_div_right _ _ (Nat.two_pow_pos _), Nat.div_eq_of_lt (fieldSum_lt fs),
      Nat.zero_add, Nat.add_comm, Nat.add_mul_mod_self_right, Nat.mod_mod]

/-- Reading the fields of a packed record gives each value cut to its width (R114 a). -/
theorem unpack_pack (fs : List (Nat × Nat)) (h : totalWidth (fs.map Prod.fst) % 8 = 0) :
    unpack (fs.map Prod.fst) (pack fs) = fs.map (fun f => f.2 % 2 ^ f.1) := by
  rw [unpack, pack, natOfBytes_eq, byteSum_bytesOfNat, packAcc_eq]
  rw [Nat.mod_eq_of_lt, unpackFrom_fieldSum]
  have := fieldSum_lt fs
  rwa [show (256 : Nat) = 2 ^ 8 from rfl, ← Nat.pow_mul, Nat.mul_div_cancel' (Nat.dvd_of_mod_eq_zero h)]

theorem fieldSum_unpackFrom (a x : Nat) (ws : List Nat) :
    fieldSum a (ws.zip (unpackFrom x (totalWidth ws) ws)) = a * 2 ^ totalWidth ws + x % 2 ^ totalWidth ws := by
  induction ws generalizing a with
  | nil => simp [Nat.mod_one]
  | cons w ws ih =>
    rw [unpackFrom_cons, totalWidth_cons, Nat.add_sub_cancel_left, List.zip_cons_cons, fieldSum_cons, ih, Nat.mod_mod,
      Nat.add_comm w, Nat.pow_add, Nat.mod_mul]
    ring

/-- Packing the fields read from bytes gives the bytes (R114 b). -/
theorem pack_unpack (ws : List Nat) (bs : List Byte) (h : totalWidth ws = 8 * bs.length) :
    pack (ws.zip (unpack ws bs)) = bs := by
  have hz : ((ws.zip (unpack ws bs)).map Prod.fst) = ws := List.map_fst_zip (by simp)
  rw [pack, hz, packAcc_eq, unpack, fieldSum_unpackFrom, h, Nat.zero_mul, Nat.zero_add,
    Nat.mul_div_cancel_left _ (by decide)]
  rw [Nat.mod_eq_of_lt, bytesOfNat_natOfBytes]
  rw [natOfBytes_eq, Nat.pow_mul]
  exact byteSum_lt bs

end Sys2Proof.Machine
end

