-- ==== Sys2Proof/Laws/Memory.lean ====
section
/-! SUPPORT. The laws of the byte memories: a read after a write, the canonical form kept by every operation, and that
two canonical memories that read the same are the same. -/

namespace Sys2Proof.Machine

@[simp] theorem Memory.read_nil (x : Nat) : Memory.read [] x = 0#8 := rfl

theorem Memory.read_erase (m : Memory) (a x : Nat) :
    Memory.read (Memory.erase m a) x = if x = a then 0#8 else Memory.read m x := by
  induction m with
  | nil => simp [Memory.erase]
  | cons c m ih =>
    obtain ⟨y, b⟩ := c
    by_cases hy : y = a
    · subst hy
      simp only [Memory.erase, List.filter, bne_self_eq_false] at ih ⊢
      simp only [ih, Memory.read]
      by_cases h : x = y <;> simp [h, Ne.symm]
    · simp only [Memory.erase, List.filter, bne_iff_ne.mpr hy] at ih ⊢
      simp only [Memory.read, ih]
      by_cases h : y = x
      · subst h; simp [hy]
      · simp [h]

theorem Memory.read_insert (m : Memory) (a x : Nat) (b : Byte) (h : ∀ c ∈ m, c.1 ≠ a) :
    Memory.read (Memory.insert m a b) x = if x = a then b else Memory.read m x := by
  induction m with
  | nil => by_cases hx : a = x <;> simp [Memory.insert, Memory.read, hx, eq_comm]
  | cons c m ih =>
    obtain ⟨y, d⟩ := c
    have hy : y ≠ a := h (y, d) (by simp)
    have ih := ih (fun c hc => h c (by simp [hc]))
    simp only [Memory.insert]
    split
    · by_cases hx : a = x <;> simp [Memory.read, hx, eq_comm]
    · simp only [Memory.read, ih]
      by_cases hx : y = x
      · subst hx; simp [hy]
      · simp [hx]

theorem Memory.not_mem_erase (m : Memory) (a : Nat) : ∀ c ∈ Memory.erase m a, c.1 ≠ a := by
  intro c hc
  simpa using (List.mem_filter.mp hc).2

/-- A read after a write: the byte written at its offset, every other byte as before. -/
@[simp] theorem Memory.read_write (m : Memory) (a x : Nat) (b : Byte) :
    Memory.read (Memory.write m a b) x = if x = a then b else Memory.read m x := by
  unfold Memory.write
  split
  · rename_i h; rw [Memory.read_erase, h]
  · rw [Memory.read_insert _ _ _ _ (Memory.not_mem_erase m a), Memory.read_erase]
    split <;> simp_all

/-- A read after `MemWrite`: the bytes written at their offsets, every other byte as before. -/
theorem read_memWrite (v : List Byte) (m : Memory) (a x : Nat) :
    Memory.read (memWrite m a v) x
      = if a ≤ x ∧ x < a + v.length then v.getD (x - a) 0 else Memory.read m x := by
  induction v generalizing m a with
  | nil => simp only [memWrite, List.length_nil]; rw [if_neg (by omega)]
  | cons b v ih =>
    rw [memWrite, ih, Memory.read_write, List.length_cons]
    by_cases h1 : a + 1 ≤ x ∧ x < a + 1 + v.length
    · obtain ⟨k, hk⟩ : ∃ k, x - a = k + 1 := ⟨x - a - 1, by omega⟩
      rw [if_pos h1, if_pos (by omega), hk, show x - (a + 1) = k by omega, List.getD_cons_succ]
    · rw [if_neg h1]
      by_cases h2 : x = a
      · subst h2; simp
      · rw [if_neg h2, if_neg (by omega)]

@[simp] theorem memWrite_nil (m : Memory) (a : Nat) : memWrite m a [] = m := rfl

/-- Two runs of bytes written one after the other are one run. -/
theorem memWrite_append (u v : List Byte) (m : Memory) (a : Nat) :
    memWrite m a (u ++ v) = memWrite (memWrite m a u) (a + u.length) v := by
  induction u generalizing m a with
  | nil => simp
  | cons b u ih => simp only [List.cons_append, memWrite, ih, List.length_cons]; congr 1; omega

@[simp] theorem length_memRead (m : Memory) (a n : Nat) : (memRead m a n).length = n := by simp [memRead]

theorem getElem_memRead (m : Memory) (a n t : Nat) (h : t < (memRead m a n).length) :
    (memRead m a n)[t] = Memory.read m (a + t) := by simp [memRead]

theorem getD_memRead (m : Memory) (a n t : Nat) :
    (memRead m a n).getD t 0 = if t < n then Memory.read m (a + t) else 0#8 := by
  by_cases h : t < n
  · rw [List.getD_eq_getElem _ _ (by simpa using h), getElem_memRead, if_pos h]
  · rw [List.getD_eq_default _ _ (by simpa using h), if_neg h]; rfl

/-- `MemRead` of n bytes, as its first byte and the rest. -/
theorem memRead_succ (m : Memory) (a n : Nat) : memRead m a (n + 1) = Memory.read m a :: memRead m (a + 1) n := by
  simp [memRead, List.range_succ_eq_map, Function.comp_def]
  intro b _; congr 1; omega

theorem memRead_add (m : Memory) (a n k : Nat) : memRead m a (n + k) = memRead m a n ++ memRead m (a + n) k := by
  induction n generalizing a with
  | zero => simp [memRead]
  | succ n ih =>
    rw [show n + 1 + k = (n + k) + 1 by omega, memRead_succ, ih, memRead_succ]
    simp [show a + 1 + n = a + (n + 1) by omega]

/-- Reading back what was written. -/
theorem memRead_memWrite_self (m : Memory) (a : Nat) (v : List Byte) : memRead (memWrite m a v) a v.length = v := by
  apply List.ext_getElem (by simp)
  intro t h1 h2
  rw [getElem_memRead, read_memWrite, if_pos (by omega), Nat.add_sub_cancel_left, List.getD_eq_getElem _ _ h2]

/-! ### The canonical form -/

theorem Memory.risingFrom_mono {m : Memory} {lo lo' : Nat} (h : lo' ≤ lo) (hm : Memory.risingFrom lo m = true) :
    Memory.risingFrom lo' m = true := by
  cases m with
  | nil => rfl
  | cons c m =>
    obtain ⟨a, b⟩ := c
    simp only [Memory.risingFrom, Bool.and_eq_true, decide_eq_true_eq] at hm ⊢
    exact ⟨⟨by omega, hm.1.2⟩, hm.2⟩

theorem Memory.risingFrom_erase {m : Memory} {lo : Nat} (a : Nat) (hm : Memory.risingFrom lo m = true) :
    Memory.risingFrom lo (Memory.erase m a) = true := by
  induction m generalizing lo with
  | nil => rfl
  | cons c m ih =>
    obtain ⟨x, y⟩ := c
    simp only [Memory.risingFrom, Bool.and_eq_true, decide_eq_true_eq] at hm
    have ih' := ih hm.2
    unfold Memory.erase at ih' ⊢
    by_cases hx : x = a
    · rw [List.filter_cons_of_neg (by simp [hx])]
      exact Memory.risingFrom_mono (by omega) ih'
    · rw [List.filter_cons_of_pos (by simp [hx])]
      simp only [Memory.risingFrom, Bool.and_eq_true, decide_eq_true_eq]
      exact ⟨hm.1, ih'⟩

theorem Memory.risingFrom_insert {m : Memory} {lo a : Nat} {b : Byte} (hm : Memory.risingFrom lo m = true)
    (hlo : lo ≤ a) (hb : b ≠ 0#8) (hne : ∀ c ∈ m, c.1 ≠ a) : Memory.risingFrom lo (Memory.insert m a b) = true := by
  induction m generalizing lo with
  | nil => simp [Memory.insert, Memory.risingFrom, hlo, hb]
  | cons c m ih =>
    obtain ⟨x, y⟩ := c
    have hx : x ≠ a := hne (x, y) (by simp)
    simp only [Memory.risingFrom, Bool.and_eq_true, decide_eq_true_eq] at hm
    simp only [Memory.insert]
    split
    · simp only [Memory.risingFrom, Bool.and_eq_true, decide_eq_true_eq]
      exact ⟨⟨hlo, by simpa using hb⟩, ⟨by omega, hm.1.2⟩, hm.2⟩
    · simp only [Memory.risingFrom, Bool.and_eq_true, decide_eq_true_eq]
      exact ⟨hm.1, ih hm.2 (by omega) (fun c hc => hne c (by simp [hc]))⟩

theorem Memory.mem_insert {m : Memory} {a : Nat} {b : Byte} {c : Host.Cell} (h : c ∈ Memory.insert m a b) :
    c = (a, b) ∨ c ∈ m := by
  induction m with
  | nil => simpa [Memory.insert] using h
  | cons d m ih =>
    simp only [Memory.insert] at h
    split at h
    · simpa using h
    · rcases List.mem_cons.mp h with h | h
      · exact .inr (by simp [h])
      · rcases ih h with h | h
        · exact .inl h
        · exact .inr (by simp [h])

/-- A write within a memory keeps its canonical form. -/
theorem Memory.wf_write {len : Nat} {m : Memory} {a : Nat} (b : Byte) (hm : Memory.wf len m = true) (ha : a < len) :
    Memory.wf len (Memory.write m a b) = true := by
  simp only [Memory.wf, Bool.and_eq_true, List.all_eq_true, decide_eq_true_eq] at hm ⊢
  have herase : ∀ c ∈ Memory.erase m a, c.1 < len := fun c hc => hm.2 c (List.mem_filter.mp hc).1
  unfold Memory.write
  split
  · exact ⟨Memory.risingFrom_erase a hm.1, herase⟩
  · rename_i hb
    refine ⟨Memory.risingFrom_insert (Memory.risingFrom_erase a hm.1) (Nat.zero_le a) hb
      (Memory.not_mem_erase m a), ?_⟩
    intro c hc
    rcases Memory.mem_insert hc with rfl | hc
    · exact ha
    · exact herase c hc

/-- `MemWrite` within a memory keeps its canonical form. -/
theorem wf_memWrite {len : Nat} (v : List Byte) {m : Memory} {a : Nat} (hm : Memory.wf len m = true)
    (ha : a + v.length ≤ len) : Memory.wf len (memWrite m a v) = true := by
  induction v generalizing m a with
  | nil => exact hm
  | cons b v ih =>
    rw [List.length_cons] at ha
    exact ih (Memory.wf_write b hm (by omega)) (by omega)

theorem Memory.wf_nil (len : Nat) : Memory.wf len [] = true := rfl

theorem Memory.read_eq_zero_of_lt {m : Memory} {lo x : Nat} (hm : Memory.risingFrom lo m = true) (hx : x < lo) :
    Memory.read m x = 0#8 := by
  induction m generalizing lo with
  | nil => rfl
  | cons c m ih =>
    obtain ⟨y, b⟩ := c
    simp only [Memory.risingFrom, Bool.and_eq_true, decide_eq_true_eq] at hm
    rw [Memory.read, if_neg (by omega), ih hm.2 (by omega)]

theorem Memory.ext_risingFrom {m m' : Memory} {lo : Nat} (hm : Memory.risingFrom lo m = true)
    (hm' : Memory.risingFrom lo m' = true) (h : ∀ x, Memory.read m x = Memory.read m' x) : m = m' := by
  induction m generalizing lo m' with
  | nil =>
    cases m' with
    | nil => rfl
    | cons c m' =>
      obtain ⟨y, b⟩ := c
      have := h y
      simp_all [Memory.risingFrom, Memory.read]
  | cons c m ih =>
    obtain ⟨x, a⟩ := c
    cases m' with
    | nil =>
      have := h x
      simp_all [Memory.risingFrom, Memory.read]
    | cons d m' =>
      obtain ⟨y, b⟩ := d
      simp only [Memory.risingFrom, Bool.and_eq_true, decide_eq_true_eq, bne_iff_ne] at hm hm'
      have hxy : x = y := by
        rcases Nat.lt_trichotomy x y with hlt | heq | hgt
        · have h1 := h x
          rw [Memory.read, if_pos rfl, Memory.read, if_neg (by omega), Memory.read_eq_zero_of_lt hm'.2 (by omega)] at h1
          exact absurd h1 hm.1.2
        · exact heq
        · have h1 := h y
          rw [Memory.read, if_neg (by omega), Memory.read, if_pos rfl, Memory.read_eq_zero_of_lt hm.2 (by omega)] at h1
          exact absurd h1.symm hm'.1.2
      subst hxy
      have hab : a = b := by simpa [Memory.read] using h x
      subst hab
      congr 1
      refine ih hm.2 hm'.2 (fun z => ?_)
      by_cases hz : x = z
      · subst hz
        rw [Memory.read_eq_zero_of_lt hm.2 (by omega), Memory.read_eq_zero_of_lt hm'.2 (by omega)]
      · simpa [Memory.read, hz] using h z

/-- Two canonical memories that read the same are the same data. -/
theorem Memory.ext_wf {m m' : Memory} {len : Nat} (hm : Memory.wf len m = true) (hm' : Memory.wf len m' = true)
    (h : ∀ x, Memory.read m x = Memory.read m' x) : m = m' := by
  simp only [Memory.wf, Bool.and_eq_true] at hm hm'
  exact Memory.ext_risingFrom hm.1 hm'.1 h

end Sys2Proof.Machine
end

