-- ==== Sys2Proof/Laws/Issi.lean ====
section
/-! SUPPORT. The ISSI sub-blocks byte by byte (43_issi_blocks.md R170 to R185): the bytes of each record as bit slices
of its registers, and the fields a decoder reads as bit slices of the bytes. -/

namespace Sys2Proof.Machine

theorem bytesOfNat_zero (a : Nat) : bytesOfNat 0 a = [] := rfl

/-- A concatenation as a sum. -/
theorem toNat_append_add {m n : Nat} (x : BitVec m) (y : BitVec n) : (x ++ y).toNat = x.toNat * 2 ^ n + y.toNat := by
  rw [BitVec.toNat_append, ← Nat.shiftLeft_add_eq_or_of_lt y.isLt, Nat.shiftLeft_eq]

/-! ### Encoders -/

theorem ctlBytes_eq (h : PayloadHeader) : ctlBytes h = [h.ctlS ++ h.ctlC ++ h.bhCnt.extractLsb' 0 6] := by
  have := h.ctlS.isLt; have := h.ctlC.isLt
  simp only [ctlBytes, pack, packAcc_eq, List.map_cons, List.map_nil, totalWidth_cons, totalWidth_nil,
    bytesOfNat_succ, bytesOfNat_zero, fieldSum_cons, fieldSum_nil, show (1 + (1 + (6 + 0))) / 8 = 0 + 1 from rfl]
  congr 1
  apply BitVec.eq_of_toNat_eq
  simp only [BitVec.toNat_ofNat, toNat_append_add, BitVec.extractLsb'_toNat, Nat.shiftRight_eq_div_pow]
  omega

theorem bhBytes_eq (b : BlockHeader) :
    bhBytes b = [b.e ++ b.bt.extractLsb' 0 7, b.tso.extractLsb' 6 8,
      b.tso.extractLsb' 0 6 ++ b.bl.extractLsb' 8 2, b.bl.extractLsb' 0 8] := by
  have := b.e.isLt
  simp only [bhBytes, pack, packAcc_eq, List.map_cons, List.map_nil, totalWidth_cons, totalWidth_nil,
    bytesOfNat_succ, bytesOfNat_zero, fieldSum_cons, fieldSum_nil,
    show (1 + (7 + (14 + (10 + 0)))) / 8 = 0 + 1 + 1 + 1 + 1 from rfl]
  congr 1
  rotate_left; congr 1
  rotate_left; congr 1
  rotate_left; congr 1
  all_goals
    apply BitVec.eq_of_toNat_eq
    simp only [BitVec.toNat_ofNat, toNat_append_add, BitVec.extractLsb'_toNat, Nat.shiftRight_eq_div_pow]
    omega

theorem pktBytes_eq (h : PayloadHeader) :
    pktBytes h = [h.pktM ++ h.pktPt.extractLsb' 0 7, h.pktAux.extractLsb' 16 8, h.pktAux.extractLsb' 8 8,
      h.pktAux.extractLsb' 0 8] := by
  have := h.pktM.isLt
  simp only [pktBytes, pack, packAcc_eq, List.map_cons, List.map_nil, totalWidth_cons, totalWidth_nil,
    bytesOfNat_succ, bytesOfNat_zero, fieldSum_cons, fieldSum_nil,
    show (1 + (7 + (24 + 0))) / 8 = 0 + 1 + 1 + 1 + 1 from rfl]
  congr 1
  rotate_left; congr 1
  rotate_left; congr 1
  rotate_left; congr 1
  all_goals
    apply BitVec.eq_of_toNat_eq
    simp only [BitVec.toNat_ofNat, toNat_append_add, BitVec.extractLsb'_toNat, Nat.shiftRight_eq_div_pow]
    omega

theorem pttBytes_eq (p : PttFile) :
    pttBytes p = [p.wacn.extractLsb' 12 8, p.wacn.extractLsb' 4 8, p.wacn.extractLsb' 0 4 ++ p.sysId.extractLsb' 8 4,
      p.sysId.extractLsb' 0 8, p.unitId.extractLsb' 16 8, p.unitId.extractLsb' 8 8, p.unitId.extractLsb' 0 8,
      p.prio] := by
  have := p.prio.isLt
  simp only [pttBytes, pack, packAcc_eq, List.map_cons, List.map_nil, totalWidth_cons, totalWidth_nil,
    bytesOfNat_succ, bytesOfNat_zero, fieldSum_cons, fieldSum_nil,
    show (20 + (12 + (24 + (8 + 0)))) / 8 = 0 + 1 + 1 + 1 + 1 + 1 + 1 + 1 + 1 from rfl]
  congr 1
  rotate_left; congr 1
  rotate_left; congr 1
  rotate_left; congr 1
  rotate_left; congr 1
  rotate_left; congr 1
  rotate_left; congr 1
  rotate_left; congr 1
  all_goals
    apply BitVec.eq_of_toNat_eq
    simp only [BitVec.toNat_ofNat, toNat_append_add, BitVec.extractLsb'_toNat, Nat.shiftRight_eq_div_pow]
    omega

theorem frvStatusByte_eq (v : VoiceSlot) :
    frvStatusByte v = [v.totErr.extractLsb' 0 3 ++ 0#3 ++ v.mute ++ v.lost] := by
  have := v.mute.isLt; have := v.lost.isLt
  simp only [frvStatusByte, pack, packAcc_eq, List.map_cons, List.map_nil, totalWidth_cons, totalWidth_nil,
    bytesOfNat_succ, bytesOfNat_zero, fieldSum_cons, fieldSum_nil,
    show (3 + (3 + (1 + (1 + 0)))) / 8 = 0 + 1 from rfl]
  congr 1
  apply BitVec.eq_of_toNat_eq
  simp only [BitVec.toNat_ofNat, toNat_append_add, BitVec.extractLsb'_toNat, Nat.shiftRight_eq_div_pow]
  omega

theorem frvSuperFrameByte_eq (v : VoiceSlot) :
    frvSuperFrameByte v = [0#4 ++ v.sfc.extractLsb' 0 2 ++ 0#2] := by
  simp only [frvSuperFrameByte, pack, packAcc_eq, List.map_cons, List.map_nil, totalWidth_cons, totalWidth_nil,
    bytesOfNat_succ, bytesOfNat_zero, fieldSum_cons, fieldSum_nil, show (4 + (2 + (2 + 0))) / 8 = 0 + 1 from rfl]
  congr 1
  apply BitVec.eq_of_toNat_eq
  simp only [BitVec.toNat_ofNat, toNat_append_add, BitVec.extractLsb'_toNat, Nat.shiftRight_eq_div_pow]
  omega

/-- The 14 fixed bytes of a voice block. -/
theorem frvFixed_eq (v : VoiceSlot) :
    frvFixed v = v.ft :: (memRead v.imbe 0 11 ++ [v.totErr.extractLsb' 0 3 ++ 0#3 ++ v.mute ++ v.lost,
      0#4 ++ v.sfc.extractLsb' 0 2 ++ 0#2]) := by
  rw [frvFixed, frvStatusByte_eq, frvSuperFrameByte_eq]
  simp

@[simp] theorem length_ctlBytes (h : PayloadHeader) : (ctlBytes h).length = 1 := by rw [ctlBytes_eq]; rfl
@[simp] theorem length_bhBytes (b : BlockHeader) : (bhBytes b).length = 4 := by rw [bhBytes_eq]; rfl
@[simp] theorem length_pktBytes (h : PayloadHeader) : (pktBytes h).length = 4 := by rw [pktBytes_eq]; rfl
@[simp] theorem length_pttBytes (p : PttFile) : (pttBytes p).length = 8 := by rw [pttBytes_eq]; rfl
@[simp] theorem length_frvFixed (v : VoiceSlot) : (frvFixed v).length = 14 := by rw [frvFixed_eq]; simp
@[simp] theorem length_frvAfd (v : VoiceSlot) : (frvAfd v).length = v.afdLen.toNat := by simp [frvAfd]

/-! ### Decoders -/

theorem loadCtl_eq (h : PayloadHeader) (b : Byte) :
    h.loadCtl [b] =
      { h with ctlS := b.extractLsb' 7 1, ctlC := b.extractLsb' 6 1, bhCnt := (b.extractLsb' 0 6).setWidth 8 } := by
  have := b.isLt
  simp only [PayloadHeader.loadCtl, unpack, natOfBytes_eq, ctlWidths, totalWidth_cons, totalWidth_nil, unpackFrom_cons,
    unpackFrom_nil, byteSum_cons, byteSum_nil, field, List.getD_cons_zero, List.getD_cons_succ]
  congr 1 <;>
  · apply BitVec.eq_of_toNat_eq
    simp only [BitVec.toNat_ofNat, BitVec.toNat_setWidth, BitVec.extractLsb'_toNat, Nat.shiftRight_eq_div_pow]
    omega

theorem bhOfBytes_eq (b0 b1 b2 b3 : Byte) :
    bhOfBytes [b0, b1, b2, b3] =
      { e := b0.extractLsb' 7 1, bt := (b0.extractLsb' 0 7).setWidth 8,
        tso := (b1 ++ b2.extractLsb' 2 6).setWidth 16, bl := (b2.extractLsb' 0 2 ++ b3).setWidth 16 } := by
  have := b0.isLt; have := b1.isLt; have := b2.isLt; have := b3.isLt
  simp only [bhOfBytes, unpack, natOfBytes_eq, bhWidths, totalWidth_cons, totalWidth_nil, unpackFrom_cons,
    unpackFrom_nil, byteSum_cons, byteSum_nil, field, List.getD_cons_zero, List.getD_cons_succ]
  congr 1 <;>
  · apply BitVec.eq_of_toNat_eq
    simp only [BitVec.toNat_ofNat, BitVec.toNat_setWidth, toNat_append_add, BitVec.extractLsb'_toNat,
      Nat.shiftRight_eq_div_pow]
    omega

theorem loadPkt_eq (h : PayloadHeader) (b0 b1 b2 b3 : Byte) :
    h.loadPkt [b0, b1, b2, b3] =
      { h with
        pktM := b0.extractLsb' 7 1, pktPt := (b0.extractLsb' 0 7).setWidth 8, pktAux := (b1 ++ b2 ++ b3).setWidth 32 } := by
  have := b0.isLt; have := b1.isLt; have := b2.isLt; have := b3.isLt
  simp only [PayloadHeader.loadPkt, unpack, natOfBytes_eq, pktWidths, totalWidth_cons, totalWidth_nil, unpackFrom_cons,
    unpackFrom_nil, byteSum_cons, byteSum_nil, field, List.getD_cons_zero, List.getD_cons_succ]
  congr 1 <;>
  · apply BitVec.eq_of_toNat_eq
    simp only [BitVec.toNat_ofNat, BitVec.toNat_setWidth, toNat_append_add, BitVec.extractLsb'_toNat,
      Nat.shiftRight_eq_div_pow]
    omega

theorem loadPtt_eq (p : PttFile) (b0 b1 b2 b3 b4 b5 b6 b7 : Byte) :
    p.load [b0, b1, b2, b3, b4, b5, b6, b7] =
      { p with
        wacn := (b0 ++ b1 ++ b2.extractLsb' 4 4).setWidth 32, sysId := (b2.extractLsb' 0 4 ++ b3).setWidth 16,
        unitId := (b4 ++ b5 ++ b6).setWidth 32, prio := b7 } := by
  have := b0.isLt; have := b1.isLt; have := b2.isLt; have := b3.isLt
  have := b4.isLt; have := b5.isLt; have := b6.isLt; have := b7.isLt
  simp only [PttFile.load, unpack, natOfBytes_eq, pttWidths, totalWidth_cons, totalWidth_nil, unpackFrom_cons,
    unpackFrom_nil, byteSum_cons, byteSum_nil, field, List.getD_cons_zero, List.getD_cons_succ]
  congr 1 <;>
  · apply BitVec.eq_of_toNat_eq
    simp only [BitVec.toNat_ofNat, BitVec.toNat_setWidth, toNat_append_add, BitVec.extractLsb'_toNat,
      Nat.shiftRight_eq_div_pow]
    omega

theorem loadFixed_eq (v : VoiceSlot) (b : List Byte) :
    v.loadFixed b =
      { v with
        ft := byteAt b 0, imbe := memWrite v.imbe 0 (slice b 1 11),
        totErr := ((byteAt b 12).extractLsb' 5 3).setWidth 8, mute := (byteAt b 12).extractLsb' 1 1,
        lost := (byteAt b 12).extractLsb' 0 1, sfc := ((byteAt b 13).extractLsb' 2 2).setWidth 8 } := by
  have := (byteAt b 12).isLt; have := (byteAt b 13).isLt
  simp only [VoiceSlot.loadFixed, unpack, natOfBytes_eq, totalWidth_cons, totalWidth_nil, unpackFrom_cons,
    unpackFrom_nil, byteSum_cons, byteSum_nil, field, List.getD_cons_zero, List.getD_cons_succ]
  congr 1 <;>
  · apply BitVec.eq_of_toNat_eq
    simp only [BitVec.toNat_ofNat, BitVec.toNat_setWidth, BitVec.extractLsb'_toNat, Nat.shiftRight_eq_div_pow]
    omega

/-- Four bytes read from a memory. -/
theorem memRead_four (m : Memory) (a : Nat) :
    memRead m a 4 = [Memory.read m a, Memory.read m (a + 1), Memory.read m (a + 2), Memory.read m (a + 3)] := rfl

/-- Eight bytes read from a memory. -/
theorem memRead_eight (m : Memory) (a : Nat) :
    memRead m a 8 = [Memory.read m a, Memory.read m (a + 1), Memory.read m (a + 2), Memory.read m (a + 3),
      Memory.read m (a + 4), Memory.read m (a + 5), Memory.read m (a + 6), Memory.read m (a + 7)] := rfl

theorem memRead_one (m : Memory) (a : Nat) : memRead m a 1 = [Memory.read m a] := rfl

end Sys2Proof.Machine
end

