-- ==== Sys2Proof/Laws/State.lean ====
section
/-! SUPPORT. One lemma per field per update of State, each true by rfl, so that no proof unfolds a record update. -/

namespace Sys2Proof.Machine

/-! ### endWith -/

section
variable (c : Status) (s : State)

@[simp] theorem endWith_code : (endWith c s).code = c.code := rfl
@[simp] theorem endWith_fault : (endWith c s).fault = s.fault := rfl
@[simp] theorem endWith_result : (endWith c s).result = s.result := rfl
@[simp] theorem endWith_faultCause : (endWith c s).faultCause = s.faultCause := rfl
@[simp] theorem endWith_faultCmd : (endWith c s).faultCmd = s.faultCmd := rfl
@[simp] theorem endWith_ftLast : (endWith c s).ftLast = s.ftLast := rfl
@[simp] theorem endWith_ibLen : (endWith c s).ibLen = s.ibLen := rfl
@[simp] theorem endWith_ibPtr : (endWith c s).ibPtr = s.ibPtr := rfl
@[simp] theorem endWith_ibValid : (endWith c s).ibValid = s.ibValid := rfl
@[simp] theorem endWith_obCap : (endWith c s).obCap = s.obCap := rfl
@[simp] theorem endWith_obPtr : (endWith c s).obPtr = s.obPtr := rfl
@[simp] theorem endWith_obValid : (endWith c s).obValid = s.obValid := rfl
@[simp] theorem endWith_cd : (endWith c s).cd = s.cd := rfl
@[simp] theorem endWith_ptt : (endWith c s).ptt = s.ptt := rfl
@[simp] theorem endWith_hdr : (endWith c s).hdr = s.hdr := rfl
@[simp] theorem endWith_bh : (endWith c s).bh = s.bh := rfl
@[simp] theorem endWith_vb : (endWith c s).vb = s.vb := rfl
@[simp] theorem endWith_bp : (endWith c s).bp = s.bp := rfl
@[simp] theorem endWith_ib : (endWith c s).ib = s.ib := rfl
@[simp] theorem endWith_ob : (endWith c s).ob = s.ob := rfl
@[simp] theorem endWith_ldu1 : (endWith c s).ldu1 = s.ldu1 := rfl
@[simp] theorem endWith_ldu2 : (endWith c s).ldu2 = s.ldu2 := rfl
@[simp] theorem endWith_imbe : (endWith c s).imbe = s.imbe := rfl
@[simp] theorem endWith_pafd : (endWith c s).pafd = s.pafd := rfl
@[simp] theorem endWith_host : (endWith c s).host = s.host := rfl
@[simp] theorem endWith_hRdata : (endWith c s).hRdata = s.hRdata := rfl
@[simp] theorem endWith_cfg : (endWith c s).cfg = s.cfg := rfl

end

/-! ### setResult -/

section
variable (v : Nat) (s : State)

@[simp] theorem setResult_code : (setResult v s).code = s.code := rfl
@[simp] theorem setResult_fault : (setResult v s).fault = s.fault := rfl
@[simp] theorem setResult_result : (setResult v s).result = BitVec.ofNat 16 v := rfl
@[simp] theorem setResult_faultCause : (setResult v s).faultCause = s.faultCause := rfl
@[simp] theorem setResult_faultCmd : (setResult v s).faultCmd = s.faultCmd := rfl
@[simp] theorem setResult_ftLast : (setResult v s).ftLast = s.ftLast := rfl
@[simp] theorem setResult_ibLen : (setResult v s).ibLen = s.ibLen := rfl
@[simp] theorem setResult_ibPtr : (setResult v s).ibPtr = s.ibPtr := rfl
@[simp] theorem setResult_ibValid : (setResult v s).ibValid = s.ibValid := rfl
@[simp] theorem setResult_obCap : (setResult v s).obCap = s.obCap := rfl
@[simp] theorem setResult_obPtr : (setResult v s).obPtr = s.obPtr := rfl
@[simp] theorem setResult_obValid : (setResult v s).obValid = s.obValid := rfl
@[simp] theorem setResult_cd : (setResult v s).cd = s.cd := rfl
@[simp] theorem setResult_ptt : (setResult v s).ptt = s.ptt := rfl
@[simp] theorem setResult_hdr : (setResult v s).hdr = s.hdr := rfl
@[simp] theorem setResult_bh : (setResult v s).bh = s.bh := rfl
@[simp] theorem setResult_vb : (setResult v s).vb = s.vb := rfl
@[simp] theorem setResult_bp : (setResult v s).bp = s.bp := rfl
@[simp] theorem setResult_ib : (setResult v s).ib = s.ib := rfl
@[simp] theorem setResult_ob : (setResult v s).ob = s.ob := rfl
@[simp] theorem setResult_ldu1 : (setResult v s).ldu1 = s.ldu1 := rfl
@[simp] theorem setResult_ldu2 : (setResult v s).ldu2 = s.ldu2 := rfl
@[simp] theorem setResult_imbe : (setResult v s).imbe = s.imbe := rfl
@[simp] theorem setResult_pafd : (setResult v s).pafd = s.pafd := rfl
@[simp] theorem setResult_host : (setResult v s).host = s.host := rfl
@[simp] theorem setResult_hRdata : (setResult v s).hRdata = s.hRdata := rfl
@[simp] theorem setResult_cfg : (setResult v s).cfg = s.cfg := rfl

end

/-! ### raiseFault -/

section
variable (f : FaultCause) (w : CmdWord) (s : State)

@[simp] theorem raiseFault_code : (raiseFault f w s).code = f.code := rfl
@[simp] theorem raiseFault_fault : (raiseFault f w s).fault = 1 := rfl
@[simp] theorem raiseFault_result : (raiseFault f w s).result = s.result := rfl
@[simp] theorem raiseFault_faultCause : (raiseFault f w s).faultCause = f.code := rfl
@[simp] theorem raiseFault_faultCmd : (raiseFault f w s).faultCmd = w := rfl
@[simp] theorem raiseFault_ftLast : (raiseFault f w s).ftLast = s.ftLast := rfl
@[simp] theorem raiseFault_ibLen : (raiseFault f w s).ibLen = s.ibLen := rfl
@[simp] theorem raiseFault_ibPtr : (raiseFault f w s).ibPtr = s.ibPtr := rfl
@[simp] theorem raiseFault_ibValid : (raiseFault f w s).ibValid = s.ibValid := rfl
@[simp] theorem raiseFault_obCap : (raiseFault f w s).obCap = s.obCap := rfl
@[simp] theorem raiseFault_obPtr : (raiseFault f w s).obPtr = s.obPtr := rfl
@[simp] theorem raiseFault_obValid : (raiseFault f w s).obValid = s.obValid := rfl
@[simp] theorem raiseFault_cd : (raiseFault f w s).cd = s.cd := rfl
@[simp] theorem raiseFault_ptt : (raiseFault f w s).ptt = s.ptt := rfl
@[simp] theorem raiseFault_hdr : (raiseFault f w s).hdr = s.hdr := rfl
@[simp] theorem raiseFault_bh : (raiseFault f w s).bh = s.bh := rfl
@[simp] theorem raiseFault_vb : (raiseFault f w s).vb = s.vb := rfl
@[simp] theorem raiseFault_bp : (raiseFault f w s).bp = s.bp := rfl
@[simp] theorem raiseFault_ib : (raiseFault f w s).ib = s.ib := rfl
@[simp] theorem raiseFault_ob : (raiseFault f w s).ob = s.ob := rfl
@[simp] theorem raiseFault_ldu1 : (raiseFault f w s).ldu1 = s.ldu1 := rfl
@[simp] theorem raiseFault_ldu2 : (raiseFault f w s).ldu2 = s.ldu2 := rfl
@[simp] theorem raiseFault_imbe : (raiseFault f w s).imbe = s.imbe := rfl
@[simp] theorem raiseFault_pafd : (raiseFault f w s).pafd = s.pafd := rfl
@[simp] theorem raiseFault_host : (raiseFault f w s).host = s.host := rfl
@[simp] theorem raiseFault_hRdata : (raiseFault f w s).hRdata = s.hRdata := rfl
@[simp] theorem raiseFault_cfg : (raiseFault f w s).cfg = s.cfg := rfl

end

/-! ### emit -/

section
variable (b : List Byte) (s : State)

@[simp] theorem emit_code : (emit b s).code = Status.ok.code := rfl
@[simp] theorem emit_fault : (emit b s).fault = s.fault := rfl
@[simp] theorem emit_result : (emit b s).result = BitVec.ofNat 16 b.length := rfl
@[simp] theorem emit_faultCause : (emit b s).faultCause = s.faultCause := rfl
@[simp] theorem emit_faultCmd : (emit b s).faultCmd = s.faultCmd := rfl
@[simp] theorem emit_ftLast : (emit b s).ftLast = s.ftLast := rfl
@[simp] theorem emit_ibLen : (emit b s).ibLen = s.ibLen := rfl
@[simp] theorem emit_ibPtr : (emit b s).ibPtr = s.ibPtr := rfl
@[simp] theorem emit_ibValid : (emit b s).ibValid = s.ibValid := rfl
@[simp] theorem emit_obCap : (emit b s).obCap = s.obCap := rfl
@[simp] theorem emit_obPtr : (emit b s).obPtr = BitVec.ofNat 9 (s.obPtr.toNat + b.length) := rfl
@[simp] theorem emit_obValid : (emit b s).obValid = s.obValid := rfl
@[simp] theorem emit_cd : (emit b s).cd = s.cd := rfl
@[simp] theorem emit_ptt : (emit b s).ptt = s.ptt := rfl
@[simp] theorem emit_hdr : (emit b s).hdr = s.hdr := rfl
@[simp] theorem emit_bh : (emit b s).bh = s.bh := rfl
@[simp] theorem emit_vb : (emit b s).vb = s.vb := rfl
@[simp] theorem emit_bp : (emit b s).bp = s.bp := rfl
@[simp] theorem emit_ib : (emit b s).ib = s.ib := rfl
@[simp] theorem emit_ob : (emit b s).ob = memWrite s.ob s.obPtr.toNat b := rfl
@[simp] theorem emit_ldu1 : (emit b s).ldu1 = s.ldu1 := rfl
@[simp] theorem emit_ldu2 : (emit b s).ldu2 = s.ldu2 := rfl
@[simp] theorem emit_imbe : (emit b s).imbe = s.imbe := rfl
@[simp] theorem emit_pafd : (emit b s).pafd = s.pafd := rfl
@[simp] theorem emit_host : (emit b s).host = s.host := rfl
@[simp] theorem emit_hRdata : (emit b s).hRdata = s.hRdata := rfl
@[simp] theorem emit_cfg : (emit b s).cfg = s.cfg := rfl

end

/-! ### consume -/

section
variable (n : Nat) (s : State)

@[simp] theorem consume_code : (consume n s).code = Status.ok.code := rfl
@[simp] theorem consume_fault : (consume n s).fault = s.fault := rfl
@[simp] theorem consume_result : (consume n s).result = BitVec.ofNat 16 n := rfl
@[simp] theorem consume_faultCause : (consume n s).faultCause = s.faultCause := rfl
@[simp] theorem consume_faultCmd : (consume n s).faultCmd = s.faultCmd := rfl
@[simp] theorem consume_ftLast : (consume n s).ftLast = s.ftLast := rfl
@[simp] theorem consume_ibLen : (consume n s).ibLen = s.ibLen := rfl
@[simp] theorem consume_ibPtr : (consume n s).ibPtr = BitVec.ofNat 9 (s.ibPtr.toNat + n) := rfl
@[simp] theorem consume_ibValid : (consume n s).ibValid = s.ibValid := rfl
@[simp] theorem consume_obCap : (consume n s).obCap = s.obCap := rfl
@[simp] theorem consume_obPtr : (consume n s).obPtr = s.obPtr := rfl
@[simp] theorem consume_obValid : (consume n s).obValid = s.obValid := rfl
@[simp] theorem consume_cd : (consume n s).cd = s.cd := rfl
@[simp] theorem consume_ptt : (consume n s).ptt = s.ptt := rfl
@[simp] theorem consume_hdr : (consume n s).hdr = s.hdr := rfl
@[simp] theorem consume_bh : (consume n s).bh = s.bh := rfl
@[simp] theorem consume_vb : (consume n s).vb = s.vb := rfl
@[simp] theorem consume_bp : (consume n s).bp = s.bp := rfl
@[simp] theorem consume_ib : (consume n s).ib = s.ib := rfl
@[simp] theorem consume_ob : (consume n s).ob = s.ob := rfl
@[simp] theorem consume_ldu1 : (consume n s).ldu1 = s.ldu1 := rfl
@[simp] theorem consume_ldu2 : (consume n s).ldu2 = s.ldu2 := rfl
@[simp] theorem consume_imbe : (consume n s).imbe = s.imbe := rfl
@[simp] theorem consume_pafd : (consume n s).pafd = s.pafd := rfl
@[simp] theorem consume_host : (consume n s).host = s.host := rfl
@[simp] theorem consume_hRdata : (consume n s).hRdata = s.hRdata := rfl
@[simp] theorem consume_cfg : (consume n s).cfg = s.cfg := rfl

end

/-! ### setBh -/

section
variable (i : Nat) (b : BlockHeader) (s : State)

@[simp] theorem setBh_code : (s.setBh i b).code = s.code := rfl
@[simp] theorem setBh_fault : (s.setBh i b).fault = s.fault := rfl
@[simp] theorem setBh_result : (s.setBh i b).result = s.result := rfl
@[simp] theorem setBh_faultCause : (s.setBh i b).faultCause = s.faultCause := rfl
@[simp] theorem setBh_faultCmd : (s.setBh i b).faultCmd = s.faultCmd := rfl
@[simp] theorem setBh_ftLast : (s.setBh i b).ftLast = s.ftLast := rfl
@[simp] theorem setBh_ibLen : (s.setBh i b).ibLen = s.ibLen := rfl
@[simp] theorem setBh_ibPtr : (s.setBh i b).ibPtr = s.ibPtr := rfl
@[simp] theorem setBh_ibValid : (s.setBh i b).ibValid = s.ibValid := rfl
@[simp] theorem setBh_obCap : (s.setBh i b).obCap = s.obCap := rfl
@[simp] theorem setBh_obPtr : (s.setBh i b).obPtr = s.obPtr := rfl
@[simp] theorem setBh_obValid : (s.setBh i b).obValid = s.obValid := rfl
@[simp] theorem setBh_cd : (s.setBh i b).cd = s.cd := rfl
@[simp] theorem setBh_ptt : (s.setBh i b).ptt = s.ptt := rfl
@[simp] theorem setBh_hdr : (s.setBh i b).hdr = s.hdr := rfl
@[simp] theorem setBh_bh : (s.setBh i b).bh = s.bh.setIfInBounds i b := rfl
@[simp] theorem setBh_vb : (s.setBh i b).vb = s.vb := rfl
@[simp] theorem setBh_bp : (s.setBh i b).bp = s.bp := rfl
@[simp] theorem setBh_ib : (s.setBh i b).ib = s.ib := rfl
@[simp] theorem setBh_ob : (s.setBh i b).ob = s.ob := rfl
@[simp] theorem setBh_ldu1 : (s.setBh i b).ldu1 = s.ldu1 := rfl
@[simp] theorem setBh_ldu2 : (s.setBh i b).ldu2 = s.ldu2 := rfl
@[simp] theorem setBh_imbe : (s.setBh i b).imbe = s.imbe := rfl
@[simp] theorem setBh_pafd : (s.setBh i b).pafd = s.pafd := rfl
@[simp] theorem setBh_host : (s.setBh i b).host = s.host := rfl
@[simp] theorem setBh_hRdata : (s.setBh i b).hRdata = s.hRdata := rfl
@[simp] theorem setBh_cfg : (s.setBh i b).cfg = s.cfg := rfl

end

/-! ### setVb -/

section
variable (j : Nat) (v : VoiceSlot) (s : State)

@[simp] theorem setVb_code : (s.setVb j v).code = s.code := rfl
@[simp] theorem setVb_fault : (s.setVb j v).fault = s.fault := rfl
@[simp] theorem setVb_result : (s.setVb j v).result = s.result := rfl
@[simp] theorem setVb_faultCause : (s.setVb j v).faultCause = s.faultCause := rfl
@[simp] theorem setVb_faultCmd : (s.setVb j v).faultCmd = s.faultCmd := rfl
@[simp] theorem setVb_ftLast : (s.setVb j v).ftLast = s.ftLast := rfl
@[simp] theorem setVb_ibLen : (s.setVb j v).ibLen = s.ibLen := rfl
@[simp] theorem setVb_ibPtr : (s.setVb j v).ibPtr = s.ibPtr := rfl
@[simp] theorem setVb_ibValid : (s.setVb j v).ibValid = s.ibValid := rfl
@[simp] theorem setVb_obCap : (s.setVb j v).obCap = s.obCap := rfl
@[simp] theorem setVb_obPtr : (s.setVb j v).obPtr = s.obPtr := rfl
@[simp] theorem setVb_obValid : (s.setVb j v).obValid = s.obValid := rfl
@[simp] theorem setVb_cd : (s.setVb j v).cd = s.cd := rfl
@[simp] theorem setVb_ptt : (s.setVb j v).ptt = s.ptt := rfl
@[simp] theorem setVb_hdr : (s.setVb j v).hdr = s.hdr := rfl
@[simp] theorem setVb_bh : (s.setVb j v).bh = s.bh := rfl
@[simp] theorem setVb_vb : (s.setVb j v).vb = s.vb.setIfInBounds j v := rfl
@[simp] theorem setVb_bp : (s.setVb j v).bp = s.bp := rfl
@[simp] theorem setVb_ib : (s.setVb j v).ib = s.ib := rfl
@[simp] theorem setVb_ob : (s.setVb j v).ob = s.ob := rfl
@[simp] theorem setVb_ldu1 : (s.setVb j v).ldu1 = s.ldu1 := rfl
@[simp] theorem setVb_ldu2 : (s.setVb j v).ldu2 = s.ldu2 := rfl
@[simp] theorem setVb_imbe : (s.setVb j v).imbe = s.imbe := rfl
@[simp] theorem setVb_pafd : (s.setVb j v).pafd = s.pafd := rfl
@[simp] theorem setVb_host : (s.setVb j v).host = s.host := rfl
@[simp] theorem setVb_hRdata : (s.setVb j v).hRdata = s.hRdata := rfl
@[simp] theorem setVb_cfg : (s.setVb j v).cfg = s.cfg := rfl

end

/-! ### resetCodec -/

@[simp] theorem resetCodec_host (s : State) : (resetCodec s).host = s.host := rfl
@[simp] theorem resetCodec_hRdata (s : State) : (resetCodec s).hRdata = s.hRdata := rfl
@[simp] theorem resetCodec_cfg (s : State) : (resetCodec s).cfg = s.cfg := rfl
theorem resetCodec_eq (s : State) :
    resetCodec s = { State.reset with host := s.host, hRdata := s.hRdata, cfg := s.cfg } := rfl

/-! ### setLdu -/

section
variable (s : State) (m : Memory)

@[simp] theorem setLdu_one : s.setLdu 1#2 m = { s with ldu1 := m } := rfl
@[simp] theorem setLdu_two : s.setLdu 2#2 m = { s with ldu2 := m } := rfl
@[simp] theorem ldu_one : s.ldu 1#2 = s.ldu1 := rfl
@[simp] theorem ldu_two : s.ldu 2#2 = s.ldu2 := rfl

end

/-! ### Slots -/

theorem vector_getD {α : Type} {n : Nat} (v : Vector α n) (k : Nat) (d : α) : v.getD k d = (v[k]?).getD d := by
  by_cases h : k < n <;> simp [Vector.getD, Array.getD, h]

/-- A slot of a file after one slot is set: that one if it exists, else as before. -/
theorem vector_getD_set {α : Type} {n : Nat} (v : Vector α n) (i k : Nat) (x d : α) :
    (v.setIfInBounds i x).getD k d = if k = i ∧ i < n then x else v.getD k d := by
  rw [vector_getD, vector_getD, Vector.getElem?_setIfInBounds]
  by_cases h : i = k
  · subst h
    by_cases hn : i < n
    · simp [hn]
    · simp [hn]
  · simp [h, Ne.symm h]

/-- A file after a list is laid over it from index `i` on. -/
theorem getD_setFrom {α : Type} {n : Nat} (xs : List α) (v : Vector α n) (i k : Nat) (d : α) :
    (setFrom v i xs).getD k d = if i ≤ k ∧ k < i + xs.length ∧ k < n then xs.getD (k - i) d else v.getD k d := by
  induction xs generalizing v i with
  | nil => simp only [setFrom, List.length_nil]; rw [if_neg (by omega)]
  | cons x xs ih =>
    rw [setFrom, ih, vector_getD_set, List.length_cons]
    by_cases h : i + 1 ≤ k ∧ k < i + 1 + xs.length ∧ k < n
    · obtain ⟨t, ht⟩ : ∃ t, k - i = t + 1 := ⟨k - i - 1, by omega⟩
      rw [if_pos h, if_pos (by omega), ht, List.getD_cons_succ, show k - (i + 1) = t by omega]
    · rw [if_neg h]
      by_cases hk : k = i ∧ i < n
      · obtain ⟨rfl, hn⟩ := hk
        rw [if_pos ⟨rfl, hn⟩, if_pos ⟨by omega, by omega, hn⟩]; simp
      · rw [if_neg hk, if_neg (by omega)]

@[simp] theorem bhAt_setBh (s : State) (i k : Nat) (b : BlockHeader) :
    (s.setBh i b).bhAt k = if k = i ∧ i < 4 then b else s.bhAt k := vector_getD_set s.bh i k b _

@[simp] theorem vbAt_setVb (s : State) (j k : Nat) (v : VoiceSlot) :
    (s.setVb j v).vbAt k = if k = j ∧ j < 3 then v else s.vbAt k := vector_getD_set s.vb j k v _

end Sys2Proof.Machine
end

