-- ==== Sys2Proof/Laws/Ops.lean ====
section
/-! SUPPORT. What each shared operation can do, said once: the common checks, the encoders' and decoders' ends, the
record at the cursor. A proof cites these and does not unfold the operation. -/

namespace Sys2Proof.Machine

/-! ### The common checks (60_exceptions.md R240) -/

@[simp] theorem commonChecks_latched {s : State} (ok : Bool) (rest : State) (h : s.fault = 1) :
    commonChecks ok s rest = endWith .refused s := by simp [commonChecks, h]

theorem commonChecks_malformed {s : State} (rest : State) (h : s.fault ≠ 1) :
    commonChecks false s rest = endWith .errOperand s := if_neg h

theorem commonChecks_accepted {s : State} (rest : State) (h : s.fault ≠ 1) : commonChecks true s rest = rest :=
  if_neg h

/-- All that the common checks can do: refuse, report the operand, or let the rest of the command act. -/
theorem commonChecks_cases (ok : Bool) (s rest : State) :
    (s.fault = 1 ∧ commonChecks ok s rest = endWith .refused s) ∨
    (s.fault ≠ 1 ∧ ok = false ∧ commonChecks ok s rest = endWith .errOperand s) ∨
    (s.fault ≠ 1 ∧ ok = true ∧ commonChecks ok s rest = rest) := by
  by_cases h : s.fault = 1
  · exact .inl ⟨h, commonChecks_latched ok rest h⟩
  · cases ok
    · exact .inr (.inl ⟨h, rfl, commonChecks_malformed rest h⟩)
    · exact .inr (.inr ⟨h, rfl, commonChecks_accepted rest h⟩)

/-! ### The encoders' end (43_issi_blocks.md R190) -/

theorem emit_eq (b : List Byte) (s : State) :
    emit b s =
      { s with
        ob := memWrite s.ob s.obPtr.toNat b
        obPtr := BitVec.ofNat 9 (s.obPtr.toNat + b.length)
        result := BitVec.ofNat 16 b.length
        code := 0x00#8 } := rfl

/-- All that writing bytes at the write cursor can do. -/
theorem emitIfRoom_cases (b : List Byte) (s : State) :
    (s.obCap.toNat < s.obPtr.toNat + b.length ∧ emitIfRoom b s = endWith .errCapacity s) ∨
    (s.obPtr.toNat + b.length ≤ s.obCap.toNat ∧ emitIfRoom b s = emit b s) := by
  unfold emitIfRoom
  split
  · exact .inl ⟨by omega, rfl⟩
  · exact .inr ⟨by omega, rfl⟩

theorem encFixed_absent {s : State} (cmd : CmdWord) (b : List Byte) (h : s.obValid = 0) :
    encFixed cmd b s = raiseFault .nullBuf cmd s := by simp [encFixed, h]

theorem encFixed_noRoom {s : State} (cmd : CmdWord) (b : List Byte) (h : s.obValid ≠ 0)
    (hr : s.obCap.toNat < s.obPtr.toNat + b.length) : encFixed cmd b s = endWith .errCapacity s := by
  rw [encFixed, if_neg h, emitIfRoom, if_pos hr]

theorem encFixed_room {s : State} (cmd : CmdWord) (b : List Byte) (h : s.obValid ≠ 0)
    (hr : s.obPtr.toNat + b.length ≤ s.obCap.toNat) : encFixed cmd b s = emit b s := by
  rw [encFixed, if_neg h, emitIfRoom, if_neg (Nat.not_lt.mpr hr)]

/-- All that `EncFixed` can do. -/
theorem encFixed_cases (cmd : CmdWord) (b : List Byte) (s : State) :
    (s.obValid = 0 ∧ encFixed cmd b s = raiseFault .nullBuf cmd s) ∨
    (s.obValid ≠ 0 ∧ s.obCap.toNat < s.obPtr.toNat + b.length ∧ encFixed cmd b s = endWith .errCapacity s) ∨
    (s.obValid ≠ 0 ∧ s.obPtr.toNat + b.length ≤ s.obCap.toNat ∧ encFixed cmd b s = emit b s) := by
  by_cases h : s.obValid = 0
  · exact .inl ⟨h, encFixed_absent cmd b h⟩
  · by_cases hr : s.obPtr.toNat + b.length ≤ s.obCap.toNat
    · exact .inr (.inr ⟨h, hr, encFixed_room cmd b h hr⟩)
    · exact .inr (.inl ⟨h, by omega, encFixed_noRoom cmd b h (by omega)⟩)

/-! ### The decoders' beginning (R190) -/

theorem consume_eq (n : Nat) (s : State) :
    consume n s =
      { s with ibPtr := BitVec.ofNat 9 (s.ibPtr.toNat + n), result := BitVec.ofNat 16 n, code := 0x00#8 } := rfl

theorem decFixed_absent {s : State} (n : Nat) (k : List Byte → State → State) (h : s.ibValid = 0) :
    decFixed n s k = endWith .errNull s := by simp [decFixed, h]

theorem decFixed_short {s : State} (n : Nat) (k : List Byte → State → State) (h : s.ibValid ≠ 0)
    (hr : s.ibLen.toNat < s.ibPtr.toNat + n) : decFixed n s k = endWith .errShort s := by
  rw [decFixed, if_neg h, if_pos hr]

theorem decFixed_there {s : State} (n : Nat) (k : List Byte → State → State) (h : s.ibValid ≠ 0)
    (hr : s.ibPtr.toNat + n ≤ s.ibLen.toNat) :
    decFixed n s k = k (memRead s.ib s.ibPtr.toNat n) (consume n s) := by
  rw [decFixed, if_neg h, if_neg (Nat.not_lt.mpr hr)]

/-- All that `DecFixed` can do. -/
theorem decFixed_cases (n : Nat) (s : State) (k : List Byte → State → State) :
    (s.ibValid = 0 ∧ decFixed n s k = endWith .errNull s) ∨
    (s.ibValid ≠ 0 ∧ s.ibLen.toNat < s.ibPtr.toNat + n ∧ decFixed n s k = endWith .errShort s) ∨
    (s.ibValid ≠ 0 ∧ s.ibPtr.toNat + n ≤ s.ibLen.toNat ∧
      decFixed n s k = k (memRead s.ib s.ibPtr.toNat n) (consume n s)) := by
  by_cases h : s.ibValid = 0
  · exact .inl ⟨h, decFixed_absent n k h⟩
  · by_cases hr : s.ibPtr.toNat + n ≤ s.ibLen.toNat
    · exact .inr (.inr ⟨h, hr, decFixed_there n k h hr⟩)
    · exact .inr (.inl ⟨h, by omega, decFixed_short n k h (by omega)⟩)

@[simp] theorem length_available (s : State) : (available s).length = s.ibLen.toNat - s.ibPtr.toNat := by
  simp [available]

/-- Byte `t` of what is available, when it is. -/
theorem byteAt_available (s : State) (t : Nat) (h : s.ibPtr.toNat + t < s.ibLen.toNat) :
    byteAt (available s) t = Memory.read s.ib (s.ibPtr.toNat + t) := by
  simp only [byteAt, available, getD_memRead]
  rw [if_pos (by omega)]

/-! ### The record at the cursor (42_ldu.md R153, R154) -/

/-- All that reading the record at the cursor can answer. -/
theorem recordAtCursor_cases (s : State) :
    (s.ibValid = 0 ∧ recordAtCursor s = .error .errNull) ∨
    (s.ibValid ≠ 0 ∧ s.ibLen.toNat < s.ibPtr.toNat + 154 ∧ recordAtCursor s = .error .errShort) ∨
    (s.ibValid ≠ 0 ∧ s.ibPtr.toNat + 154 ≤ s.ibLen.toNat ∧
      recordAtCursor s = .ok (memRead s.ib s.ibPtr.toNat 154)) := by
  unfold recordAtCursor
  split
  · exact .inl ⟨‹_›, rfl⟩
  · split
    · rename_i h hr
      exact .inr (.inl ⟨h, hr, rfl⟩)
    · rename_i h hr
      exact .inr (.inr ⟨h, Nat.not_lt.mp hr, rfl⟩)

/-! ### Fault entry and reset (60_exceptions.md R241, 70_reset_and_hazards.md R260) -/

/-- Fault entry writes these four and nothing else. -/
theorem raiseFault_eq (cause : FaultCause) (cmd : CmdWord) (s : State) :
    raiseFault cause cmd s = { s with fault := 1, faultCause := cause.code, faultCmd := cmd, code := cause.code } := rfl

end Sys2Proof.Machine
end

