-- ==== Sys2Proof/Laws/Claims.lean ====
section
/-! SUPPORT. From the shared operations to the terms that the statements are written in (Sys2Proof.Claims): a command that is
the common checks and a rest is `Guarded`, one that ends in `EncFixed` is `EncodesFixed`, one that begins with `DecFixed` is
`DecodesFixed`. -/

namespace Sys2Proof.Claims

open Sys2Proof.Machine

theorem bit_cases (b : BitVec 1) : b = 0 ∨ b = 1 := by
  rcases BitVec.eq_zero_or_eq_one b with h | h <;> simp [h]

theorem ne_one_of_zero {b : BitVec 1} (h : b = 0) : b ≠ 1 := by rw [h]; decide
theorem ne_zero_of_one {b : BitVec 1} (h : b = 1) : b ≠ 0 := by rw [h]; decide

/-- `MemWrite` lays its bytes. -/
theorem laid_memWrite (m : Memory) (a : Nat) (b : List Byte) : Laid m a b (memWrite m a b) := fun x =>
  read_memWrite b m a x

/-- A command made of the common checks and a rest. -/
theorem guarded {i : Instr} {word : BitVec 16} {ok : Bool} {operandOk : Prop} {s rest : State} {body : Prop}
    (he : encode i = .command word) (h : exec i s = .next (commonChecks ok s rest)) (hok : ok = true ↔ operandOk)
    (hbody : s.fault = 0 → operandOk → exec i s = .next rest → body) : Guarded i word operandOk s body := by
  refine ⟨he, fun hf => ?_, fun hf ho => ?_, fun hf ho => ?_⟩
  · rw [EndsWith, h, commonChecks_latched _ _ hf]; rfl
  · cases ok
    · rw [EndsWith, h, commonChecks_malformed _ (ne_one_of_zero hf)]; rfl
    · exact absurd (hok.mp rfl) ho
  · cases ok
    · exact absurd (hok.mpr ho) (by decide)
    · exact hbody hf ho (by rw [h, commonChecks_accepted _ (ne_one_of_zero hf)])

theorem appends_emit {i : Instr} {b : List Byte} {s : State} (h : exec i s = .next (emit b s)) : Appends i b s :=
  ⟨_, laid_memWrite _ _ _, h⟩

/-- A command that ends in `EncFixed`. -/
theorem encodesFixed {i : Instr} {word : BitVec 16} {b : List Byte} {s : State}
    (h : exec i s = .next (encFixed word b s)) : EncodesFixed i word b s := by
  refine ⟨fun hv => ?_, fun hv hr => ?_, fun hv hr => ?_⟩
  · rw [Faults, h, encFixed_absent _ _ hv]; rfl
  · rw [EndsWith, h, encFixed_noRoom _ _ (ne_zero_of_one hv) hr]; rfl
  · exact appends_emit (by rw [h, encFixed_room _ _ (ne_zero_of_one hv) hr])

/-- A command that begins with `DecFixed`. -/
theorem decodesFixed {i : Instr} {n : Nat} {s t : State} {k : List Byte → State → State}
    (h : exec i s = .next (decFixed n s k))
    (hk : k (memRead s.ib s.ibPtr.toNat n) (consume n s) = consumed n s t) : DecodesFixed i n s t := by
  refine ⟨fun hv => ?_, fun hv hr => ?_, fun hv hr => ?_⟩
  · rw [EndsWith, h, decFixed_absent _ _ hv]; rfl
  · rw [EndsWith, h, decFixed_short _ _ (ne_zero_of_one hv) hr]; rfl
  · rw [h, decFixed_there _ _ (ne_zero_of_one hv) hr, hk]

/-! ### The operand forms as propositions -/

theorem operandNone_iff (op : Byte) : operandNone op = true ↔ op = 0 := by simp [operandNone]

theorem operandIdx_iff (n : Nat) (i : Byte) : operandIdx n i = true ↔ i.toNat < n := by simp [operandIdx]

theorem selectsLdu_iff (k : BitVec 2) : selectsLdu k = true ↔ k = 1 ∨ k = 2 := by simp [selectsLdu]

theorem operandSelK_iff (k j : BitVec 2) (i : BitVec 4) : operandSelK k j i = true ↔ selectsK k j i := by
  simp [operandSelK, selectsLdu, selectsK, and_assoc]

theorem operandSelKI_iff (k j : BitVec 2) (i : BitVec 4) :
    operandSelKI k j i = true ↔ (k = 1 ∨ k = 2) ∧ j = 0 ∧ i.toNat ≤ 8 := by
  simp [operandSelKI, selectsLdu, and_assoc]

theorem operandSelKJI_iff (k j : BitVec 2) (i : BitVec 4) :
    operandSelKJI k j i = true ↔ (k = 1 ∨ k = 2) ∧ j.toNat < 3 ∧ i.toNat ≤ 8 := by
  simp [operandSelKJI, selectsLdu, and_assoc]

theorem inputBytes_eq (s : State) (a n : Nat) : inputBytes s a n = memRead s.ib (s.ibPtr.toNat + a) n := by
  simp [inputBytes, inputByte, memRead, Nat.add_assoc]

end Sys2Proof.Claims
end

