-- ==== Sys2Proof/Laws/Decode.lean ====
section
/-! SUPPORT. Command words and their fields, the bytes of multi-byte fields, and byte strings taken apart. -/

namespace Sys2Proof.Claims

open Sys2Proof.Machine

/-! ### Command words -/

theorem toNat_wordOf (a b : Byte) : (wordOf a b).toNat = a.toNat * 256 + b.toNat := toNat_append_add a b

theorem toNat_opcodeOf (w : CmdWord) : (opcodeOf w).toNat = w.toNat / 256 := by
  have := w.isLt
  rw [opcodeOf, BitVec.extractLsb'_toNat, Nat.shiftRight_eq_div_pow]; omega

theorem toNat_operandOf (w : CmdWord) : (operandOf w).toNat = w.toNat % 256 := by
  rw [operandOf, BitVec.extractLsb'_toNat, Nat.shiftRight_eq_div_pow]; omega

theorem opcodeOf_wordOf (a b : Byte) : opcodeOf (wordOf a b) = a := by
  apply BitVec.eq_of_toNat_eq; have := b.isLt; rw [toNat_opcodeOf, toNat_wordOf]; omega

theorem operandOf_wordOf (a b : Byte) : operandOf (wordOf a b) = b := by
  apply BitVec.eq_of_toNat_eq; have := b.isLt; rw [toNat_operandOf, toNat_wordOf]; omega

theorem wordOf_opcodeOf_operandOf (w : CmdWord) : wordOf (opcodeOf w) (operandOf w) = w := by
  apply BitVec.eq_of_toNat_eq; rw [toNat_wordOf, toNat_operandOf, toNat_opcodeOf]; omega

theorem selK_selOperand (k j : BitVec 2) (i : BitVec 4) : selK (selOperand k j i) = k := by
  revert k j i; decide

theorem selJ_selOperand (k j : BitVec 2) (i : BitVec 4) : selJ (selOperand k j i) = j := by
  revert k j i; decide

theorem selI_selOperand (k j : BitVec 2) (i : BitVec 4) : selI (selOperand k j i) = i := by
  revert k j i; decide

theorem selOperand_sel (x : Byte) : selOperand (selK x) (selJ x) (selI x) = x := by
  revert x; decide

/-- A command encodes to the word that it came from. -/
theorem encode_commandOfOpcode (o x : Byte) (i : Instr) (h : commandOfOpcode o x = .ok i) :
    encode i = .command (wordOf o x) ∧ i.wellFormed = true := by
  unfold commandOfOpcode at h
  have e : o = BitVec.ofNat 8 o.toNat := by simp
  generalize hn : o.toNat = n at h e
  subst e
  split at h <;> first | cases h
  all_goals first
    | exact ⟨rfl, rfl⟩
    | (refine ⟨?_, rfl⟩; show Encoding.command (wordOf _ (selOperand _ _ _)) = _; rw [selOperand_sel])

/-- The opcodes that have a command. -/
theorem commandOfOpcode_ok_iff (o x : Byte) : (∃ i, commandOfOpcode o x = .ok i) ↔ o.toNat ∈ opcodes := by
  constructor
  · rintro ⟨i, h⟩
    unfold commandOfOpcode at h
    split at h <;> first | cases h
    all_goals (rename_i hh; rw [hh]; decide)
  · intro h
    unfold commandOfOpcode
    simp only [opcodes, List.mem_cons, List.not_mem_nil, or_false] at h
    rcases h with h|h|h|h|h|h|h|h|h|h|h|h|h|h|h|h|h|h|h|h|h|h|h|h|h|h|h|h|h|h <;> rw [h] <;> exact ⟨_, rfl⟩

/-! ### Bytes of fields -/

theorem bytes24_append (d : BitVec 24) : d.extractLsb' 16 8 ++ d.extractLsb' 8 8 ++ d.extractLsb' 0 8 = d := by
  apply BitVec.eq_of_toNat_eq
  have := d.isLt
  simp only [toNat_append_add, BitVec.extractLsb'_toNat, Nat.shiftRight_eq_div_pow]
  omega

theorem bytes16_append (d : BitVec 16) : d.extractLsb' 8 8 ++ d.extractLsb' 0 8 = d := by
  apply BitVec.eq_of_toNat_eq
  have := d.isLt
  rw [toNat_append_add]
  simp only [BitVec.extractLsb'_toNat, Nat.shiftRight_eq_div_pow]
  omega

theorem bytes24_of_append (x y z : Byte) : bytes24 (x ++ y ++ z) = [x, y, z] := by
  have := x.isLt
  have := y.isLt
  have := z.isLt
  simp only [bytes24, List.cons.injEq, and_true]
  refine ⟨?_, ?_, ?_⟩ <;> apply BitVec.eq_of_toNat_eq <;>
    rw [BitVec.extractLsb'_toNat, toNat_append_add, toNat_append_add, Nat.shiftRight_eq_div_pow] <;> omega

theorem bytes16_of_append (x y : Byte) : bytes16 (x ++ y) = [x, y] := by
  have := x.isLt
  have := y.isLt
  simp only [bytes16, List.cons.injEq, and_true]
  refine ⟨?_, ?_⟩ <;> apply BitVec.eq_of_toNat_eq <;>
    rw [BitVec.extractLsb'_toNat, toNat_append_add, Nat.shiftRight_eq_div_pow] <;> omega

/-- A codeword, byte by byte. -/
theorem codeword_bytes (c : List Byte) (h : c.length = 11) :
    ∃ a0 a1 a2 a3 a4 a5 a6 a7 a8 a9 a10, c = [a0, a1, a2, a3, a4, a5, a6, a7, a8, a9, a10] := by
  match c, h with
  | [a0, a1, a2, a3, a4, a5, a6, a7, a8, a9, a10], _ => exact ⟨_, _, _, _, _, _, _, _, _, _, _, rfl⟩

/-- A byte string taken apart at a length it has. -/
theorem split_at_length (f : List Byte) (n : Nat) (h : n ≤ f.length) : ∃ g r, f = g ++ r ∧ g.length = n :=
  ⟨f.take n, f.drop n, (List.take_append_drop n f).symm, by rw [List.length_take]; omega⟩

end Sys2Proof.Claims
end

