-- ==== Sys2Proof/Laws/Descriptor.lean ====
section
/-! SUPPORT. The bit-packer's descriptor (40_bitpack.md R115): its test, and Pack of its fields as one number. -/

namespace Sys2Proof.Claims

open Sys2Proof.Machine

theorem totalWidth_sum (ws : List Nat) : totalWidth ws = ws.sum := rfl

/-- R115. -/
theorem descriptor_iff (bp : BitPacker) : bp.wellFormed = true ↔ descriptorOk bp := by
  simp only [BitPacker.wellFormed, Bool.and_eq_true, decide_eq_true_eq, List.all_eq_true, descriptorOk,
     BitPacker.widths, List.mem_map, List.mem_range, forall_exists_index, and_imp, forall_apply_eq_imp_iff₂,
         totalWidth_sum]
  exact ⟨fun ⟨⟨⟨⟨a,b⟩,c⟩,d⟩,e⟩ => ⟨a,b,c,of_decide_eq_true d,of_decide_eq_true e⟩,
      fun ⟨a,b,c,d,e⟩ => ⟨⟨⟨⟨a,b⟩,c⟩,decide_eq_true d⟩,decide_eq_true e⟩⟩

theorem fieldSum_append (fs gs : List (Nat × Nat)) (a : Nat) : fieldSum a (fs ++ gs) = fieldSum (fieldSum a fs) gs := by
  simp [fieldSum]

theorem bigEndian_eq (n a : Nat) : bytesOfNat n a = bigEndian n a := by
  apply List.ext_getElem (by simp [bigEndian])
  intro t h1 h2
  have ht : t < n := by simpa using h1
  rw [← List.getD_eq_getElem _ 0 h1, getD_bytesOfNat _ _ _ ht]
  simp [bigEndian]

theorem sum_drop_range (w : Nat → Nat) (n i : Nat) (h : i < n) :
    (((List.range (n+1)).drop (i+1)).map w).sum = (((List.range n).drop (i+1)).map w).sum + w n := by
  rw [List.range_succ, List.drop_append_of_le_length (by simp; omega)]
  simp

/-- The packed number as a sum over the fields. -/
theorem fieldSum_eq_sum (w v : Nat → Nat) (n : Nat) :
    fieldSum 0 ((List.range n).map (fun i => (w i, v i)))
     = ((List.range n).map (fun i => v i % 2 ^ w i * 2 ^ (((List.range n).drop (i+1)).map w).sum)).sum := by
  induction n with
  | zero => rfl
  | succ n ih =>
    rw [List.range_succ, List.map_append, fieldSum_append, ih, List.map_append, List.sum_append]
    simp only [List.map_cons, List.map_nil, fieldSum_cons, fieldSum_nil, List.sum_cons, List.sum_nil]
    congr 1
    · rw [← List.sum_map_mul_right]
      apply congrArg
      apply List.map_congr_left
      intro i hi
      have hi := List.mem_range.mp hi
      rw [← List.range_succ, sum_drop_range _ _ _ hi, Nat.pow_add, Nat.mul_assoc]
    · rw [← List.range_succ, List.drop_eq_nil_of_le (by simp)]; simp

/-- The bytes that BP.PACK writes. -/
theorem pack_fields (bp : BitPacker) : pack bp.fields = bigEndian (fieldTotal bp / 8) (fieldNumber bp) := by
  rw [pack, bigEndian_eq, packAcc_eq]
  congr 1
  · congr 1
    simp [BitPacker.fields, totalWidth_sum, fieldTotal]; rfl
  · exact fieldSum_eq_sum _ _ _

theorem byteSum_append (bs cs : List Byte) (a : Nat) : byteSum a (bs ++ cs) = byteSum (byteSum a bs) cs := by
  simp [byteSum]

/-- The number of a byte string as a sum over its bytes. -/
theorem byteSum_eq_sum (f : Nat → Byte) (n : Nat) :
    byteSum 0 ((List.range n).map f) = ((List.range n).map (fun b => (f b).toNat * 256 ^ (n - 1 - b))).sum := by
  induction n with
  | zero => rfl
  | succ n ih =>
    rw [List.range_succ, List.map_append, byteSum_append, ih, List.map_append, List.sum_append]
    simp only [List.map_cons, List.map_nil, byteSum_cons, byteSum_nil, List.sum_cons, List.sum_nil]
    congr 1
    · rw [← List.sum_map_mul_right]
      apply congrArg
      apply List.map_congr_left
      intro i hi
      have hi := List.mem_range.mp hi
      rw [show n + 1 - 1 - i = (n - 1 - i) + 1 by omega, Nat.pow_succ, Nat.mul_assoc]
    · simp

end Sys2Proof.Claims
end

