-- ==== Sys2Proof/Laws/SubFrame.lean ====
section
/-! SUPPORT. Sub-frames (41_dfsi_subframe.md): the bytes that are built, the lengths by type, what decoding answers and how the
format it answers acts. -/

namespace Sys2Proof.Claims

open Sys2Proof.Machine

/-- A byte of the low 24 bits. -/
theorem id24 (v : BitVec 32) (a : Nat) (h : a + 8 ≤ 24) : (v.setWidth 24).extractLsb' a 8 = v.extractLsb' a 8 := by
  apply BitVec.eq_of_getLsbD_eq
  intro i hi
  simp [BitVec.getLsbD_setWidth, hi]
  omega

/-- The sub-frame that is built, byte by byte. -/
theorem subFrame_eq (ft : Nat) (h : isFrameType ft) (cd : CallData) (c : List Byte) :
    subFrame ft cd c = sfBytes ft cd c := by
  obtain ⟨h1, h2⟩ := h
  interval_cases ft <;> first | rfl | (simp only [subFrame, voiceOf, Option.map, encode, bytes24]; rw [id24 _ _ (by decide), id24 _ _ (by decide), id24 _ _ (by decide)]; rfl)

theorem length_sfBytes (ft : Nat) (h : isFrameType ft) (cd : CallData) (c : List Byte) (hc : c.length = 11) :
    (sfBytes ft cd c).length = sfLength ft := by
  obtain ⟨h1, h2⟩ := h
  interval_cases ft <;> simp [sfBytes, sfLength, hc]

theorem sfLen_eq (ft : Nat) (h : isFrameType ft) : Config.sfLen ft = sfLength ft := by
  obtain ⟨h1, h2⟩ := h
  interval_cases ft <;> rfl

theorem sfImbe_eq (ft : Nat) (h : isFrameType ft) : Config.sfImbe ft = sfCodeword ft := by
  obtain ⟨h1, h2⟩ := h
  interval_cases ft <;> rfl

theorem validFrameType_iff (ft : Byte) : validFrameType ft = true ↔ isFrameType ft.toNat := by
  simp [validFrameType, isFrameType]

/-- A format whose meaning is `execVoice` acts as its sub-frame. -/
theorem actsAsSubFrame {v : Instr} {ft : Nat} {upd} {c : List Byte} {s : State} {cd : CallData} {f : List Byte} {n : Nat}
    (h : exec v s = execVoice ft upd c s) (hcd : upd s.cd = cd) (hf : isFrameType ft) (hn : n = sfLength ft)
    (he : encode v = .subFrame f) (hl : f.length = n) : ActsAsSubFrame v ft n f c cd s := by
  subst hn; subst hcd
  rw [execVoice, sfLen_eq _ hf] at h
  refine ⟨he, hl, fun hv => ?_, fun h0 hv => ?_, fun h0 hv hr => ?_, fun h0 hv hr => ?_⟩
  · rw [EndsWith, h, commonChecks_latched _ _ hv]; rfl
  · rw [EndsWith, h, commonChecks_accepted _ (ne_one_of_zero h0), if_pos hv]; rfl
  · rw [EndsWith, h, commonChecks_accepted _ (ne_one_of_zero h0), if_neg (ne_zero_of_one hv), if_pos hr]; rfl
  · refine ⟨_, laid_memWrite _ _ _, ?_⟩
    rw [h, commonChecks_accepted _ (ne_one_of_zero h0), if_neg (ne_zero_of_one hv), if_neg (by omega), unpackSubFrame,
      sfLen_eq _ hf]
    rfl


/-! ### Bytes of a memory -/

theorem byteAt_memRead (m : Memory) (a n t : Nat) (h : t < n) : byteAt (memRead m a n) t = Memory.read m (a + t) := by
  rw [byteAt, getD_memRead, if_pos h]

theorem slice_memRead (m : Memory) (a n b k : Nat) (h : b + k ≤ n) :
    slice (memRead m a n) b k = memRead m (a + b) k := by
  apply List.ext_getElem
  · simp [slice]; omega
  · intro t h1 h2
    simp [slice, memRead, Nat.add_assoc]

theorem drop_memRead (m : Memory) (a n b : Nat) : (memRead m a n).drop b = memRead m (a + b) (n - b) := by
  apply List.ext_getElem
  · simp
  · intro t h1 h2
    simp [memRead, Nat.add_assoc]

/-! ### Decoding a sub-frame -/

theorem voiceOfBytes_none {ft : Nat} (h : ¬ isFrameType ft) (f : List Byte) : voiceOfBytes ft f = none := by
  unfold voiceOfBytes
  split <;> first | rfl | exact absurd (by constructor <;> decide) h

/-- A valid type decodes to a format that acts by its metadata and codeword, on its own and under DFSI.DEC. -/
theorem voiceOfBytes_some {ft : Nat} (h : isFrameType ft) (f : List Byte) :
    ∃ v, voiceOfBytes ft f = some v
      ∧ ∀ s, exec v s = execVoice ft (sfMetadata ft (byteAt f)) (codewordOf ft f) s ∧ execSubFrame v s = exec v s := by
  obtain ⟨h1, h2⟩ := h
  interval_cases ft <;> exact ⟨_, rfl, fun s => ⟨rfl, rfl⟩⟩

theorem decodeSubFrame_nil : decodeSubFrame [] = .error .noDiscriminant := rfl

theorem decodeSubFrame_invalid {f : List Byte} (hf : 0 < f.length) (h : ¬ isFrameType (f.getD 0 0).toNat) :
    decodeSubFrame f = .error (.invalidFrameType (f.getD 0 0)) := by
  cases f with
  | nil => simp at hf
  | cons ft f =>
    simp only [List.getD_cons_zero] at h ⊢
    simp only [decodeSubFrame, voiceOfBytes_none h]

theorem decodeSubFrame_short {f : List Byte} (hf : 0 < f.length) (h : isFrameType (f.getD 0 0).toNat)
    (hl : f.length < sfLength (f.getD 0 0).toNat) : decodeSubFrame f = .error (.shortSubFrame (f.getD 0 0)) := by
  cases f with
  | nil => simp at hf
  | cons ft f =>
    simp only [List.getD_cons_zero] at h hl ⊢
    obtain ⟨v, hv, -⟩ := voiceOfBytes_some h (ft :: f)
    simp only [decodeSubFrame, hv, sfLen_eq _ h, if_pos hl]

theorem sfLength_pos (ft : Nat) : 0 < sfLength ft := by unfold sfLength; split <;> decide

theorem decodeSubFrame_valid {f : List Byte} (h : isFrameType (f.getD 0 0).toNat)
    (hl : sfLength (f.getD 0 0).toNat ≤ f.length) :
    ∃ v, decodeSubFrame f = .ok v ∧ voiceOfBytes (f.getD 0 0).toNat f = some v := by
  cases f with
  | nil => simpa using Nat.lt_of_lt_of_le (sfLength_pos _) hl
  | cons ft f =>
    simp only [List.getD_cons_zero] at h hl ⊢
    obtain ⟨v, hv, -⟩ := voiceOfBytes_some h (ft :: f)
    exact ⟨v, by simp only [decodeSubFrame, hv, sfLen_eq _ h, if_neg (Nat.not_lt.mpr hl)], hv⟩

/-- All that decoding a sub-frame can answer. -/
theorem decodeSubFrame_ok {f : List Byte} {v : Instr} (h : decodeSubFrame f = .ok v) :
    isFrameType (f.getD 0 0).toNat ∧ sfLength (f.getD 0 0).toNat ≤ f.length
      ∧ voiceOfBytes (f.getD 0 0).toNat f = some v := by
  have hf : 0 < f.length := by
    cases f with
    | nil => simp [decodeSubFrame_nil] at h
    | cons => simp
  by_cases ht : isFrameType (f.getD 0 0).toNat
  · by_cases hl : sfLength (f.getD 0 0).toNat ≤ f.length
    · obtain ⟨w, hw, hv⟩ := decodeSubFrame_valid ht hl
      rw [hw] at h
      cases h
      exact ⟨ht, hl, hv⟩
    · rw [decodeSubFrame_short hf ht (by omega)] at h; cases h
  · rw [decodeSubFrame_invalid hf ht] at h; cases h

theorem getD_available (s : State) (h : s.ibPtr.toNat < s.ibLen.toNat) : (available s).getD 0 0 = inputByte s 0 := by
  have := byteAt_available s 0 (by omega)
  simpa [byteAt, inputByte] using this

theorem sfCodeword_le (ft : Nat) (h : isFrameType ft) : sfCodeword ft + 11 ≤ sfLength ft := by
  obtain ⟨h1, h2⟩ := h
  interval_cases ft <;> decide

/-- The metadata of a type reads no byte beyond its length. -/
theorem sfMetadata_congr {ft : Nat} (hf : isFrameType ft) {f g : Nat → Byte} (h : ∀ n, n < 7 ∧ n < sfLength ft → f n = g n)
    (cd : CallData) : sfMetadata ft f cd = sfMetadata ft g cd := by
  obtain ⟨h1, h2⟩ := hf
  interval_cases ft <;> simp only [sfMetadata, h 1 (by decide), h 2 (by decide), h 3 (by decide), h 6 (by decide)]

end Sys2Proof.Claims
end

