-- ==== Sys2Proof/Laws/Ldu.lean ====
section
/-! SUPPORT. LDU records (42_ldu.md): the marker test, what reassembly leaves in a buffer, the bytes of a composed
record. -/

namespace Sys2Proof.Claims

open Sys2Proof.Machine

theorem frameType_eq {k : BitVec 2} (hk : k = 1 ∨ k = 2) (i : Nat) : frameTypeOf k.toNat i = frameTypeAt k i := by
  rcases hk with rfl | rfl <;> simp [frameTypeOf, frameTypeAt]

/-- `Valid(k, rec)` of the record at the cursor. -/
theorem valid_iff {k : BitVec 2} (hk : k = 1 ∨ k = 2) (s : State) :
    validRecord k.toNat (memRead s.ib s.ibPtr.toNat 154) = true ↔ validAtCursor k s := by
  simp only [validRecord, List.all_eq_true, List.mem_range, beq_iff_eq, validAtCursor, frameType_eq hk]
  constructor <;> intro h i hi
  · rw [← h i hi, byteAt_memRead]
    · rfl
    · interval_cases i <;> decide
  · rw [byteAt_memRead]
    · exact h i hi
    · interval_cases i <;> decide

/-- A command that begins by fetching the record. -/
theorem withRecord {i : Instr} {s : State} {body : Prop} {f : List Byte → State}
    (h : exec i s = .next (match recordAtCursor s with
      | .error c => endWith c s
      | .ok rec => f rec))
    (hb : exec i s = .next (f (memRead s.ib s.ibPtr.toNat 154)) → body) : WithRecord i s body := by
  rcases recordAtCursor_cases s with ⟨hv, hr⟩ | ⟨hv, hl, hr⟩ | ⟨hv, hl, hr⟩
  · exact ⟨fun _ => by rw [EndsWith, h, hr]; rfl, fun h1 => absurd h1 (by rw [hv]; decide),
      fun h1 => absurd h1 (by rw [hv]; decide)⟩
  · exact ⟨fun h1 => absurd h1 hv, fun _ _ => by rw [EndsWith, h, hr]; rfl, fun _ h1 => absurd h1 (by omega)⟩
  · exact ⟨fun h1 => absurd h1 hv, fun _ h1 => absurd h1 (by omega), fun _ _ => hb (by rw [h, hr])⟩

/-- What the first `n` chunks leave in the buffer. -/
theorem read_reassemble (rec : List Byte) (m : Memory) (hrec : rec.length = 154) (n : Nat) (hn : n ≤ 9) (x : Nat) :
    Memory.read ((List.range n).foldl (fun m i => memWrite m (Config.doff i) (slice rec (Config.moff i)
        (Config.clen i))) m) x
     = if x < 25 * n ∧ x % 25 < chunkLength (x / 25) then rec.getD (recordOffset (x / 25) + x % 25) 0
         else Memory.read m x := by
  induction n with
  | zero => simp
  | succ n ih =>
    rw [List.range_succ, List.foldl_append, List.foldl_cons, List.foldl_nil, read_memWrite, ih (by omega)]
    have hn9 : n < 9 := by omega
    have hd : Config.doff n = 25 * n := by interval_cases n <;> rfl
    have hc : Config.clen n = chunkLength n := rfl
    have hm : Config.moff n = recordOffset n := rfl
    have hcl : chunkLength n ≤ 25 ∧ recordOffset n + chunkLength n ≤ 154 := by interval_cases n <;> decide
    have hlen : (slice rec (recordOffset n) (chunkLength n)).length = chunkLength n := by
      simp [slice, hrec]; omega
    rw [hd, hc, hm, hlen]
    by_cases hx : 25 * n ≤ x ∧ x < 25 * n + chunkLength n
    · have hq : x / 25 = n := by omega
      rw [if_pos hx, if_pos (by rw [hq]; omega), hq]
      have : x % 25 = x - 25 * n := by omega
      rw [this, slice, List.getD_eq_getElem?_getD, List.getElem?_take, if_pos (by omega), List.getElem?_drop,
          List.getD_eq_getElem?_getD]
    · rw [if_neg hx]
      by_cases hq : x / 25 = n
      · rw [if_neg (by omega), if_neg (by rw [hq]; omega)]
      · by_cases hlt : x < 25 * n
        · have : x < 25 * (n + 1) := by omega
          simp only [hlt, this, true_and]
        · rw [if_neg (by omega), if_neg (by omega)]

/-- All that reassembly does to a buffer. -/
theorem reassembled (s : State) (m : Memory) :
    Reassembled s m (reassemble (memRead s.ib s.ibPtr.toNat 154) m) := by
  intro x
  rw [reassemble, read_reassemble _ _ (by simp) 9 (by decide)]
  by_cases hx : x < 216 ∧ x % 25 < chunkLength (x / 25)
  · have hb : recordOffset (x / 25) + chunkLength (x / 25) ≤ 154 := by
      have : x / 25 < 9 := by omega
      generalize x / 25 = q at *
      interval_cases q <;> decide
    rw [if_pos hx, if_pos ⟨by omega, hx.2⟩, getD_memRead, if_pos (by omega)]; rfl
  · rw [if_neg hx]
    apply if_neg
    intro h
    apply hx
    refine ⟨?_, h.2⟩
    by_contra hge
    have : x / 25 = 8 := by omega
    rw [this] at h
    have : chunkLength 8 = 16 := rfl
    omega

theorem isFrameType_at (k : BitVec 2) {i : Nat} (hi : i < 9) : isFrameType (frameTypeAt k i) := by
    unfold frameTypeAt; split <;> constructor <;> omega

/-- The nine composed sub-frames. -/
theorem composedFrames_eq {k : BitVec 2} (hk : k = 1 ∨ k = 2) (s : State) :
    composedFrames k.toNat s.cd (s.ldu k) = composedBytes k s := by
  rw [composedFrames, composedBytes, List.flatMap_def, List.flatMap_def]
  congr 1
  apply List.map_congr_left
  intro i hi
  have hi : i < 9 := List.mem_range.mp hi
  have hf : isFrameType (frameTypeAt k i) := by
    unfold frameTypeAt; split <;> constructor <;> omega
  rw [frameType_eq hk, subFrame_eq _ hf]
  rfl

theorem length_composed {k : BitVec 2} (hk : k = 1 ∨ k = 2) (s : State) : (composedBytes k s).length = 154 := by
  rw [composedBytes, List.length_flatMap]
  have : (List.range 9).map (fun i => (sfBytes (frameTypeAt k i) s.cd (memRead (lduBuffer s k)
      (bufferCodeword i) 11)).length)
     = (List.range 9).map (fun i => sfLength (frameTypeAt k i)) :=
    List.map_congr_left (fun i hi => length_sfBytes _ (isFrameType_at k (List.mem_range.mp hi)) _ _ (by simp))
  rw [this]
  rcases hk with rfl | rfl <;> rfl

/-- Running one list of instructions and then another. -/
theorem runAll_append (a b : List Instr) (s t : State) (h : runAll a s = .next t) : runAll (a ++ b) s = runAll b t := by
  induction a generalizing s with
  | nil => cases h; rfl
  | cons i a ih =>
    rw [List.cons_append]
    rw [runAll.eq_2] at h ⊢
    cases hx : exec i s with
    | next u => rw [hx] at h; exact ih u h
    | fault r => rw [hx] at h; cases h
    | refused r => rw [hx] at h; cases h

end Sys2Proof.Claims
end

