-- ==== Sys2Proof/Laws/Payload.lean ====
section
/-! SUPPORT. The payload (44_issi_payload.md): the tests on the record, its bytes and their number, and what parsing
answers. -/

namespace Sys2Proof.Claims

open Sys2Proof.Machine

theorem pt_mod (v : Nat) : v &&& 0x7F = v % 128 := Nat.and_two_pow_sub_one_eq_mod v 7

theorem bounded_iff (s : State) : payloadBounded s = true ↔ recordBounded s := by simp [payloadBounded, recordBounded]

/-- The parameters that are not OPEN satisfy R6's constraints in every configuration. -/
theorem constraintsHold_paramsFor (o : Config.OpenParams) : (Config.paramsFor o).constraintsHold = o.constraintsHold :=
  Bool.and_true _

/-- The two packet types of an admissible configuration differ (R6). -/
theorem start_ne_progress {s : State} (h : s.params.constraintsHold = true) : s.cfg.ptStart ≠ s.cfg.ptProgress := by
  rw [State.params, constraintsHold_paramsFor] at h
  simp only [Config.OpenParams.constraintsHold, Bool.and_eq_true, bne_iff_ne] at h
  exact Ne.symm h.1.1.1.1

/-- The test of PL.ENC. -/
theorem wf_iff (s : State) : payloadWellFormed s = true ↔ recordOk s := by
  simp only [payloadWellFormed, Bool.and_eq_true, bounded_iff, recordOk, recordStarts, recordProgresses, isStart, isProg, pt_mod]
  have e : ∀ x, s.hdr.pktPt.toNat % 128 = x ↔ (s.hdr.pktPt.toNat % 128 == x) = true := fun x => beq_iff_eq.symm
  rw [e s.cfg.ptStart, e s.cfg.ptProgress]
  generalize (s.hdr.pktPt.toNat % 128 == s.cfg.ptStart) = start, (s.hdr.pktPt.toNat % 128 == s.cfg.ptProgress) = progress
  rcases bit_cases s.ptt.present with hp | hp <;> rcases bit_cases s.hdr.frhPresent with hf | hf <;>
  cases start <;> cases progress <;> simp [hp, hf]

/-- The bytes that PL.ENC writes. -/
theorem recordBytes_eq (s : State) : payloadBytes s = recordBytes s := by
  simp only [payloadBytes, recordBytes, ctlBytes_eq, bhBytes_eq, pktBytes_eq, pttBytes_eq, frvFixed_eq, isStart,
      isProg, pt_mod, beq_iff_eq]
  rfl

/-- R202. -/
theorem length_recordBytes (s : State) (h : recordOk s) : (recordBytes s).length = recordSize s := by
  obtain ⟨-, w1, w2, w3, w4⟩ := h
  have l1 : ∀ b, (wireBh b).length = 4 := fun b => rfl
  have l2 : ∀ v, (wireVoice v).length = 14 := fun v => by simp [wireVoice]
  have e1 : (if s.hdr.pktPt.toNat % 128 = s.cfg.ptStart then wirePtt s.ptt else []).length
      = if s.ptt.present = 1 then 8 else 0 := by
    simp only [w1, recordStarts]
    split <;> rfl
  have e2 : (wireCtl s.hdr).length = 1 := rfl
  have e3 : (wirePkt s.hdr).length = 4 := rfl
  simp only [recordBytes, List.length_append, e1, e2, e3, length_memRead, recordSize, List.length_flatMap, l1]
  by_cases h : s.hdr.pktPt.toNat % 128 = s.cfg.ptProgress
  · rw [if_pos h, if_pos (w2.mpr h)]
    simp [List.length_flatMap, l2, Nat.add_assoc, Nat.mul_comm]; omega
  · rw [if_neg h, if_neg (fun hh => h (w2.mp hh)), w3 h]
    simp [Nat.mul_comm]

theorem takeBytes_memRead (m : Memory) (a n k : Nat) :
    takeBytes k (memRead m a n) = if n < k then .error .errShort else .ok (memRead m a k,
        memRead m (a + k) (n - k)) := by
  unfold takeBytes
  rw [length_memRead]
  by_cases h : n < k
  · rw [if_pos h, if_pos h]
  · rw [if_neg h, if_neg h, drop_memRead]
    congr 2
    apply List.ext_getElem
    · simp; omega
    · intro t _ _; simp [memRead]

theorem takeBlocks_memRead (m : Memory) (a n k c : Nat) :
    takeBlocks k c (memRead m a n) = if n < k * c then .error .errShort else
      .ok ((List.range c).map (fun i => memRead m (a + k * i) k), memRead m (a + k * c) (n - k * c)) := by
  induction c generalizing a n with
  | zero => simp [takeBlocks]
  | succ c ih =>
    rw [takeBlocks, takeBytes_memRead]
    have hk : k * (c + 1) = k * c + k := Nat.mul_succ k c
    by_cases h : n < k
    · rw [if_pos h, if_pos (by omega)]; rfl
    · rw [if_neg h]
      show (takeBlocks k c (memRead m (a + k) (n - k)) >>= fun x => _) = _
      rw [ih]
      by_cases h2 : n - k < k * c
      · rw [if_pos h2, if_pos (by omega)]; rfl
      · rw [if_neg h2, if_neg (by omega)]
        show Except.ok _ = Except.ok _
        congr 2
        · rw [List.range_succ_eq_map, List.map_cons, List.map_map]
          congr 1
          apply List.map_congr_left
          intro i _
          simp only [Function.comp_apply]
          rw [show i.succ = i + 1 from rfl, Nat.mul_succ]
          congr 1; omega
        · rw [show a + k + k * c = a + k * (c+1) by omega, show n - k - k * c = n - k * (c + 1) by omega]

theorem headerCountOf_eq (b : Byte) : headerCountOf [b] = b.toNat % 64 := by
  have := b.isLt
  simp only [headerCountOf, unpack, natOfBytes_eq, ctlWidths, totalWidth_cons, totalWidth_nil, unpackFrom_cons,
    unpackFrom_nil, byteSum_cons, byteSum_nil, List.getD_cons_zero, List.getD_cons_succ]
  omega

theorem packetTypeOf_eq (b0 b1 b2 b3 : Byte) : packetTypeOf [b0, b1, b2, b3] = b0.toNat % 128 := by
  have := b0.isLt; have := b1.isLt; have := b2.isLt; have := b3.isLt
  simp only [packetTypeOf, unpack, natOfBytes_eq, pktWidths, totalWidth_cons, totalWidth_nil, unpackFrom_cons,
    unpackFrom_nil, byteSum_cons, byteSum_nil, List.getD_cons_zero, List.getD_cons_succ]
  omega

/-- The status of a parse that stops. -/
def statusOf (c : BitVec 8) : Status := if c = 0x12#8 then .errShort else .errCapacity

/-- The parts of the payload at the read cursor. -/
def partsOf (s : State) : PayloadParts :=
  { ctl := memRead s.ib s.ibPtr.toNat 1
    headers := (List.range (inputBhc s)).map (fun i => memRead s.ib (s.ibPtr.toNat + 1 + 4 * i) 4)
    pkt := memRead s.ib (s.ibPtr.toNat + inputPkt s) 4
    ptt := if inputType s = s.cfg.ptStart then some (memRead s.ib (s.ibPtr.toNat + inputPkt s + 4) 8) else none
    voice := if inputType s = s.cfg.ptProgress then some (inputByte s (inputPkt s + 4),
        (List.range (inputVbb s)).map (fun j => memRead s.ib (s.ibPtr.toNat + inputPkt s + 5 + 14 * j) 14)) else none
    rest := memRead s.ib (s.ibPtr.toNat + inputRest s) (inputLength s - inputRest s) }

/-- All that parsing the bytes at the read cursor answers. -/
theorem parse_eq (s : State) (hne : s.cfg.ptStart ≠ s.cfg.ptProgress) : parsePayload s.cfg (available s) =
    if inputStatus s = 0 then .ok (partsOf s) else .error (statusOf (inputStatus s)) := by
  have hav : available s = memRead s.ib s.ibPtr.toNat (inputLength s) := rfl
  rw [hav, parsePayload, takeBytes_memRead]
  unfold inputStatus
  by_cases h1 : inputLength s < 1
  · rw [if_pos h1, if_pos h1]; rfl
  rw [if_neg h1, if_neg h1]
  show (if headerCountOf (memRead s.ib s.ibPtr.toNat 1) > Config.nbh then _ else _) = _
  have hb : headerCountOf (memRead s.ib s.ibPtr.toNat 1) = inputBhc s := by rw [memRead_one, headerCountOf_eq]; rfl
  rw [hb]
  by_cases h2 : inputBhc s > 4
  · rw [if_pos h2, if_pos h2]; rfl
  rw [if_neg h2, if_neg h2, takeBlocks_memRead]
  have hp : inputPkt s = 1 + 4 * inputBhc s := rfl
  by_cases h3 : inputLength s - 1 < 4 * inputBhc s
  · rw [if_pos h3, if_pos (show inputLength s < inputPkt s + 4 by omega)]; rfl
  rw [if_neg h3]
  show (takeBytes _ _ >>= _) = _
  rw [takeBytes_memRead]
  by_cases h4 : inputLength s < inputPkt s + 4
  · rw [if_pos h4, if_pos (by simp only [Config.pktLen, Config.bhLen]; omega)]; rfl
  rw [if_neg h4, if_neg (by simp only [Config.pktLen, Config.bhLen]; omega)]
  show (takePtt _ _ _ >>= _) = _
  have ht : packetTypeOf (memRead s.ib
      (s.ibPtr.toNat + 1 + Config.bhLen * inputBhc s) Config.pktLen) = inputType s := by
    rw [memRead_four, packetTypeOf_eq, inputType, inputByte, hp, Nat.add_assoc]
  rw [ht]
  rw [show s.ibPtr.toNat + 1 + Config.bhLen * inputBhc s = s.ibPtr.toNat + inputPkt s by
      rw [hp]; simp only [Config.bhLen]; omega,
    show inputLength s - 1 - Config.bhLen * inputBhc s - Config.pktLen = inputLength s -
        (inputPkt s + 4) by rw [hp]; simp only [Config.bhLen, Config.pktLen]; omega]
  unfold takePtt
  by_cases t4 : inputType s = s.cfg.ptStart
  · have t2 : ¬ inputType s = s.cfg.ptProgress := fun h => hne (t4 ▸ h)
    have hr : inputRest s = inputPkt s + 4 + 8 := by rw [inputRest, if_pos t4]
    rw [if_pos t4, if_neg (show ¬ (inputType s = s.cfg.ptProgress ∧ inputLength s < inputPkt s + 5) by omega),
        if_neg (show ¬ (inputType s = s.cfg.ptProgress ∧ inputVbb s > 3) by omega)]
    show ((takeBytes _ _ >>= _) >>= _) = _
    rw [takeBytes_memRead]
    by_cases h5 : inputLength s < inputRest s
    · rw [if_pos (by simp only [Config.pttLen]; omega), if_pos h5]; rfl
    rw [if_neg (by simp only [Config.pttLen]; omega), if_neg h5]
    show (takeVoice _ _ _ >>= _) = _
    unfold takeVoice
    rw [if_neg t2]
    show (if (memRead s.ib _ _).length > Config.pafdMax then _ else _) = _
    rw [length_memRead]
    by_cases h6 : inputLength s - inputRest s > 64
    · rw [if_pos (by simp only [Config.pafdMax, Config.pttLen]; omega), if_pos h6]; rfl
    rw [if_neg (by simp only [Config.pafdMax, Config.pttLen]; omega), if_neg h6, if_pos rfl]
    rw [partsOf, if_pos t4, if_neg t2, hr]
    show Except.ok _ = Except.ok _
    congr 2
  · rw [if_neg t4]
    show (takeVoice _ _ _ >>= _) = _
    unfold takeVoice
    by_cases t2 : inputType s = s.cfg.ptProgress
    · have hr : inputRest s = inputPkt s + 4 + (1 + 14 * inputVbb s) := by rw [inputRest, if_neg t4, if_pos t2]
      rw [if_pos t2]
      show ((takeBytes _ _ >>= _) >>= _) = _
      rw [takeBytes_memRead]
      by_cases h5 : inputLength s < inputPkt s + 5
      · rw [if_pos (by simp only [Config.frhLen]; omega), if_pos
          (show inputType s = s.cfg.ptProgress ∧ inputLength s < inputPkt s + 5 from ⟨t2, h5⟩)]; rfl
      rw [if_neg (by simp only [Config.frhLen]; omega), if_neg (show ¬
          (inputType s = s.cfg.ptProgress ∧ inputLength s < inputPkt s + 5) by omega)]
      have hv : byteAt (memRead s.ib (s.ibPtr.toNat + inputPkt s + Config.pktLen) Config.frhLen) 0 = inputByte s
          (inputPkt s + 4) := by
        rw [byteAt_memRead _ _ _ _ (by decide), inputByte]; congr 1
      show ((if (byteAt (memRead s.ib
          (s.ibPtr.toNat + inputPkt s + Config.pktLen) Config.frhLen) 0).toNat > Config.nvb then _ else _) >>= _) = _
      rw [hv]
      change ((if inputVbb s > 3 then _ else _) >>= _) = _
      by_cases h6 : inputVbb s > 3
      · rw [if_pos h6, if_pos (show inputType s = s.cfg.ptProgress ∧ inputVbb s > 3 from ⟨t2, h6⟩)]; rfl
      rw [if_neg h6, if_neg (show ¬ (inputType s = s.cfg.ptProgress ∧ inputVbb s > 3) by omega)]
      rw [takeBlocks_memRead]
      change (((if inputLength s - (inputPkt s + 4) - 1 < 14 * inputVbb s then _ else _) >>= _) >>= _) = _
      by_cases h7 : inputLength s < inputRest s
      · rw [if_pos (by omega), if_pos h7]; rfl
      rw [if_neg (by omega), if_neg h7]
      show (if (memRead s.ib _ _).length > Config.pafdMax then _ else _) = _
      rw [length_memRead]
      change (if inputLength s - (inputPkt s + 4) - 1 - 14 * inputVbb s > 64 then _ else _) = _
      by_cases h8 : inputLength s - inputRest s > 64
      · rw [if_pos (by omega), if_pos h8]; rfl
      rw [if_neg (by omega), if_neg h8, if_pos rfl]
      rw [partsOf, if_neg t4, if_pos t2, hr]
      show Except.ok _ = Except.ok _
      congr 2
      show memRead s.ib (s.ibPtr.toNat + inputPkt s + 4 + 1 + 14 * inputVbb s) (inputLength s -
          (inputPkt s + 4) - 1 - 14 * inputVbb s) = _
      congr 1 <;> omega
    · have hr : inputRest s = inputPkt s + 4 := by rw [inputRest, if_neg t4, if_neg t2]
      rw [if_neg t2, if_neg (show ¬ (inputType s = s.cfg.ptProgress ∧ inputLength s < inputPkt s + 5) by omega),
          if_neg (show ¬ (inputType s = s.cfg.ptProgress ∧ inputVbb s > 3) by omega),
          if_neg (show ¬ inputLength s < inputRest s by omega)]
      show (if (memRead s.ib _ _).length > Config.pafdMax then _ else _) = _
      rw [length_memRead, hr]
      by_cases h8 : inputLength s - (inputPkt s + 4) > 64
      · rw [if_pos h8, if_pos h8]; rfl
      rw [if_neg h8, if_neg h8, if_pos rfl, partsOf, if_neg t4, if_neg t2, hr]
      rfl

/-- Voice slot k after the voice blocks are loaded from slot i on. -/
theorem getD_loadVoice (xs : List (List Byte)) (vb : Vector VoiceSlot 3) (i k : Nat) :
    (loadVoiceBlocks vb i xs).getD k VoiceSlot.reset =
      if i ≤ k ∧ k < i + xs.length ∧ k < 3 then
       { (vb.getD k VoiceSlot.reset).loadFixed (xs.getD (k - i) []) with afdLen := 0 }
           else vb.getD k VoiceSlot.reset := by
  induction xs generalizing vb i with
  | nil => simp only [loadVoiceBlocks, List.length_nil]; rw [if_neg (by omega)]
  | cons x xs ih =>
    rw [loadVoiceBlocks, ih, vector_getD_set, List.length_cons]
    by_cases h : i + 1 ≤ k ∧ k < i + 1 + xs.length ∧ k < 3
    · obtain ⟨t, ht⟩ : ∃ t, k - i = t + 1 := ⟨k - i - 1, by omega⟩
      rw [if_pos h, if_pos (show i ≤ k ∧ k < i + (xs.length + 1) ∧ k < 3 by omega), ht, List.getD_cons_succ,
          show k - (i + 1) = t by omega, if_neg (show ¬ (k = i ∧ i < 3) by omega)]
    · rw [if_neg h]
      by_cases hk : k = i ∧ i < 3
      · obtain ⟨rfl, hn⟩ := hk
        rw [if_pos ⟨rfl, hn⟩, if_pos (show k ≤ k ∧ k < k + (xs.length + 1) ∧ k < 3 by omega)]; simp
      · rw [if_neg hk, if_neg (show ¬ (i ≤ k ∧ k < i + (xs.length + 1) ∧ k < 3) by omega)]

end Sys2Proof.Claims
end

