-- ==== Sys2Proof/Laws/PerInstr.lean ====
section
/-! SUPPORT. Statements about every instruction as syntax, one lemma per constructor. `EncodedLength`: a well-formed
instruction encodes to one 16-bit command word and carries no codeword, or to a sub-frame that carries one and is as long
as its first byte says (30_encoding.md R80, R81, R87). -/

namespace Sys2Proof.Laws

/-- The kind and the length of the encoding of `i`. -/
def EncodedLength.Statement (i : Instr) : Prop :=
  i.wellFormed = true →
    match encode i with
    | .command _ => i.codeword? = none
    | .subFrame f =>
      i.codeword? ≠ none ∧ 0x62 ≤ (byteAt f 0).toNat ∧ (byteAt f 0).toNat ≤ 0x73
        ∧ f.length = Config.sfLen (byteAt f 0).toNat

/-- The length of a frame with as many metadata bytes as there is room for and a codeword of 11 bytes. -/
theorem length_frame (ft : Nat) (md c : List Byte) (hc : c.length = 11) (hm : md.length + 1 ≤ Config.sfImbe ft)
    (hl : Config.sfImbe ft + 11 ≤ Config.sfLen ft) : (frame ft md c).length = Config.sfLen ft := by
  simp only [frame, zeros, List.length_cons, List.length_append, List.length_replicate, hc, Config.imbeLen]
  omega

/-- A sub-frame format has the length of its type. -/
theorem encodedLength_frame {i : Instr} {ft : Nat} {md c : List Byte} (he : encode i = .subFrame (frame ft md c))
    (hi : i.codeword? = some c) (h1 : 0x62 ≤ ft) (h2 : ft ≤ 0x73) (hm : md.length + 1 ≤ Config.sfImbe ft)
    (hl : Config.sfImbe ft + 11 ≤ Config.sfLen ft) : EncodedLength.Statement i := by
  intro hw
  have hb : (byteAt (frame ft md c) 0).toNat = ft := by
    show (BitVec.ofNat 8 ft).toNat = ft
    rw [BitVec.toNat_ofNat]
    omega
  have hc : c.length = 11 := by simpa [Instr.wellFormed, hi] using hw
  rw [he]
  simp only [hb, hi]
  exact ⟨by simp, h1, h2, length_frame ft md c hc hm hl⟩

theorem EncodedLength.nop (operand : Byte) : EncodedLength.Statement (.nop operand) := fun _ => rfl
theorem EncodedLength.reset (operand : Byte) : EncodedLength.Statement (.reset operand) := fun _ => rfl
theorem EncodedLength.bpPack (operand : Byte) : EncodedLength.Statement (.bpPack operand) := fun _ => rfl
theorem EncodedLength.bpUnpack (operand : Byte) : EncodedLength.Statement (.bpUnpack operand) := fun _ => rfl
theorem EncodedLength.dfsiEnc (ft : Byte) : EncodedLength.Statement (.dfsiEnc ft) := fun _ => rfl
theorem EncodedLength.dfsiDec (operand : Byte) : EncodedLength.Statement (.dfsiDec operand) := fun _ => rfl
theorem EncodedLength.dfsiLen (ft : Byte) : EncodedLength.Statement (.dfsiLen ft) := fun _ => rfl
theorem EncodedLength.lduCheck (k : BitVec 2) (j : BitVec 2) (i : BitVec 4) :
    EncodedLength.Statement (.lduCheck k j i) := fun _ => rfl
theorem EncodedLength.lduReasm (k : BitVec 2) (j : BitVec 2) (i : BitVec 4) :
    EncodedLength.Statement (.lduReasm k j i) := fun _ => rfl
theorem EncodedLength.lduGetImbe (k : BitVec 2) (j : BitVec 2) (i : BitVec 4) :
    EncodedLength.Statement (.lduGetImbe k j i) := fun _ => rfl
theorem EncodedLength.lduCompose (k : BitVec 2) (j : BitVec 2) (i : BitVec 4) :
    EncodedLength.Statement (.lduCompose k j i) := fun _ => rfl
theorem EncodedLength.lduBegin (operand : Byte) : EncodedLength.Statement (.lduBegin operand) := fun _ => rfl
theorem EncodedLength.lduEnd (operand : Byte) : EncodedLength.Statement (.lduEnd operand) := fun _ => rfl
theorem EncodedLength.lduToVb (k : BitVec 2) (j : BitVec 2) (i : BitVec 4) :
    EncodedLength.Statement (.lduToVb k j i) := fun _ => rfl
theorem EncodedLength.ctlEnc (operand : Byte) : EncodedLength.Statement (.ctlEnc operand) := fun _ => rfl
theorem EncodedLength.ctlDec (operand : Byte) : EncodedLength.Statement (.ctlDec operand) := fun _ => rfl
theorem EncodedLength.bhEnc (slot : Byte) : EncodedLength.Statement (.bhEnc slot) := fun _ => rfl
theorem EncodedLength.bhDec (slot : Byte) : EncodedLength.Statement (.bhDec slot) := fun _ => rfl
theorem EncodedLength.pktEnc (operand : Byte) : EncodedLength.Statement (.pktEnc operand) := fun _ => rfl
theorem EncodedLength.pktDec (operand : Byte) : EncodedLength.Statement (.pktDec operand) := fun _ => rfl
theorem EncodedLength.pttEnc (operand : Byte) : EncodedLength.Statement (.pttEnc operand) := fun _ => rfl
theorem EncodedLength.pttDec (operand : Byte) : EncodedLength.Statement (.pttDec operand) := fun _ => rfl
theorem EncodedLength.frhEnc (operand : Byte) : EncodedLength.Statement (.frhEnc operand) := fun _ => rfl
theorem EncodedLength.frhDec (operand : Byte) : EncodedLength.Statement (.frhDec operand) := fun _ => rfl
theorem EncodedLength.frvEnc (slot : Byte) : EncodedLength.Statement (.frvEnc slot) := fun _ => rfl
theorem EncodedLength.frvDec (slot : Byte) : EncodedLength.Statement (.frvDec slot) := fun _ => rfl
theorem EncodedLength.frvSize (slot : Byte) : EncodedLength.Statement (.frvSize slot) := fun _ => rfl
theorem EncodedLength.plSize (operand : Byte) : EncodedLength.Statement (.plSize operand) := fun _ => rfl
theorem EncodedLength.plEnc (operand : Byte) : EncodedLength.Statement (.plEnc operand) := fun _ => rfl
theorem EncodedLength.plDec (operand : Byte) : EncodedLength.Statement (.plDec operand) := fun _ => rfl
theorem EncodedLength.voice1 (rssi : Byte) (imbe : List Byte) : EncodedLength.Statement (.voice1 rssi imbe) :=
  encodedLength_frame rfl rfl (by decide) (by decide) (by simp; decide) (by decide)
theorem EncodedLength.voice2 (imbe : List Byte) : EncodedLength.Statement (.voice2 imbe) :=
  encodedLength_frame rfl rfl (by decide) (by decide) (by simp; decide) (by decide)
theorem EncodedLength.voice3 (lco mfId svcOpt : Byte) (imbe : List Byte) :
    EncodedLength.Statement (.voice3 lco mfId svcOpt imbe) :=
  encodedLength_frame rfl rfl (by decide) (by decide) (by simp; decide) (by decide)
theorem EncodedLength.voice4 (dstId : BitVec 24) (imbe : List Byte) : EncodedLength.Statement (.voice4 dstId imbe) :=
  encodedLength_frame rfl rfl (by decide) (by decide) (by simp [bytes24]; decide) (by decide)
theorem EncodedLength.voice5 (srcId : BitVec 24) (imbe : List Byte) : EncodedLength.Statement (.voice5 srcId imbe) :=
  encodedLength_frame rfl rfl (by decide) (by decide) (by simp [bytes24]; decide) (by decide)
theorem EncodedLength.voice6 (imbe : List Byte) : EncodedLength.Statement (.voice6 imbe) :=
  encodedLength_frame rfl rfl (by decide) (by decide) (by simp; decide) (by decide)
theorem EncodedLength.voice7 (imbe : List Byte) : EncodedLength.Statement (.voice7 imbe) :=
  encodedLength_frame rfl rfl (by decide) (by decide) (by simp; decide) (by decide)
theorem EncodedLength.voice8 (imbe : List Byte) : EncodedLength.Statement (.voice8 imbe) :=
  encodedLength_frame rfl rfl (by decide) (by decide) (by simp; decide) (by decide)
theorem EncodedLength.voice9 (lsd1 lsd2 : Byte) (imbe : List Byte) :
    EncodedLength.Statement (.voice9 lsd1 lsd2 imbe) :=
  encodedLength_frame rfl rfl (by decide) (by decide) (by simp; decide) (by decide)
theorem EncodedLength.voice10 (rssi : Byte) (imbe : List Byte) : EncodedLength.Statement (.voice10 rssi imbe) :=
  encodedLength_frame rfl rfl (by decide) (by decide) (by simp; decide) (by decide)
theorem EncodedLength.voice11 (imbe : List Byte) : EncodedLength.Statement (.voice11 imbe) :=
  encodedLength_frame rfl rfl (by decide) (by decide) (by simp; decide) (by decide)
theorem EncodedLength.voice12 (mi0 mi1 mi2 : Byte) (imbe : List Byte) :
    EncodedLength.Statement (.voice12 mi0 mi1 mi2 imbe) :=
  encodedLength_frame rfl rfl (by decide) (by decide) (by simp; decide) (by decide)
theorem EncodedLength.voice13 (mi3 mi4 mi5 : Byte) (imbe : List Byte) :
    EncodedLength.Statement (.voice13 mi3 mi4 mi5 imbe) :=
  encodedLength_frame rfl rfl (by decide) (by decide) (by simp; decide) (by decide)
theorem EncodedLength.voice14 (mi6 mi7 mi8 : Byte) (imbe : List Byte) :
    EncodedLength.Statement (.voice14 mi6 mi7 mi8 imbe) :=
  encodedLength_frame rfl rfl (by decide) (by decide) (by simp; decide) (by decide)
theorem EncodedLength.voice15 (algId : Byte) (keyId : BitVec 16) (imbe : List Byte) :
    EncodedLength.Statement (.voice15 algId keyId imbe) :=
  encodedLength_frame rfl rfl (by decide) (by decide) (by simp [bytes16]; decide) (by decide)
theorem EncodedLength.voice16 (imbe : List Byte) : EncodedLength.Statement (.voice16 imbe) :=
  encodedLength_frame rfl rfl (by decide) (by decide) (by simp; decide) (by decide)
theorem EncodedLength.voice17 (imbe : List Byte) : EncodedLength.Statement (.voice17 imbe) :=
  encodedLength_frame rfl rfl (by decide) (by decide) (by simp; decide) (by decide)
theorem EncodedLength.voice18 (lsd1 lsd2 : Byte) (imbe : List Byte) :
    EncodedLength.Statement (.voice18 lsd1 lsd2 imbe) :=
  encodedLength_frame rfl rfl (by decide) (by decide) (by simp; decide) (by decide)

end Sys2Proof.Laws
end

