-- ==== Sys2Proof/Machine/Macros.lean ====
section
/-! DEFINITION. The three pseudo-instructions of 45_gateway_shapes.md: host-side macros, each the list of the host's moves it
expands to (30_encoding.md R91). The codec has no opcode for them. The block type tags and packet types are
the OPEN parameters `o` of the codec the macro is for (00_scope.md R6). -/

namespace Sys2Proof.Machine

/-- `wr REG, v` (R90); a register write carries 32 bits. -/
def wr (r : Reg) (v : Nat) : HostAction := .writeReg (BitVec.ofNat 12 r.index) (BitVec.ofNat 32 v)

/-- The issue of a command. -/
def cmd (i : Instr) : HostAction := issue (commandWord i)

/-- `MK.PTTSTART wacn, sysid, unit` (R216). -/
def mkPttStart (o : Config.OpenParams) (wacn sysid unit : Nat) : List HostAction :=
  [wr .ctlS 1, wr .bhCnt 1,
   wr (.bhE 0) 0, wr (.bhBt 0) o.btRfPttControlWord, wr (.bhTso 0) 0, wr (.bhBl 0) 0,
   wr .pktM 0, wr .pktPt o.ptStart, wr .pktAux 0,
   wr .pttPresent 1,
   wr .pttWacn wacn, wr .pttSysId sysid, wr .pttUnitId unit, wr .pttPrio Config.pttDefaultPrio,
   wr .frhPresent 0, wr .vbCnt 0, wr .pafdLen 0,
   cmd (.plEnc 0)]

/-- `LDU.TOVB k, j, i` as a command. -/
def toVb (k j i : Nat) : HostAction := cmd (.lduToVb (BitVec.ofNat 2 k) (BitVec.ofNat 2 j) (BitVec.ofNat 4 i))

/-- `MK.VOICEPROG k, g` (R217). -/
def mkVoiceProg (o : Config.OpenParams) (k g : Nat) : List HostAction :=
  [wr .ctlS 1, wr .bhCnt 1,
   wr (.bhE 0) 0, wr (.bhBt 0) o.btFullRateVoice, wr (.bhTso 0) 0, wr (.bhBl 0) 0,
   wr .pktM 0, wr .pktPt o.ptProgress, wr .pktAux 0,
   wr .pttPresent 0,
   wr .frhPresent 1, wr .frhVbb Config.vbbDefault,
   wr .vbCnt 3,
   toVb k 0 (3 * g), toVb k 1 (3 * g + 1), toVb k 2 (3 * g + 2),
   wr .pafdLen 0,
   cmd (.plEnc 0)]

/-- `LDU.TOVOICE k` (R218), the host advancing through OB between the three payloads (log entry 10). -/
def lduToVoice (o : Config.OpenParams) (k : Nat) : List HostAction :=
  mkVoiceProg o k 0 ++ mkVoiceProg o k 1 ++ mkVoiceProg o k 2

end Sys2Proof.Machine
end

