-- ==== Sys2Proof/Tests/Slice0.lean ====
section
/-! SUPPORT. The model's own tests. Every expected value is from the spec: the examples of 41_dfsi_subframe.md, the words of
30_encoding.md and 45_gateway_shapes.md, the vectors V-… of 95_test_vectors.md, named in each test. The witnesses at the
end show, for each statement that has hypotheses, states and operands that meet them. -/

namespace Sys2Proof.Tests

open Sys2Proof.Machine Sys2Proof.Claims

/-! ### Helpers -/

/-- The example codeword A0 .. AA. -/
def example11 : List Byte := [0xA0, 0xA1, 0xA2, 0xA3, 0xA4, 0xA5, 0xA6, 0xA7, 0xA8, 0xA9, 0xAA]

/-- "OB ready". -/
def obReady (s : State) : State := { s with obValid := 1, obCap := 256 }

/-- "IB = …", from reset. -/
def input (f : List Byte) : State :=
  { State.reset with ib := memWrite [] 0 f, ibLen := BitVec.ofNat 9 f.length, ibValid := 1 }

/-- The instruction ends in a next state that passes the check. -/
def next (i : Instr) (s : State) (check : State → Bool) : Bool :=
  match exec i s with
  | .next t => check t
  | .fault _ => false
  | .refused _ => false

/-- OK, the bytes at the start of OB, the cursor behind them and RESULT their number. -/
def wrote (b : List Byte) (t : State) : Bool :=
  t.status == 0 && memRead t.ob 0 b.length == b && t.obPtr.toNat == b.length && t.result.toNat == b.length

/-- OK, the cursor and RESULT at `n`. -/
def took (n : Nat) (t : State) : Bool := t.status == 0 && t.ibPtr.toNat == n && t.result.toNat == n

/-- The example call data, ready to encode. -/
def exampleCall : State :=
  obReady { State.reset with
    cd :=
      { lco := 0x00, mfId := 0x90, svcOpt := 0x04, srcId := 12345, dstId := 100
        mi := #v[0x11, 0x22, 0x33, 0x44, 0x55, 0x66, 0x77, 0x88, 0x99], algId := 0x80, keyId := 0x1234, lsd1 := 0xAB
        lsd2 := 0xCD, rssi := 0x5A }
    imbe := memWrite [] 0 example11 }

/-! ### Well-formedness: an ill-formed term for the check, in each shape, refused -/

theorem test_wellFormed_refuses_ten_bytes :
    [Instr.voice1 0 (zeros 10), .voice2 (zeros 10), .voice3 0 0 0 (zeros 10), .voice4 0 (zeros 10), .voice5 0 (zeros 10),
      .voice6 (zeros 10), .voice7 (zeros 10), .voice8 (zeros 10), .voice9 0 0 (zeros 10), .voice10 0 (zeros 10),
      .voice11 (zeros 10), .voice12 0 0 0 (zeros 10), .voice13 0 0 0 (zeros 10), .voice14 0 0 0 (zeros 10),
      .voice15 0 0 (zeros 10), .voice16 (zeros 10), .voice17 (zeros 10), .voice18 0 0 (zeros 10)].all
      (fun i => !i.wellFormed) = true := by decide

theorem test_wellFormed_refuses_twelve_and_no_bytes :
    (Instr.voice1 0 (zeros 12)).wellFormed = false ∧ (Instr.voice2 []).wellFormed = false := by decide

theorem test_wellFormed_admits :
    (Instr.voice3 0 0x90 4 example11).wellFormed = true ∧ (Instr.bhEnc 0xFF).wellFormed = true := by decide

/-- R6: the constraints on the parameters. -/
theorem test_constraints_refuse :
    ({ Config.hardware with ptStart := 2 } : Config.Params).constraintsHold = false
    ∧ ({ Config.hardware with nbh := 64 } : Config.Params).constraintsHold = false
    ∧ ({ Config.hardware with nvb := 2 } : Config.Params).constraintsHold = false
    ∧ ({ Config.hardware with hdrLen := 25 } : Config.Params).constraintsHold = false := by decide

theorem test_constraints : Config.hardware.constraintsHold = true := by decide

/-! ### Decoding, word by word (R81 to R83, R90): opcode in bits 15:8, operand in bits 7:0, k in 7:6, j in 5:4, i in 3:0 -/

theorem test_decode_system : decodeWord 0x0000 = .ok (.nop 0) ∧ decodeWord 0x0F00 = .ok (.reset 0) := by decide

theorem test_decode_bitpacker : decodeWord 0x1000 = .ok (.bpPack 0) ∧ decodeWord 0x1100 = .ok (.bpUnpack 0) := by decide

theorem test_decode_dfsi :
    decodeWord 0x2064 = .ok (.dfsiEnc 0x64) ∧ decodeWord 0x2100 = .ok (.dfsiDec 0)
    ∧ decodeWord 0x226A = .ok (.dfsiLen 0x6A) := by decide

theorem test_decode_ldu :
    decodeWord 0x3040 = .ok (.lduCheck 1 0 0) ∧ decodeWord 0x3180 = .ok (.lduReasm 2 0 0)
    ∧ decodeWord 0x3248 = .ok (.lduGetImbe 1 0 8) ∧ decodeWord 0x3340 = .ok (.lduCompose 1 0 0)
    ∧ decodeWord 0x3400 = .ok (.lduBegin 0) ∧ decodeWord 0x3500 = .ok (.lduEnd 0)
    ∧ decodeWord 0x3665 = .ok (.lduToVb 1 2 5) := by decide

theorem test_decode_issi_blocks :
    decodeWord 0x4000 = .ok (.ctlEnc 0) ∧ decodeWord 0x4100 = .ok (.ctlDec 0) ∧ decodeWord 0x4202 = .ok (.bhEnc 2)
    ∧ decodeWord 0x4303 = .ok (.bhDec 3) ∧ decodeWord 0x4400 = .ok (.pktEnc 0) ∧ decodeWord 0x4500 = .ok (.pktDec 0)
    ∧ decodeWord 0x4600 = .ok (.pttEnc 0) ∧ decodeWord 0x4700 = .ok (.pttDec 0) := by decide

theorem test_decode_issi_voice :
    decodeWord 0x4800 = .ok (.frhEnc 0) ∧ decodeWord 0x4900 = .ok (.frhDec 0) ∧ decodeWord 0x4A02 = .ok (.frvEnc 2)
    ∧ decodeWord 0x4B01 = .ok (.frvDec 1) ∧ decodeWord 0x4C02 = .ok (.frvSize 2) := by decide

theorem test_decode_payload :
    decodeWord 0x5000 = .ok (.plSize 0) ∧ decodeWord 0x5100 = .ok (.plEnc 0) ∧ decodeWord 0x5200 = .ok (.plDec 0) := by
  decide

/-- V-SYS-3. -/
theorem test_decode_rejects_by_name :
    [0x0100#16, 0xFFFF#16, 0x3700#16, 0x4D00#16, 0x5300#16].all
      (fun w => decide (decodeWord w = .error (.illegalOpcode (opcodeOf w)))) = true := by decide

/-- Bytes decode to `v`, and `v` encodes to them. -/
def both (f : List Byte) (v : Instr) : Bool :=
  decide (decodeSubFrame f = .ok v) && decide (encode v = .subFrame f)

/-- The examples of R122 to R130. -/
theorem test_decode_voice1_to_voice9 :
    (both ([0x62, 0, 0, 0, 0, 0, 0x5A, 0, 0, 0] ++ example11 ++ [0]) (.voice1 0x5A example11)
    && both ([0x63] ++ example11 ++ [0, 0]) (.voice2 example11)
    && both ([0x64, 0x00, 0x90, 0x04, 0] ++ example11 ++ [0]) (.voice3 0x00 0x90 0x04 example11)
    && both ([0x65, 0x00, 0x00, 0x64, 0] ++ example11 ++ [0]) (.voice4 100 example11)
    && both ([0x66, 0x00, 0x30, 0x39, 0] ++ example11 ++ [0]) (.voice5 12345 example11)
    && both ([0x67, 0, 0, 0, 0] ++ example11 ++ [0]) (.voice6 example11)
    && both ([0x68, 0, 0, 0, 0] ++ example11 ++ [0]) (.voice7 example11)
    && both ([0x69, 0, 0, 0, 0] ++ example11 ++ [0]) (.voice8 example11)
    && both ([0x6A, 0xAB, 0xCD, 0] ++ example11 ++ [0]) (.voice9 0xAB 0xCD example11)) = true := by decide

/-- The examples of R131 to R139. -/
theorem test_decode_voice10_to_voice18 :
    (both ([0x6B, 0, 0, 0, 0, 0, 0x5A, 0, 0, 0] ++ example11 ++ [0]) (.voice10 0x5A example11)
    && both ([0x6C] ++ example11 ++ [0, 0]) (.voice11 example11)
    && both ([0x6D, 0x11, 0x22, 0x33, 0] ++ example11 ++ [0]) (.voice12 0x11 0x22 0x33 example11)
    && both ([0x6E, 0x44, 0x55, 0x66, 0] ++ example11 ++ [0]) (.voice13 0x44 0x55 0x66 example11)
    && both ([0x6F, 0x77, 0x88, 0x99, 0] ++ example11 ++ [0]) (.voice14 0x77 0x88 0x99 example11)
    && both ([0x70, 0x80, 0x12, 0x34, 0] ++ example11 ++ [0]) (.voice15 0x80 0x1234 example11)
    && both ([0x71, 0, 0, 0, 0] ++ example11 ++ [0]) (.voice16 example11)
    && both ([0x72, 0, 0, 0, 0] ++ example11 ++ [0]) (.voice17 example11)
    && both ([0x73, 0xAB, 0xCD, 0] ++ example11 ++ [0]) (.voice18 0xAB 0xCD example11)) = true := by decide

/-- R85, R141: no discriminant, invalid discriminants at both ends of the range, a sub-frame one byte short. -/
theorem test_decodeSubFrame_rejects_by_name :
    decodeSubFrame [] = .error .noDiscriminant ∧ decodeSubFrame (0x61 :: zeros 30) = .error (.invalidFrameType 0x61)
    ∧ decodeSubFrame (0x74 :: zeros 30) = .error (.invalidFrameType 0x74)
    ∧ decodeSubFrame (0x66 :: zeros 15) = .error (.shortSubFrame 0x66) := by decide

theorem test_decodeTableWord :
    decodeTableWord 16 0x3665 = some (.lduToVb 1 2 5) ∧ decodeTableWord 8 0x6A = some (.voice9 0 0 (zeros 11))
    ∧ decodeTableWord 8 0x74 = none := by decide

/-- R217: the words of the voice-progress macro for k = 1, g = 1, and its last one. -/
theorem test_macro_words :
    ((mkVoiceProg Config.hardwareOpen 1 1).filterMap commandIssued) = [0x3643#16, 0x3654#16, 0x3665#16, 0x5100#16]
    ∧ (mkPttStart Config.hardwareOpen 0xBEE00 0x123 12345).filterMap commandIssued = [0x5100#16]
    ∧ (lduToVoice Config.hardwareOpen 2).length = 3 * (mkVoiceProg Config.hardwareOpen 2 0).length := by decide

/-! ### One step of each instruction -/

/-- V-SYS-1, V-SYS-2. -/
theorem test_nop :
    next (.nop 0) { State.reset with code := 0x12 } (· == State.reset) && next (.nop 1) State.reset (·.status == 0x015)
      = true := by decide

/-- P6. -/
theorem test_reset :
    next (.reset 0) { exampleCall with fault := 1, faultCause := 0x80, code := 0x80 } (· == State.reset)
      && next (.reset 1) { exampleCall with fault := 1, code := 0x80 } (·.status == 0x1FF) = true := by decide

/-- A descriptor. -/
def descriptor (n : Byte) (w : Vector Byte 8) (v : Vector (BitVec 32) 8) : BitPacker := { n := n, w := w, v := v }

/-- V-BP-3: values masked, registers unchanged. -/
theorem test_bpPack :
    next (.bpPack 0) (obReady { State.reset with
      bp := descriptor 3 #v[3, 5, 8, 0, 0, 0, 0, 0] #v[0xD, 0x3F, 0x1A5, 0, 0, 0, 0, 0] })
      (fun t => wrote [0xBF, 0xA5] t && t.bp.v.getD 2 0 == 0x1A5) = true := by decide

/-- V-BP-11. -/
theorem test_bpUnpack :
    next (.bpUnpack 0) { input [0x95, 0x48, 0xD2, 0xA5] with
      bp := descriptor 4 #v[1, 7, 14, 10, 0, 0, 0, 0] (Vector.replicate 8 9) }
      (fun t => took 4 t && t.bp.v == #v[1, 0x15, 0x1234, 0x2A5, 9, 9, 9, 9]) = true := by decide

/-- V-DFSI-9: the upper byte is not transmitted. -/
theorem test_dfsiEnc :
    next (.dfsiEnc 0x66) { exampleCall with cd := { exampleCall.cd with srcId := 0xFFABCDEF } }
      (wrote ([0x66, 0xAB, 0xCD, 0xEF, 0] ++ example11 ++ [0])) = true := by decide

/-- V-DFSI-12: the buffer check comes first. -/
theorem test_dfsiEnc_fault :
    next (.dfsiEnc 0x61) State.reset
      (· == { State.reset with fault := 1, faultCause := 0x80, faultCmd := 0x2061, code := 0x80 }) = true := by decide

/-- V-DFSI-14: unnamed bytes ignored. -/
theorem test_dfsiDec :
    next (.dfsiDec 0) (input ([0x66, 0xFF, 0xAB, 0xCD, 0x77] ++ example11 ++ [0x99]))
      (fun t => took 17 t && t.cd.srcId == 0x00FFABCD && memRead t.imbe 0 11 == example11 && t.ftLast == 0x66) = true := by
  decide

/-- V-DFSI-13. -/
theorem test_dfsiLen :
    next (.dfsiLen 0x63) State.reset (fun t => t.status == 0 && t.result == 14)
      && next (.dfsiLen 0x74) { State.reset with result := 16 } (fun t => t.status == 0x010 && t.result == 16) = true := by
  decide

/-- Record REC1 (k = 1) and REC2 (k = 2). -/
def record (k : Nat) : List Byte :=
  (List.range 9).flatMap (fun i =>
    [BitVec.ofNat 8 (0x59 + 9 * k + i)] ++ zeros ([9, 0, 4, 4, 4, 4, 4, 4, 3].getD i 0)
    ++ (List.range 11).map (fun t => BitVec.ofNat 8 (16 * (i + 1) + t))
    ++ zeros ([1, 2, 1, 1, 1, 1, 1, 1, 1].getD i 0))

/-- V-LDU-1. -/
theorem test_lduCheck :
    next (.lduCheck 1 0 0) (input (record 1)) (fun t => t.status == 0 && t.result == 1)
      && next (.lduCheck 2 0 0) (input (record 1)) (fun t => t.status == 2 && t.result == 0) = true := by decide +kernel

/-- V-LDU-8. -/
theorem test_lduReasm :
    next (.lduReasm 2 0 0) (input (record 2))
      (fun t => t.status == 0 && memRead t.ldu2 200 5 == [0x73, 0, 0, 0, 0x90] && memRead t.ldu2 22 5 == [0, 0, 0, 0x6C, 0x20]
        && t.ldu1 == [] && t.ibPtr == 0) = true := by decide +kernel

/-- V-LDU-9, on one stored codeword. -/
theorem test_lduGetImbe :
    next (.lduGetImbe 1 0 3) { State.reset with ldu1 := memWrite [] 80 example11, ldu2 := memWrite [] 80 (zeros 11) }
      (fun t => t.status == 0 && memRead t.imbe 0 11 == example11 && t.result == 0) = true := by decide

/-- V-LDU-10. -/
theorem test_lduGetImbe_malformed :
    next (.lduGetImbe 1 0 9) State.reset (·.status == 0x015) && next (.lduGetImbe 0 0 3) State.reset (·.status == 0x015)
      && next (.lduGetImbe 3 0 0) State.reset (·.status == 0x015)
      && next (.lduGetImbe 1 1 0) State.reset (·.status == 0x015) = true := by decide

/-- V-LDU-3: the length byte, the first and the last sub-frame. -/
theorem test_lduCompose :
    next (.lduCompose 1 0 0) exampleCall
      (fun t => t.status == 0 && t.result == 178 && t.obPtr == 178
        && memRead t.ob 22 9 == [0, 0xB2, 0x62, 0, 0, 0, 0, 0, 0x5A]
        && memRead t.ob 162 4 == [0x6A, 0xAB, 0xCD, 0] && t.imbe == exampleCall.imbe) = true := by decide +kernel

/-- V-LDU-16. -/
theorem test_lduBegin : next (.lduBegin 0) State.reset (fun t => t.status == 0 && t.obPtr == 24) = true := by decide

/-- V-LDU-13, V-LDU-14. -/
theorem test_lduEnd :
    next (.lduEnd 0) (obReady { State.reset with obPtr := 255 })
      (fun t => t.status == 0 && t.ob == [(23, 255)] && t.result == 255)
      && next (.lduEnd 0) (obReady { State.reset with obPtr := 256 })
        (fun t => t.status == 0x181 && t.faultCause == 0x81 && t.faultCmd == 0x3500 && t.ob == []) = true := by decide

/-- V-LDU-17. -/
theorem test_lduToVb :
    next (.lduToVb 1 1 4)
      { State.reset with
        ldu1 := memWrite (memWrite [] 100 [0x66]) 105 example11
        vb := #v[VoiceSlot.reset, { VoiceSlot.reset with totErr := 7, mute := 1, afdLen := 5 }, VoiceSlot.reset] }
      (fun t => t.status == 0 && t.vbAt 1 == { VoiceSlot.reset with ft := 0x66, imbe := memWrite [] 0 example11 }) = true := by
  decide

/-- V-CTL-2. -/
theorem test_ctlEnc :
    next (.ctlEnc 0) (obReady { State.reset with hdr := { State.reset.hdr with ctlS := 1, ctlC := 1, bhCnt := 0x43 } })
      (wrote [0xC3]) = true := by decide

/-- V-CTL-3. -/
theorem test_ctlDec :
    next (.ctlDec 0) (input [0xC3]) (fun t => took 1 t && t.hdr.ctlS == 1 && t.hdr.ctlC == 1 && t.hdr.bhCnt == 3) = true := by
  decide

/-- V-BH-1. -/
theorem test_bhEnc :
    next (.bhEnc 2) (obReady (State.reset.setBh 2 { e := 1, bt := 0x15, tso := 0x1234, bl := 0x2A5 }))
      (wrote [0x95, 0x48, 0xD2, 0xA5]) = true := by decide

/-- V-BH-6. -/
theorem test_bhDec :
    next (.bhDec 3) (input [0x95, 0x48, 0xD2, 0xA5])
      (fun t => took 4 t && t.bhAt 3 == { e := 1, bt := 0x15, tso := 0x1234, bl := 0x2A5 }) = true := by decide

/-- V-PKT-2. -/
theorem test_pktEnc :
    next (.pktEnc 0) (obReady { State.reset with hdr := { State.reset.hdr with pktPt := 0x84, pktAux := 0x01000000 } })
      (wrote [4, 0, 0, 0]) = true := by decide

/-- V-PKT-4. -/
theorem test_pktDec :
    next (.pktDec 0) (input [0x84, 0, 0, 1])
      (fun t => took 4 t && t.hdr.pktM == 1 && t.hdr.pktPt == 4 && t.hdr.pktAux == 1) = true := by decide

/-- V-PTT-2. -/
theorem test_pttEnc :
    next (.pttEnc 0)
      (obReady { State.reset with
        ptt := { State.reset.ptt with wacn := 0x1ABCDE, sysId := 0x1234, unitId := 0x12ABCDEF, prio := 4 } })
      (wrote [0xAB, 0xCD, 0xE2, 0x34, 0xAB, 0xCD, 0xEF, 4]) = true := by decide

/-- V-PTT-3. -/
theorem test_pttDec :
    next (.pttDec 0) (input [0xAB, 0xCD, 0xE2, 0x34, 0xAB, 0xCD, 0xEF, 4])
      (fun t => took 8 t && t.ptt == { present := 0, wacn := 0xABCDE, sysId := 0x234, unitId := 0xABCDEF, prio := 4 })
      = true := by decide

/-- V-FRH-1. -/
theorem test_frhEnc :
    next (.frhEnc 0) (obReady { State.reset with hdr := { State.reset.hdr with frhVbb := 3 } }) (wrote [3]) = true := by
  decide

/-- V-FRH-2. -/
theorem test_frhDec :
    next (.frhDec 0) (input [0xFF]) (fun t => took 1 t && t.hdr.frhVbb == 255 && t.hdr.frhPresent == 0) = true := by decide

/-- The slot of V-FRV-2. -/
def slotFrv2 : VoiceSlot :=
  { ft := 0x6A, totErr := 0x0F, mute := 0, lost := 1, sfc := 7, afdLen := 2, imbe := memWrite [] 0 example11
    afd := memWrite [] 0 [0xDE, 0xAD] }

/-- V-FRV-2. -/
theorem test_frvEnc :
    next (.frvEnc 2) (obReady (State.reset.setVb 2 slotFrv2)) (wrote ([0x6A] ++ example11 ++ [0xE1, 0x0C, 0xDE, 0xAD])) = true := by
  decide

/-- V-FRV-3, V-FRV-4: the additional data silently skipped; no target is no fault. -/
theorem test_frvEnc_skips :
    next (.frvEnc 2) { State.reset.setVb 2 slotFrv2 with obValid := 1, obCap := 15 }
      (fun t => wrote ([0x6A] ++ example11 ++ [0xE1, 0x0C]) t && memRead t.ob 14 2 == [0, 0])
      && next (.frvEnc 2) (State.reset.setVb 2 slotFrv2) (fun t => t.status == 0x001 && t.ob == []) = true := by decide

/-- V-FRV-5. -/
theorem test_frvDec :
    next (.frvDec 1) (input ([0x6A] ++ example11 ++ [0xFD, 0xFF, 0xDE, 0xAD]))
      (fun t => took 16 t && t.vbAt 1 == { slotFrv2 with totErr := 7, sfc := 3 }) = true := by decide

/-- V-FRV-2. -/
theorem test_frvSize :
    next (.frvSize 2) (State.reset.setVb 2 slotFrv2) (fun t => t.status == 0 && t.result == 16) = true := by decide

/-- The record of V-PL-1. -/
def recordPl1 : State :=
  obReady { State.reset with
    hdr := { State.reset.hdr with ctlS := 1, bhCnt := 1, pktPt := 4 }
    bh := #v[{ BlockHeader.reset with bt := 1 }, BlockHeader.reset, BlockHeader.reset, BlockHeader.reset]
    ptt := { present := 1, wacn := 0xBEE00, sysId := 0x123, unitId := 12345, prio := 4 } }

/-- The bytes of V-PL-1. -/
def bytesPl1 : List Byte := [0x81, 1, 0, 0, 0, 4, 0, 0, 0, 0xBE, 0xE0, 0x01, 0x23, 0x00, 0x30, 0x39, 0x04]

/-- The bytes of V-PL-3. -/
def bytesPl3 : List Byte :=
  [0xC2, 0x05, 0, 0, 0, 0x95, 0x48, 0xD2, 0xA5, 0x02, 0, 0, 0, 0x02]
  ++ [0x62, 0x10, 0x11, 0x12, 0x13, 0x14, 0x15, 0x16, 0x17, 0x18, 0x19, 0x1A, 0, 0]
  ++ [0x63, 0x20, 0x21, 0x22, 0x23, 0x24, 0x25, 0x26, 0x27, 0x28, 0x29, 0x2A, 0xA2, 0x08, 0xDE, 0xAD, 0xF1, 0xF2, 0xF3]

/-- V-PL-1, V-PL-6a: the size goes by presence. -/
theorem test_plSize :
    next (.plSize 0) recordPl1 (fun t => t.status == 0 && t.result == 17)
      && next (.plSize 0) { recordPl1 with hdr := { recordPl1.hdr with pktPt := 2 } } (·.result == 17) = true := by decide

/-- V-PL-1. -/
theorem test_plEnc : next (.plEnc 0) recordPl1 (wrote bytesPl1) = true := by decide

/-- V-PL-6a, V-PL-6d: W1, W2, W3. -/
theorem test_plEnc_malformed :
    next (.plEnc 0) { recordPl1 with hdr := { recordPl1.hdr with pktPt := 2 } } (fun t => t.status == 0x014 && t.ob == [])
      && next (.plEnc 0) { recordPl1 with hdr := { recordPl1.hdr with vbCnt := 1 } } (·.status == 0x014) = true := by decide

/-- V-PL-4. -/
theorem test_plDec :
    next (.plDec 0) (input bytesPl3)
      (fun t => took 47 t && t.hdr == { State.reset.hdr with
          ctlS := 1, ctlC := 1, bhCnt := 2, pktPt := 2, frhPresent := 1, frhVbb := 2, vbCnt := 2, pafdLen := 5 }
        && t.bhAt 0 == { BlockHeader.reset with bt := 5 } && t.bhAt 1 == { e := 1, bt := 0x15, tso := 0x1234, bl := 0x2A5 }
        && (t.vbAt 1).totErr == 5 && (t.vbAt 1).mute == 1 && (t.vbAt 1).sfc == 2 && (t.vbAt 1).afdLen == 0
        && memRead t.pafd 0 5 == [0xDE, 0xAD, 0xF1, 0xF2, 0xF3]) = true := by decide

/-- V-PL-6j, V-PL-6k: nothing written. -/
theorem test_plDec_all_or_nothing :
    next (.plDec 0) (input (0x85 :: zeros 30)) (fun t => t == { input (0x85 :: zeros 30) with code := 0x13 })
      && next (.plDec 0) (input (bytesPl1.take 16)) (fun t => t == { input (bytesPl1.take 16) with code := 0x12 }) = true := by
  decide

/-- The sub-frame formats, as DFSI.DEC acts on the examples of R122 to R139. -/
theorem test_voice1_to_voice9 :
    (next (.voice1 0x5A example11) (input (zeros 22)) (fun t => took 22 t && t.cd.rssi == 0x5A && t.ftLast == 0x62)
    && next (.voice2 example11) (input (zeros 14)) (fun t => took 14 t && t.cd == State.reset.cd && t.ftLast == 0x63)
    && next (.voice3 0 0x90 4 example11) (input (zeros 17)) (fun t => took 17 t && t.cd.mfId == 0x90 && t.cd.svcOpt == 4)
    && next (.voice4 100 example11) (input (zeros 17)) (fun t => took 17 t && t.cd.dstId == 100)
    && next (.voice5 12345 example11) (input (zeros 17)) (fun t => took 17 t && t.cd.srcId == 12345)
    && next (.voice6 example11) (input (zeros 17)) (fun t => took 17 t && t.cd == State.reset.cd)
    && next (.voice7 example11) (input (zeros 17)) (fun t => took 17 t && t.ftLast == 0x68)
    && next (.voice8 example11) (input (zeros 17)) (fun t => took 17 t && memRead t.imbe 0 11 == example11)
    && next (.voice9 0xAB 0xCD example11) (input (zeros 16)) (fun t => took 16 t && t.cd.lsd1 == 0xAB && t.cd.lsd2 == 0xCD))
      = true := by decide

theorem test_voice10_to_voice18 :
    (next (.voice10 0x5A example11) (input (zeros 22)) (fun t => took 22 t && t.cd.rssi == 0x5A && t.ftLast == 0x6B)
    && next (.voice11 example11) (input (zeros 14)) (fun t => took 14 t && t.ftLast == 0x6C)
    && next (.voice12 0x11 0x22 0x33 example11) (input (zeros 17)) (·.cd.mi == #v[0x11, 0x22, 0x33, 0, 0, 0, 0, 0, 0])
    && next (.voice13 0x44 0x55 0x66 example11) (input (zeros 17)) (·.cd.mi == #v[0, 0, 0, 0x44, 0x55, 0x66, 0, 0, 0])
    && next (.voice14 0x77 0x88 0x99 example11) (input (zeros 17)) (·.cd.mi == #v[0, 0, 0, 0, 0, 0, 0x77, 0x88, 0x99])
    && next (.voice15 0x80 0x1234 example11) (input (zeros 17)) (fun t => t.cd.algId == 0x80 && t.cd.keyId == 0x1234)
    && next (.voice16 example11) (input (zeros 17)) (fun t => took 17 t && t.cd == State.reset.cd)
    && next (.voice17 example11) (input (zeros 17)) (fun t => took 17 t && t.ftLast == 0x72)
    && next (.voice18 0xAB 0xCD example11) (input (zeros 16)) (fun t => took 16 t && t.cd.lsd2 == 0xCD)) = true := by decide

/-! ### The host's port and the step -/

/-- What a step leaves, if it answers a next state. -/
def stepped (s : State) (check : State → Bool) : Bool :=
  match step s with
  | .next t => check t
  | .fault _ => false
  | .refused _ => false

/-- V-SYS-4: ID, an index without a register. -/
theorem test_step_reads :
    stepped (withMove (.readReg 0x005) State.reset) (·.hRdata == 0x44460100)
      && stepped (withMove (.readReg 0xFFF) State.reset) (·.hRdata == 0) = true := by decide

/-- V-SYS-5: clamped and cut writes. -/
theorem test_step_writes :
    stepped (withMove (.writeReg 0x00B 1000) State.reset) (·.obCap == 256)
      && stepped (withMove (.writeReg 0x041 200) State.reset) (·.hdr.pafdLen == 64)
      && stepped (withMove (.writeReg 0x065 99) State.reset) (fun t => (t.vbAt 0).afdLen == 16)
      && stepped (withMove (.writeReg 0x032 0x12345) State.reset) (·.ptt.sysId == 0x2345)
      && stepped (withMove (.writeReg 0x038 3) State.reset) (·.hdr.ctlS == 1) = true := by decide

/-- R41: the last byte of IMBE, and the offset after it. -/
theorem test_step_memory :
    stepped (withMove (.writeMem 4 10 0x77) State.reset) (·.imbe == [(10, 0x77)])
      && stepped (withMove (.writeMem 4 11 0x77) State.reset) (· == State.reset)
      && stepped (withMove (.readMem 4 10) { State.reset with imbe := [(10, 0x77)] }) (·.hRdata == 0x77) = true := by decide

/-- A table row's word, placed for the next step, runs: a command and a sub-frame. -/
theorem test_withFetchWord :
    stepped (State.reset.withFetchWord 16 0x3400) (fun t => t.obPtr == 24 && t.host == [])
      && stepped (State.reset.withFetchWord 8 0x6A) (fun t => took 16 t && t.ftLast == 0x6A) = true := by decide

/-- The reset state's memories are in their form, and a memory write keeps it. -/
theorem test_memory_form :
    State.reset.memoriesOk = true ∧ Memory.wf 256 (Memory.write (Memory.write [] 5 1) 3 2) = true
      ∧ Memory.write (Memory.write [] 5 1) 5 0 = [] := by decide

/-! ### Witnesses: the hypotheses of each statement met, clause by clause, at the ends of their ranges -/

/-- A state with the latch set. -/
def latched : State := { State.reset with fault := 1, faultCause := 0x80, code := 0x80 }

/-- A target with the write cursor at 5 and `n` bytes of room. -/
def room (n : Nat) : State := { State.reset with obValid := 1, obPtr := 5, obCap := BitVec.ofNat 9 (5 + n) }

/-- An input with the read cursor at 3 and `n` bytes to come. -/
def inputOf (n : Nat) : State := { State.reset with ibValid := 1, ibPtr := 3, ibLen := BitVec.ofNat 9 (3 + n) }

/-- `Guarded`, for the operand forms NONE, IDX (4 and 3 slots) and SEL. -/
theorem witness_Guarded :
    latched.fault = 1 ∧ State.reset.fault = 0
    ∧ (¬ (1 : Byte) = 0 ∧ (0 : Byte) = 0)
    ∧ (¬ (4 : Byte).toNat < 4 ∧ (3 : Byte).toNat < 4) ∧ (¬ (3 : Byte).toNat < 3 ∧ (2 : Byte).toNat < 3)
    ∧ (¬ selectsK 0 0 0 ∧ ¬ selectsK 3 0 0 ∧ ¬ selectsK 1 1 0 ∧ ¬ selectsK 1 0 1 ∧ selectsK 1 0 0 ∧ selectsK 2 0 0) := by
  unfold selectsK; decide

/-- `Guarded` for LDU.GETIMBE and LDU.TOVB: k, j and i at the ends of their ranges. -/
theorem witness_LduGetImbe_LduToVb :
    ((2 : BitVec 2) = 1 ∨ (2 : BitVec 2) = 2) ∧ (0 : BitVec 2) = 0 ∧ (8 : BitVec 4).toNat ≤ 8 ∧ ¬ (9 : BitVec 4).toNat ≤ 8
    ∧ (2 : BitVec 2).toNat < 3 ∧ ¬ (3 : BitVec 2).toNat < 3 := by decide

/-- `EncodesFixed`, for the lengths of CTL, FRH, BH, PKT and PTT: no target, one byte too little room, just enough. -/
theorem witness_EncodesFixed :
    State.reset.obValid = 0
    ∧ (wireCtl (room 0).hdr).length = 1 ∧ (wireBh ((room 0).bhAt 3)).length = 4 ∧ (wirePkt (room 0).hdr).length = 4
    ∧ (wirePtt (room 0).ptt).length = 8
    ∧ ∀ n ∈ [1, 4, 8], (room (n - 1)).obValid = 1 ∧ (room (n - 1)).obPtr.toNat + n > (room (n - 1)).obCap.toNat
      ∧ (room n).obValid = 1 ∧ (room n).obPtr.toNat + n ≤ (room n).obCap.toNat := by decide

/-- `DecodesFixed`: no input, one byte too few, just enough. -/
theorem witness_DecodesFixed :
    State.reset.ibValid = 0
    ∧ ∀ n ∈ [1, 4, 8], (inputOf (n - 1)).ibValid = 1 ∧ (inputOf (n - 1)).ibPtr.toNat + n > (inputOf (n - 1)).ibLen.toNat
      ∧ (inputOf n).ibValid = 1 ∧ (inputOf n).ibPtr.toNat + n ≤ (inputOf n).ibLen.toNat := by decide

theorem witness_DecodeEncodeRoundTrip :
    (Instr.voice15 0xFF 0xFFFF example11).wellFormed = true ∧ (Instr.lduToVb 3 3 15).wellFormed = true := by decide

theorem witness_DecodedWordsReencode : decodeWord 0x52FF = .ok (.plDec 0xFF) ∧ 0x52FF / 256 ∈ opcodes := by decide

/-- Two sub-frames that differ in an unnamed byte, and an encoding with one. -/
theorem witness_UnnamedBytesAreZeroAndIgnored :
    isFrameType ((0x73 :: zeros 15).getD 0 0 : Byte).toNat ∧ sfLength 0x73 ≤ (0x73#8 :: zeros 15).length
    ∧ (0x73#8 :: zeros 15).length = (0x73#8 :: zeros 14 ++ [9]).length
    ∧ (∀ n < 15, (0x73#8 :: zeros 15).getD n 0 = (0x73#8 :: zeros 14 ++ [9]).getD n 0) ∧ 15 ∈ unnamed 0x73
    ∧ encode (.voice18 0 0 (zeros 11)) = .subFrame (0x73 :: zeros 15) := by unfold isFrameType; decide

theorem witness_DecodeThenEncodeClearsUnnamedBytes :
    decodeSubFrame (0x62 :: zeros 21) = .ok (.voice1 0 (zeros 11)) := by decide

theorem witness_FrameTypesAreTheEighteen :
    ¬ isFrameType 0x61 ∧ ¬ isFrameType 0x74 ∧ isFrameType 0x62 ∧ isFrameType 0x73 ∧ (room 22).fault = 0
    ∧ (room 22).obValid = 1 ∧ (input [0x61]).ibValid = 1 ∧ (input [0x61]).ibPtr.toNat < (input [0x61]).ibLen.toNat
    ∧ inputByte (input [0x61]) 0 = 0x61 := by unfold isFrameType; decide

theorem witness_IllegalAndMalformedWordsOnlyReport :
    latched.fault = 1 ∧ (0x0F01#16 ≠ 0x0F00) ∧ State.reset.fault = 0 ∧ (0x5300#16).toNat / 256 ∉ opcodes
    ∧ (0x3670#16).toNat / 256 ∈ opcodes ∧ ¬ operandFits 0x36 0x70 ∧ ¬ operandFits 0x42 4 ∧ ¬ operandFits 0x4A 3
    ∧ ¬ operandFits 0x33 0x41 ∧ ¬ operandFits 0x32 0x49 ∧ ¬ operandFits 0x51 1 := by
  refine ⟨rfl, by decide, rfl, by decide, by decide, ?_⟩
  simp [operandFits]

theorem witness_StepRunsTheDecodedInstruction :
    (withMove (.writeReg 0 0x0000) State.reset).host = .writeReg 0 0x0000 :: State.reset.host
    ∧ decodeWord ((0x0000 : RegData).setWidth 16) = .ok (.nop 0)
    ∧ (input (0x63 :: zeros 13)).fault = 0 ∧ (input (0x63 :: zeros 13)).ibValid = 1
    ∧ decodeSubFrame (inputBytes (input (0x63 :: zeros 13)) 0 (inputLength (input (0x63 :: zeros 13))))
      = .ok (.voice2 (zeros 11))
    ∧ decodeTableWord 16 0x5100 = some (.plEnc 0) ∧ decodeTableWord 8 0x62 = some (.voice1 0 (zeros 11)) := by decide

theorem witness_EveryStepAnswersNext : State.reset.host = [] := rfl

theorem witness_EveryStepKeepsTheInvariant :
    (withMove (.writeReg 0x008 999) State.reset).inv = true
    ∧ step (withMove (.writeReg 0x008 999) State.reset) = .next { State.reset with ibLen := 256 } := ⟨by decide, rfl⟩

theorem witness_ResetCommandGivesTheResetState :
    (0 : Byte) = 0 ∧ (1 : Byte) ≠ 0 ∧ latched.fault = 1 ∧ State.reset.fault = 0 := by decide

theorem witness_RegisterMap_IgnoredRegisterWrites :
    (0xFFF : BitVec 12) ≠ 0 ∧ (0x0A7 : BitVec 12) ≠ 0 ∧ access 0x001 = .ignored ∧ access 0x007 = .ignored
    ∧ access 0x066 = .ignored ∧ access 0xFFF = .ignored ∧ access 0x0A7 = .low 32 ∧ access 0x065 = .clamped 16 := by decide

theorem witness_MemoryAccess :
    (10 : BitVec 12).toNat < memoryLength (4 : BitVec 4).toNat ∧ memoryLength (4 : BitVec 4).toNat ≤ (11 : BitVec 12).toNat
    ∧ memoryLength (12 : BitVec 4).toNat ≤ (0 : BitVec 12).toNat ∧ (63 : BitVec 12).toNat < memoryLength 11 := by decide

theorem witness_LatchRefusesAllButReset :
    latched.fault = 1 ∧ (0x0F01 : BitVec 32).setWidth 16 ≠ 0x0F00#16 ∧ Instr.reset 1 ≠ .reset 0 ∧ (0x001 : BitVec 12) ≠ 0 := by
  decide

theorem witness_FaultEntryIsPrecise :
    State.reset.fault = 0 ∧ (∃ t, exec (.pttEnc 0) State.reset = .next t ∧ t.fault = 1)
    ∧ latched.fault = 1 ∧ Instr.reset 1 ≠ .reset 0 ∧ ∃ t, exec (.reset 1) latched = .next t :=
  ⟨rfl, ⟨_, rfl, by decide⟩, rfl, by decide, _, rfl⟩

theorem witness_FaultsHappenExactlyWhenTheSpecSays :
    decodeWord 0x3500 = .ok (.lduEnd 0) ∧ (obReady { State.reset with obPtr := 256 }).fault = 0
    ∧ (∃ t, exec (.lduEnd 0) (obReady { State.reset with obPtr := 256 }) = .next t ∧ t.code = 0x81#8)
    ∧ decodeWord 0x4A00 = .ok (.frvEnc 0) ∧ ∃ t, exec (.frvEnc 0) State.reset = .next t ∧ t.fault = 0 :=
  ⟨by decide, rfl, ⟨_, rfl, by decide⟩, by decide, _, rfl, by decide⟩

theorem witness_UnsuccessfulCommandsWriteNothing :
    (∃ t, exec (.frvDec 0) State.reset = .next t ∧ t.code ≠ 0x00#8 ∧ t.fault = State.reset.fault)
    ∧ ∃ t, exec (.lduReasm 1 0 0) (input (zeros 154)) = .next t ∧ t.code = 0x02#8 :=
  ⟨⟨_, rfl, by decide, by decide⟩, _, rfl, by decide +kernel⟩

theorem witness_CursorMovement :
    (∃ t, exec (.pttEnc 0) (room 8) = .next t ∧ t.code = 0x00#8)
    ∧ ∃ t, exec (.pttEnc 0) (room 7) = .next t ∧ t.code ≠ 0x00#8 := ⟨⟨_, rfl, by decide⟩, _, rfl, by decide⟩

/-- Widths for one law alone and for two groups together, and bytes of their length. -/
theorem witness_PackAndUnpackLaws :
    widthsOk [32, 32] ∧ widthsOk [3, 5] ∧ widthsOk [8] ∧ widthsOk [3, 5, 8] ∧ (zeros 8).length = [32, 32].sum / 8 := by
  unfold widthsOk; decide

/-- Descriptors: the largest, with room for its 8 bytes and one too little; and ones that are not well-formed. -/
def widest : BitPacker := descriptor 2 #v[32, 32, 0, 0, 0, 0, 0, 0] (Vector.replicate 8 1)

theorem witness_BpPack_BpUnpack :
    descriptorOk widest ∧ ¬ descriptorOk (descriptor 0 (Vector.replicate 8 0) (Vector.replicate 8 0))
    ∧ ¬ descriptorOk (descriptor 1 #v[40, 0, 0, 0, 0, 0, 0, 0] (Vector.replicate 8 0))
    ∧ ¬ descriptorOk (descriptor 2 #v[3, 4, 0, 0, 0, 0, 0, 0] (Vector.replicate 8 0))
    ∧ fieldTotal widest / 8 = 8 ∧ State.reset.obValid = 0 ∧ State.reset.ibValid = 0
    ∧ (room 8).obValid = 1 ∧ (room 8).obPtr.toNat + 8 ≤ (room 8).obCap.toNat
    ∧ (room 7).obPtr.toNat + 8 > (room 7).obCap.toNat
    ∧ (inputOf 8).ibValid = 1 ∧ (inputOf 8).ibPtr.toNat + 8 ≤ (inputOf 8).ibLen.toNat
    ∧ (inputOf 7).ibPtr.toNat + 8 > (inputOf 7).ibLen.toNat := by
  refine ⟨(descriptor_iff _).mp (by decide), ?_, ?_, ?_, by decide, by decide, by decide, by decide, by decide, by decide,
    by decide, by decide, by decide⟩ <;> exact fun h => absurd ((descriptor_iff _).mpr h) (by decide)

theorem witness_DfsiEnc_DfsiLen :
    State.reset.obValid = 0 ∧ (room 22).obValid = 1 ∧ ¬ isFrameType (0x61 : Byte).toNat ∧ ¬ isFrameType (0x74 : Byte).toNat
    ∧ isFrameType (0x62 : Byte).toNat ∧ isFrameType (0x73 : Byte).toNat
    ∧ (room 21).obPtr.toNat + sfLength 0x62 > (room 21).obCap.toNat
    ∧ (room 22).obPtr.toNat + sfLength 0x62 ≤ (room 22).obCap.toNat
    ∧ (room 16).obPtr.toNat + sfLength 0x73 ≤ (room 16).obCap.toNat := by unfold isFrameType; decide

theorem witness_DfsiDec :
    State.reset.ibValid = 0 ∧ (inputOf 0).ibValid = 1 ∧ (inputOf 0).ibPtr.toNat ≥ (inputOf 0).ibLen.toNat
    ∧ ¬ isFrameType (inputByte (input [0x74]) 0).toNat ∧ (input [0x74]).ibPtr.toNat < (input [0x74]).ibLen.toNat
    ∧ isFrameType (inputByte (input (0x73 :: zeros 14)) 0).toNat
    ∧ (input (0x73 :: zeros 14)).ibPtr.toNat + sfLength (inputByte (input (0x73 :: zeros 14)) 0).toNat
      > (input (0x73 :: zeros 14)).ibLen.toNat
    ∧ isFrameType (inputByte (input (0x73 :: zeros 15)) 0).toNat
    ∧ (input (0x73 :: zeros 15)).ibPtr.toNat + sfLength (inputByte (input (0x73 :: zeros 15)) 0).toNat
      ≤ (input (0x73 :: zeros 15)).ibLen.toNat := by unfold isFrameType; decide

/-- Also the clauses of `ActsAsSubFrame`, at each of the four lengths. -/
theorem witness_Ldu1SubFrames_Ldu2SubFrames :
    example11.length = 11 ∧ latched.fault = 1 ∧ State.reset.fault = 0 ∧ State.reset.ibValid = 0
    ∧ ∀ n ∈ [14, 16, 17, 22], (inputOf n).fault = 0 ∧ (inputOf n).ibValid = 1
      ∧ (inputOf n).ibPtr.toNat + n ≤ (inputOf n).ibLen.toNat
      ∧ (inputOf (n - 1)).ibPtr.toNat + n > (inputOf (n - 1)).ibLen.toNat := by decide

/-- What an encoder wrote from offset 0 on, carried to an input. -/
def carry (t : State) : State := { State.reset with ib := t.ob, ibLen := BitVec.ofNat 9 t.result.toNat, ibValid := 1 }

theorem witness_DfsiRoundTrip :
    isFrameType (0x62 : Byte).toNat ∧ exampleCall.fault = 0 ∧ exampleCall.obValid = 1
    ∧ exampleCall.obPtr.toNat + sfLength 0x62 ≤ exampleCall.obCap.toNat
    ∧ ∃ t, exec (.dfsiEnc 0x62) exampleCall = .next t ∧ Carried exampleCall t (carry t) :=
  ⟨by unfold isFrameType; decide, rfl, rfl, by decide, _, rfl, rfl, rfl, by decide, fun _ _ => rfl⟩

/-- `WithRecord` with 153 and 154 bytes, a valid record and one that is not. -/
theorem witness_LduCheck_LduReasm :
    State.reset.ibValid = 0 ∧ (inputOf 153).ibValid = 1 ∧ (inputOf 153).ibPtr.toNat + 154 > (inputOf 153).ibLen.toNat
    ∧ (inputOf 154).ibPtr.toNat + 154 ≤ (inputOf 154).ibLen.toNat ∧ validAtCursor 1 (input (record 1))
    ∧ validAtCursor 2 (input (record 2)) ∧ ¬ validAtCursor 2 (input (record 1)) :=
  ⟨rfl, rfl, by decide, by decide, (valid_iff (.inl rfl) _).mp (by decide +kernel),
    (valid_iff (.inr rfl) _).mp (by decide +kernel), fun h => absurd ((valid_iff (.inr rfl) _).mpr h) (by decide +kernel)⟩

theorem witness_LduBeginAndEnd :
    State.reset.obValid = 0 ∧ (obReady { State.reset with obPtr := 256 }).obPtr.toNat > 255
    ∧ (obReady { State.reset with obPtr := 255 }).obPtr.toNat ≤ 255 ∧ (room 18).obCap.toNat ≤ 23
    ∧ 23 < (room 19).obCap.toNat ∧ (room 19).obValid = 1 ∧ (room 19).obPtr.toNat ≤ 255 := by decide

theorem witness_LduCompose_ComposeEqualsTheSequenceByHand :
    ((1 : BitVec 2) = 1 ∨ (1 : BitVec 2) = 2) ∧ State.reset.obValid = 0 ∧ (room 172).obCap.toNat < 178
    ∧ 178 ≤ (room 173).obCap.toNat ∧ (room 173).obValid = 1 ∧ (room 173).fault = 0 := by decide

theorem witness_CheckAcceptsExactlyWhatReassemblyAccepts :
    State.reset.fault = 0 ∧ ((2 : BitVec 2) = 1 ∨ (2 : BitVec 2) = 2)
    ∧ ∃ u, exec (.lduReasm 2 0 0) (inputOf 153) = .next u ∧ u.code ≠ 0x00#8 := ⟨rfl, by decide, _, rfl, by decide⟩

theorem witness_ReassembledCodewordsAreTheRecords :
    (8 : BitVec 4).toNat ≤ 8 ∧ (input (record 1)).fault = 0 ∧ (input (record 1)).ibValid = 1
    ∧ (input (record 1)).ibPtr.toNat + 154 ≤ (input (record 1)).ibLen.toNat ∧ validAtCursor 1 (input (record 1)) :=
  ⟨by decide, rfl, rfl, by decide +kernel, (valid_iff (.inl rfl) _).mp (by decide +kernel)⟩

/-- A composed message carried to an input with the read cursor at its record. -/
def carryRecord (t : State) : State := { carry t with ibPtr := 24 }

theorem carryRecord_ready (t : State) (h : t.result = 178) :
    (carryRecord t).fault = 0 ∧ (carryRecord t).ibValid = 1
    ∧ (carryRecord t).ibPtr.toNat + 154 ≤ (carryRecord t).ibLen.toNat
    ∧ ∀ n, n < 154 → inputByte (carryRecord t) n = Memory.read t.ob (24 + n) := by
  refine ⟨rfl, rfl, ?_, fun n _ => rfl⟩
  show 24 + 154 ≤ (BitVec.ofNat 9 t.result.toNat).toNat
  rw [h]
  decide

theorem witness_ComposedRecordsAreAccepted :
    exampleCall.fault = 0 ∧ exampleCall.obValid = 1 ∧ 178 ≤ exampleCall.obCap.toNat
    ∧ ∃ t, exec (.lduCompose 1 0 0) exampleCall = .next t
      ∧ (carryRecord t).fault = 0 ∧ (carryRecord t).ibValid = 1
      ∧ (carryRecord t).ibPtr.toNat + 154 ≤ (carryRecord t).ibLen.toNat
      ∧ ∀ n, n < 154 → inputByte (carryRecord t) n = Memory.read t.ob (24 + n) :=
  ⟨rfl, rfl, by decide, _, rfl, carryRecord_ready _ rfl⟩

/-- FRV.ENC: 13, 14 (with and without additional data) and 16 bytes of room. -/
theorem witness_FrvEnc :
    State.reset.obValid = 0 ∧ (room 13).obValid = 1 ∧ (room 13).obCap.toNat < (room 13).obPtr.toNat + 14
    ∧ (room 14).obPtr.toNat + 14 + ((room 14).vbAt 2).afdLen.toNat ≤ (room 14).obCap.toNat
    ∧ ((State.reset.setVb 2 slotFrv2).vbAt 2).afdLen.toNat = 2
    ∧ (room 15).obPtr.toNat + 14 ≤ (room 15).obCap.toNat ∧ (room 15).obCap.toNat < (room 15).obPtr.toNat + 14 + 2
    ∧ (room 16).obPtr.toNat + 14 + 2 ≤ (room 16).obCap.toNat := by decide

theorem witness_FrvDec :
    State.reset.ibValid = 0 ∧ (inputOf 13).ibValid = 1 ∧ inputLength (inputOf 13) < 14 ∧ inputLength (inputOf 31) > 30
    ∧ 14 ≤ inputLength (inputOf 14) ∧ inputLength (inputOf 30) ≤ 30 := by decide

/-- The five encoders' output carried to a decoder. -/
theorem witness_FixedBlocksDecodeWhatWasEncoded :
    recordPl1.fault = 0 ∧ (3 : Byte).toNat < 4
    ∧ (∃ t, exec (.ctlEnc 0) recordPl1 = .next t ∧ t.code = 0x00#8 ∧ Carried recordPl1 t (carry t))
    ∧ (∃ t, exec (.bhEnc 3) recordPl1 = .next t ∧ t.code = 0x00#8 ∧ Carried recordPl1 t (carry t))
    ∧ (∃ t, exec (.pktEnc 0) recordPl1 = .next t ∧ t.code = 0x00#8 ∧ Carried recordPl1 t (carry t))
    ∧ (∃ t, exec (.pttEnc 0) recordPl1 = .next t ∧ t.code = 0x00#8 ∧ Carried recordPl1 t (carry t))
    ∧ (∃ t, exec (.frhEnc 0) recordPl1 = .next t ∧ t.code = 0x00#8 ∧ Carried recordPl1 t (carry t)) :=
  ⟨rfl, by decide, ⟨_, rfl, by decide, rfl, rfl, by decide, fun _ _ => rfl⟩, ⟨_, rfl, by decide, rfl, rfl, by decide, fun _ _ => rfl⟩,
    ⟨_, rfl, by decide, rfl, rfl, by decide, fun _ _ => rfl⟩, ⟨_, rfl, by decide, rfl, rfl, by decide, fun _ _ => rfl⟩,
    ⟨_, rfl, by decide, rfl, rfl, by decide, fun _ _ => rfl⟩⟩

/-- An input and a target at once. -/
def decoderAndEncoder : State := obReady (input (zeros 8))

theorem witness_FixedBlocksEncodeWhatWasDecoded :
    decoderAndEncoder.fault = 0 ∧ decoderAndEncoder.obValid = 1
    ∧ (∃ t u, exec (.ctlDec 0) decoderAndEncoder = .next t ∧ t.code = 0x00#8 ∧ exec (.ctlEnc 0) t = .next u ∧ u.code = 0x00#8)
    ∧ (∃ t u, exec (.bhDec 3) decoderAndEncoder = .next t ∧ t.code = 0x00#8 ∧ exec (.bhEnc 3) t = .next u ∧ u.code = 0x00#8)
    ∧ (∃ t u, exec (.pktDec 0) decoderAndEncoder = .next t ∧ t.code = 0x00#8 ∧ exec (.pktEnc 0) t = .next u ∧ u.code = 0x00#8)
    ∧ (∃ t u, exec (.pttDec 0) decoderAndEncoder = .next t ∧ t.code = 0x00#8 ∧ exec (.pttEnc 0) t = .next u ∧ u.code = 0x00#8)
    ∧ (∃ t u, exec (.frhDec 0) decoderAndEncoder = .next t ∧ t.code = 0x00#8 ∧ exec (.frhEnc 0) t = .next u
      ∧ u.code = 0x00#8) :=
  ⟨rfl, rfl, ⟨_, _, rfl, by decide, rfl, by decide⟩, ⟨_, _, rfl, by decide, rfl, by decide⟩,
    ⟨_, _, rfl, by decide, rfl, by decide⟩, ⟨_, _, rfl, by decide, rfl, by decide⟩, ⟨_, _, rfl, by decide, rfl, by decide⟩⟩

theorem witness_VoiceBlockRoundTrip :
    (obReady (State.reset.setVb 2 slotFrv2)).fault = 0 ∧ (2 : Byte).toNat < 3
    ∧ (obReady (State.reset.setVb 2 slotFrv2)).obValid = 1
    ∧ ((obReady (State.reset.setVb 2 slotFrv2)).vbAt 2).afdLen.toNat ≤ 16
    ∧ (obReady (State.reset.setVb 2 slotFrv2)).obPtr.toNat + 14
        + ((obReady (State.reset.setVb 2 slotFrv2)).vbAt 2).afdLen.toNat
      ≤ (obReady (State.reset.setVb 2 slotFrv2)).obCap.toNat
    ∧ ∃ t, exec (.frvEnc 2) (obReady (State.reset.setVb 2 slotFrv2)) = .next t
      ∧ Carried (obReady (State.reset.setVb 2 slotFrv2)) t (carry t) ∧ inputLength (carry t) = t.result.toNat :=
  ⟨rfl, by decide, rfl, by decide, by decide, _, rfl, ⟨rfl, rfl, by decide, fun _ _ => rfl⟩, by decide⟩

/-- PL.SIZE, PL.ENC and their equality: bounded and not; well-formed and not; 17 bytes of room and 16. -/
theorem witness_PlSize_PlEnc_SizeIsWhatEncodeWrites :
    recordOk recordPl1 ∧ recordBounded recordPl1
    ∧ ¬ recordBounded { recordPl1 with hdr := { recordPl1.hdr with vbCnt := 4 } }
    ∧ ¬ recordOk { recordPl1 with hdr := { recordPl1.hdr with pktPt := 2 } }
    ∧ State.reset.obValid = 0 ∧ recordPl1.fault = 0 ∧ recordPl1.obValid = 1 ∧ recordSize recordPl1 = 17
    ∧ recordPl1.obPtr.toNat + recordSize recordPl1 ≤ ({ recordPl1 with obCap := 17 } : State).obCap.toNat
    ∧ recordPl1.obPtr.toNat + recordSize recordPl1 > ({ recordPl1 with obCap := 16 } : State).obCap.toNat := by
  unfold recordOk recordStarts recordProgresses recordBounded; decide

/-- A state of a codec configured with packet type 9 for START in place of 4 (R6). -/
def startIsNine (s : State) : State := { s with cfg := { s.cfg with ptStart := 9 } }

/-- R200, R203, R204 with START 9: the PTT-start record of type 9 encodes and type 4 no longer does; the bytes of type 4 decode
to a record without a PTT control. -/
theorem test_start_is_nine :
    stepped (withMove (.writeReg 0 0x5100) (startIsNine { recordPl1 with hdr := { recordPl1.hdr with pktPt := 9 } }))
      (fun t => t.code == 0x00 && t.result == 17 && t.cfg == (startIsNine recordPl1).cfg)
    && stepped (withMove (.writeReg 0 0x5100) (startIsNine recordPl1)) (·.code == 0x14)
    && stepped (withMove (.writeReg 0 0x5200) (startIsNine (input bytesPl1)))
      (fun t => t.code == 0x00 && t.ptt.present == 0 && t.hdr.pafdLen == 8) = true := by decide

theorem witness_ConfigurationIsConstantAndReadByThePayloadCommands :
    step (startIsNine State.reset) = .next (startIsNine State.reset)
    ∧ (∃ t, exec (.nop 0) State.reset = .next t) ∧ (∀ op, Instr.nop 0 ≠ .plEnc op ∧ Instr.nop 0 ≠ .plDec op)
    ∧ (∃ t, exec (.plEnc 0) recordPl1 = .next t ∧ t.code = 0x00#8)
    ∧ ({ recordPl1.cfg with btFullRateVoice := 6 } : Config.OpenParams).ptStart = recordPl1.cfg.ptStart
    ∧ ({ recordPl1.cfg with btFullRateVoice := 6 } : Config.OpenParams).ptProgress = recordPl1.cfg.ptProgress :=
  ⟨rfl, ⟨_, rfl⟩, fun _ => ⟨nofun, nofun⟩, ⟨_, rfl, by decide⟩, rfl, rfl⟩

/-- PL.DEC: each status of its tests, and OK. -/
theorem witness_PlDec :
    (inputOf 0).params.constraintsHold = true ∧ (startIsNine (input bytesPl1)).params.constraintsHold = true
    ∧ State.reset.ibValid = 0 ∧ (inputOf 0).ibValid = 1 ∧ inputStatus (inputOf 0) = 0x12
    ∧ inputStatus (input (0x85 :: zeros 30)) = 0x13 ∧ inputStatus (input [0x80, 2, 0, 0, 0, 4]) = 0x13
    ∧ inputStatus (input [0, 0x7F, 0, 0]) = 0x12 ∧ inputStatus (input [0, 0x7F, 0, 0, 0]) = 0x00
    ∧ inputStatus (input bytesPl1) = 0x00 ∧ inputStatus (input bytesPl3) = 0x00 := by decide

theorem witness_DecodedPayloadsEncodeBack :
    (obReady (input bytesPl3)).params.constraintsHold = true
    ∧ (obReady (input bytesPl3)).fault = 0 ∧ (obReady (input bytesPl3)).obValid = 1 ∧ inputType (obReady (input bytesPl3)) = (obReady (input bytesPl3)).cfg.ptProgress
    ∧ (∀ j < inputVbb (obReady (input bytesPl3)), (inputVoice (obReady (input bytesPl3)) j 12).extractLsb' 2 3 = 0
      ∧ inputVoice (obReady (input bytesPl3)) j 13 &&& 0xF3 = 0)
    ∧ (obReady (input bytesPl3)).obPtr.toNat + inputLength (obReady (input bytesPl3)) ≤ (obReady (input bytesPl3)).obCap.toNat
    ∧ ∃ t, exec (.plDec 0) (obReady (input bytesPl3)) = .next t ∧ t.code = 0x00#8 :=
  ⟨by decide, rfl, rfl, by decide, by decide, by decide, _, rfl, by decide⟩

end Sys2Proof.Tests
end

section
/-! SUPPORT. O58: the OPEN parameters (00_scope.md R6) are read by PL.ENC and PL.DEC alone, and written by nothing. The one
idea: every operation of the model commutes with replacing the parameters. That no instruction changes them follows, by
replacing them by themselves. -/

namespace Sys2Proof.Configuration

open Sys2Proof.Machine Sys2Proof.Claims

/-- The state with other OPEN parameters. -/
def withConfig (o : Config.OpenParams) (s : State) : State := { s with cfg := o }

/-- The answer with other OPEN parameters in its next state. -/
def answerWithConfig (o : Config.OpenParams) : Answer → Answer
  | .next t => .next (withConfig o t)
  | .fault r => .fault r
  | .refused r => .refused r

/-- The two configurations have the same packet types, which is all that PL.ENC and PL.DEC read of them (R200). -/
def SamePacketTypes (o p : Config.OpenParams) : Prop := o.ptStart = p.ptStart ∧ o.ptProgress = p.ptProgress

theorem withConfig_self (s : State) : withConfig s.cfg s = s := rfl

section
variable (o : Config.OpenParams) (s : State)

/-! #### The shared operations -/

theorem withConfig_ite (c : Prop) [Decidable c] (t u : State) :
    withConfig o (if c then t else u) = if c then withConfig o t else withConfig o u := apply_ite _ _ _ _

theorem commonChecks_withConfig (ok : Bool) (rest : State) :
    commonChecks ok (withConfig o s) (withConfig o rest) = withConfig o (commonChecks ok s rest) := by
  simp only [commonChecks, withConfig_ite]
  rfl

theorem emitIfRoom_withConfig (b : List Byte) :
    emitIfRoom b (withConfig o s) = withConfig o (emitIfRoom b s) := by
  simp only [emitIfRoom, withConfig_ite]
  rfl

theorem encFixed_withConfig (cmd : CmdWord) (b : List Byte) :
    encFixed cmd b (withConfig o s) = withConfig o (encFixed cmd b s) := by
  simp only [encFixed, withConfig_ite, ← emitIfRoom_withConfig]
  rfl

theorem decFixed_withConfig (n : Nat) (k : List Byte → State → State)
    (hk : ∀ b t, k b (withConfig o t) = withConfig o (k b t)) :
    decFixed n (withConfig o s) k = withConfig o (decFixed n s k) := by
  simp only [decFixed, withConfig_ite, ← hk]
  rfl

/-! #### The forms of a command -/

/-- A command: the common checks, and a rest that commutes. -/
theorem command_withConfig {a a' : Answer} {ok : Bool} {rest rest' : State} (h : a = .next (commonChecks ok s rest))
    (h' : a' = .next (commonChecks ok (withConfig o s) rest')) (hr : rest' = withConfig o rest) :
    a' = answerWithConfig o a := by
  rw [h, h', hr, commonChecks_withConfig]
  rfl

/-- A command that ends in `EncFixed` of bytes that are no matter of the configuration. -/
theorem encoder_withConfig {a a' : Answer} {ok : Bool} {cmd : CmdWord} {b : List Byte}
    (h : a = .next (commonChecks ok s (encFixed cmd b s)))
    (h' : a' = .next (commonChecks ok (withConfig o s) (encFixed cmd b (withConfig o s)))) :
    a' = answerWithConfig o a := command_withConfig o s h h' (encFixed_withConfig o s cmd b)

/-- A command that begins with `DecFixed` and writes registers that are no matter of the configuration. -/
theorem decoder_withConfig {a a' : Answer} {ok : Bool} {n : Nat} {k : List Byte → State → State}
    (h : a = .next (commonChecks ok s (decFixed n s k)))
    (h' : a' = .next (commonChecks ok (withConfig o s) (decFixed n (withConfig o s) k)))
    (hk : ∀ b t, k b (withConfig o t) = withConfig o (k b t)) :
    a' = answerWithConfig o a := command_withConfig o s h h' (decFixed_withConfig o s n k hk)

/-- A sub-frame format. -/
theorem execVoice_withConfig (ft : Nat) (upd : CallData → CallData) (c : List Byte) :
    execVoice ft upd c (withConfig o s) = answerWithConfig o (execVoice ft upd c s) := by
  refine command_withConfig o s rfl rfl ?_
  simp only [withConfig_ite]
  rfl

/-! #### The bit-packer -/

theorem execBpPack_withConfig (op : Byte) :
    execBpPack op (withConfig o s) = answerWithConfig o (execBpPack op s) := by
  refine command_withConfig o s rfl rfl ?_
  simp only [withConfig_ite, ← emitIfRoom_withConfig]
  rfl

theorem execBpUnpack_withConfig (op : Byte) :
    execBpUnpack op (withConfig o s) = answerWithConfig o (execBpUnpack op s) := by
  refine command_withConfig o s rfl rfl ?_
  have hdec := decFixed_withConfig o s (totalWidth s.bp.widths / 8)
    (fun b t => writeBpValues (unpack s.bp.widths b) t) (fun _ _ => rfl)
  simp only [withConfig_ite, ← hdec]
  rfl

/-! #### DFSI sub-frames -/

theorem execDfsiEnc_withConfig (ft : Byte) :
    execDfsiEnc ft (withConfig o s) = answerWithConfig o (execDfsiEnc ft s) := by
  refine command_withConfig o s rfl rfl ?_
  simp only [withConfig_ite, ← emitIfRoom_withConfig]
  rfl

theorem answerWithConfig_ite (c : Prop) [Decidable c] (a b : Answer) :
    answerWithConfig o (if c then a else b) = if c then answerWithConfig o a else answerWithConfig o b :=
  apply_ite _ _ _ _

/-- What DFSI.DEC does with what decoding the bytes at the cursor answers. -/
theorem execSubFrame_withConfig {f : List Byte} {v : Instr} (h : decodeSubFrame f = .ok v) :
    execSubFrame v (withConfig o s) = answerWithConfig o (execSubFrame v s) := by
  obtain ⟨hft, -, hv⟩ := decodeSubFrame_ok h
  obtain ⟨w, hw, hact⟩ := voiceOfBytes_some hft f
  obtain rfl : v = w := Option.some.inj (hv.symm.trans hw)
  simp only [(hact _).1, (hact _).2, execVoice_withConfig]

theorem execDfsiDec_withConfig (op : Byte) :
    execDfsiDec op (withConfig o s) = answerWithConfig o (execDfsiDec op s) := by
  have hav : available (withConfig o s) = available s := rfl
  simp only [execDfsiDec, answerWithConfig_ite, hav]
  cases h : decodeSubFrame (available s) with
  | error e => rfl
  | ok v => simp only [execSubFrame_withConfig o s h]; rfl

theorem execDfsiLen_withConfig (ft : Byte) :
    execDfsiLen ft (withConfig o s) = answerWithConfig o (execDfsiLen ft s) := by
  refine command_withConfig o s rfl rfl ?_
  rw [withConfig_ite]
  rfl

/-! #### LDU records -/

/-- A command that fetches the record at the cursor and goes on in a way that commutes. -/
theorem record_withConfig {a a' : Answer} {ok : Bool} {f f' : List Byte → State}
    (h : a = .next (commonChecks ok s (match recordAtCursor s with
      | .error c => endWith c s
      | .ok rec => f rec)))
    (h' : a' = .next (commonChecks ok (withConfig o s) (match recordAtCursor s with
      | .error c => endWith c (withConfig o s)
      | .ok rec => f' rec)))
    (hf : ∀ rec, f' rec = withConfig o (f rec)) : a' = answerWithConfig o a := by
  refine command_withConfig o s h h' ?_
  cases recordAtCursor s with
  | error c => rfl
  | ok rec => exact hf rec

theorem setLdu_withConfig (k : BitVec 2) (m : Memory) :
    (withConfig o s).setLdu k m = withConfig o (s.setLdu k m) := by
  simp only [State.setLdu, withConfig_ite]
  rfl

theorem execLduCheck_withConfig (k j : BitVec 2) (i : BitVec 4) :
    execLduCheck k j i (withConfig o s) = answerWithConfig o (execLduCheck k j i s) := by
  refine record_withConfig o s rfl rfl (fun rec => ?_)
  rw [withConfig_ite]
  rfl

theorem execLduReasm_withConfig (k j : BitVec 2) (i : BitVec 4) :
    execLduReasm k j i (withConfig o s) = answerWithConfig o (execLduReasm k j i s) := by
  refine record_withConfig o s rfl rfl (fun rec => ?_)
  rw [withConfig_ite, setLdu_withConfig]
  rfl

theorem execLduCompose_withConfig (k j : BitVec 2) (i : BitVec 4) :
    execLduCompose k j i (withConfig o s) = answerWithConfig o (execLduCompose k j i s) := by
  refine command_withConfig o s rfl rfl ?_
  have hldu : (withConfig o s).ldu k = s.ldu k := rfl
  generalize composedLength k.toNat = total
  simp only [withConfig_ite, hldu]
  rfl

theorem execLduEnd_withConfig (op : Byte) :
    execLduEnd op (withConfig o s) = answerWithConfig o (execLduEnd op s) := by
  refine command_withConfig o s rfl rfl ?_
  simp only [withConfig_ite]
  rfl

/-! #### Voice blocks -/

theorem vbAt_withConfig (j : Nat) : (withConfig o s).vbAt j = s.vbAt j := rfl

theorem emit_withConfig (b : List Byte) : emit b (withConfig o s) = withConfig o (emit b s) := rfl

theorem execFrvEnc_withConfig (slot : Byte) :
    execFrvEnc slot (withConfig o s) = answerWithConfig o (execFrvEnc slot s) := by
  refine command_withConfig o s rfl rfl ?_
  simp only [withConfig_ite, vbAt_withConfig, emit_withConfig]
  rfl

theorem execFrvDec_withConfig (slot : Byte) :
    execFrvDec slot (withConfig o s) = answerWithConfig o (execFrvDec slot s) := by
  refine command_withConfig o s rfl rfl ?_
  simp only [withConfig_ite]
  rfl

/-! #### The payload -/

theorem execPlSize_withConfig (op : Byte) :
    execPlSize op (withConfig o s) = answerWithConfig o (execPlSize op s) := by
  refine command_withConfig o s rfl rfl ?_
  rw [withConfig_ite]
  rfl

/-- The tests and the bytes of PL.ENC read the packet types alone. -/
theorem record_congr_packetTypes (h : SamePacketTypes o s.cfg) :
    payloadWellFormed (withConfig o s) = payloadWellFormed s ∧ payloadBytes (withConfig o s) = payloadBytes s := by
  obtain ⟨hstart, hprog⟩ := h
  have h1 : isStart o s.hdr = isStart s.cfg s.hdr := by rw [isStart, isStart, hstart]
  have h2 : isProg o s.hdr = isProg s.cfg s.hdr := by rw [isProg, isProg, hprog]
  constructor
  · show (_ && (_ == isStart o s.hdr) && (_ == isProg o s.hdr) && (isProg o s.hdr || _) && (!isProg o s.hdr || _)) = _
    rw [h1, h2]
    rfl
  · show _ ++ (if isStart o s.hdr then _ else _) ++ (if isProg o s.hdr then _ else _) ++ _ = _
    rw [h1, h2]
    rfl

/-- The parsing of PL.DEC reads the packet types alone. -/
theorem parsePayload_congr_packetTypes {o p : Config.OpenParams} (h : SamePacketTypes o p) (b : List Byte) :
    parsePayload o b = parsePayload p b := by
  obtain ⟨hstart, hprog⟩ := h
  simp only [parsePayload, takePtt, takeVoice, hstart, hprog]

theorem execPlEnc_withConfig (op : Byte) (h : SamePacketTypes o s.cfg) :
    execPlEnc op (withConfig o s) = answerWithConfig o (execPlEnc op s) := by
  obtain ⟨hwf, hbytes⟩ := record_congr_packetTypes o s h
  refine command_withConfig o s rfl rfl ?_
  rw [hwf, hbytes]
  simp only [withConfig_ite]
  rfl

theorem execPlDec_withConfig (op : Byte) (h : SamePacketTypes o s.cfg) :
    execPlDec op (withConfig o s) = answerWithConfig o (execPlDec op s) := by
  refine command_withConfig o s rfl rfl ?_
  have hparse : parsePayload (withConfig o s).cfg (available (withConfig o s)) = parsePayload s.cfg (available s) :=
    parsePayload_congr_packetTypes h _
  rw [hparse, withConfig_ite]
  cases parsePayload s.cfg (available s) with
  | error c => rfl
  | ok parts => rfl

/-! #### Every instruction -/

theorem execReset_withConfig (op : Byte) :
    execReset op (withConfig o s) = answerWithConfig o (execReset op s) := by
  simp only [execReset, answerWithConfig, withConfig_ite]
  rfl

/-- An instruction commutes with other OPEN parameters: PL.ENC and PL.DEC if the packet types are the same, every other one
always. -/
theorem exec_withConfig (i : Instr)
    (h : (∀ op, i ≠ .plEnc op ∧ i ≠ .plDec op) ∨ SamePacketTypes o s.cfg) :
    exec i (withConfig o s) = answerWithConfig o (exec i s) := by
  cases i with
  | nop | lduGetImbe | lduBegin | lduToVb | frvSize => exact command_withConfig o s rfl rfl rfl
  | reset op => exact execReset_withConfig o s op
  | bpPack op => exact execBpPack_withConfig o s op
  | bpUnpack op => exact execBpUnpack_withConfig o s op
  | dfsiEnc ft => exact execDfsiEnc_withConfig o s ft
  | dfsiDec op => exact execDfsiDec_withConfig o s op
  | dfsiLen ft => exact execDfsiLen_withConfig o s ft
  | lduCheck k j i => exact execLduCheck_withConfig o s k j i
  | lduReasm k j i => exact execLduReasm_withConfig o s k j i
  | lduCompose k j i => exact execLduCompose_withConfig o s k j i
  | lduEnd op => exact execLduEnd_withConfig o s op
  | ctlEnc | bhEnc | pktEnc | pttEnc | frhEnc => exact encoder_withConfig o s rfl rfl
  | ctlDec | bhDec | pktDec | pttDec | frhDec => exact decoder_withConfig o s rfl rfl (fun _ _ => rfl)
  | frvEnc slot => exact execFrvEnc_withConfig o s slot
  | frvDec slot => exact execFrvDec_withConfig o s slot
  | plSize op => exact execPlSize_withConfig o s op
  | plEnc op => exact execPlEnc_withConfig o s op (h.resolve_left fun hne => (hne op).1 rfl)
  | plDec op => exact execPlDec_withConfig o s op (h.resolve_left fun hne => (hne op).2 rfl)
  | voice1 | voice2 | voice3 | voice4 | voice5 | voice6 | voice7 | voice8 | voice9 | voice10 | voice11 | voice12
  | voice13 | voice14 | voice15 | voice16 | voice17 | voice18 => exact execVoice_withConfig o s _ _ _

end

/-! #### The OPEN parameters stay -/

/-- No instruction changes the OPEN parameters: it commutes with replacing them by themselves. -/
theorem exec_cfg {i : Instr} {s t : State} (h : exec i s = .next t) : t.cfg = s.cfg := by
  have hself := exec_withConfig s.cfg s i (.inr ⟨rfl, rfl⟩)
  rw [withConfig_self, h] at hself
  have ht : t = withConfig s.cfg t := Host.Outcome.next.inj hself
  calc t.cfg = (withConfig s.cfg t).cfg := congrArg State.cfg ht
    _ = s.cfg := rfl

theorem runWord_cfg {w : CmdWord} {s t : State} (h : runWord w s = .next t) : t.cfg = s.cfg := by
  unfold runWord at h
  split at h
  · exact exec_cfg h
  · cases h
    rw [illegalOpcode]
    split <;> rfl

theorem regWrite_cfg (v : RegData) (s : State) (r : Reg) : (r.write v s).cfg = s.cfg := by
  cases r <;> rfl

theorem setMemory_cfg (s : State) (id : BitVec 4) (m : Memory) : (s.setMemory id m).cfg = s.cfg := by
  unfold State.setMemory
  split <;> rfl

/-- Nor does a move of the host that issues no command. -/
theorem hostAccess_cfg (a : HostAction) (s : State) : (hostAccess a s).cfg = s.cfg := by
  cases a with
  | readReg | readMem | resetPin => rfl
  | writeReg index v =>
    show (hostWriteReg index v s).cfg = s.cfg
    unfold hostWriteReg
    split
    · exact regWrite_cfg v s _
    · rfl
  | writeMem id a b =>
    show (hostWriteMem id a b s).cfg = s.cfg
    rw [hostWriteMem, apply_ite State.cfg, setMemory_cfg, ite_self]

theorem step_cfg {s t : State} (h : step s = .next t) : t.cfg = s.cfg := by
  unfold step at h
  split at h
  · cases h; rfl
  · split at h
    · have hcfg := runWord_cfg h
      exact hcfg
    · cases h; exact hostAccess_cfg _ _

/-- Settles O58: every step keeps the OPEN parameters, and an instruction commutes with replacing them. -/
theorem configurationIsConstantAndReadByThePayloadCommands :
    Obligations.ConfigurationIsConstantAndReadByThePayloadCommands := by
  refine ⟨fun s t h => step_cfg h, fun i s t o h hread => ?_⟩
  have hcomm := exec_withConfig o s i hread
  rwa [h] at hcomm

end Sys2Proof.Configuration
end

section
/-! SUPPORT. O11: every step keeps the invariant of Safety.lean. The invariant as a proposition with named clauses; then one
lemma per operation of the model that says under which condition it keeps the invariant; then one per instruction, which
supplies those conditions; then the host's accesses and the step. -/

namespace Sys2Proof.Invariance

open Sys2Proof.Machine Sys2Proof.Claims

/-! ### The invariant, clause by clause -/

/-- A voice slot's memories are in their canonical form and within their length, and so is its data length (R32,
R40). -/
def SlotOk (v : VoiceSlot) : Prop :=
  Memory.wf 11 v.imbe = true ∧ Memory.wf 16 v.afd = true ∧ v.afdLen.toNat ≤ 16

/-- With the latch set: FAULT_CAUSE is a cause, and CODE is that cause or REFUSED (R241, R243). -/
def LatchedStatus (code cause : BitVec 8) : Prop :=
  (cause = 0x80#8 ∨ cause = 0x81#8) ∧ (code = cause ∨ code = 0xFF#8)

/-- With the latch clear: no fault is recorded, and CODE is neither a cause nor REFUSED (R231, R241). -/
def ClearStatus (code cause : BitVec 8) (cmd : BitVec 16) : Prop :=
  cause = 0#8 ∧ cmd = 0#16 ∧ code ≠ 0x80#8 ∧ code ≠ 0x81#8 ∧ code ≠ 0xFF#8

/-- CODE is one of the codes and agrees with FAULT, FAULT_CAUSE and FAULT_CMD. -/
def StatusAgrees (code : BitVec 8) (fault : BitVec 1) (cause : BitVec 8) (cmd : BitVec 16) : Prop :=
  code ∈ statusCodes ∧ (fault = 1 → LatchedStatus code cause) ∧ (fault ≠ 1 → ClearStatus code cause cmd)

/-- The memories that are not a voice slot's (R40). -/
def BuffersOk (ib ob ldu1 ldu2 imbe pafd : Memory) : Prop :=
  Memory.wf 256 ib = true ∧ Memory.wf 256 ob = true ∧ Memory.wf 216 ldu1 = true ∧ Memory.wf 216 ldu2 = true
    ∧ Memory.wf 11 imbe = true ∧ Memory.wf 64 pafd = true

/-- The lengths and cursors (R24, R25, R30). -/
def CursorsOk (ibLen ibPtr obCap obPtr : BitVec 9) (pafdLen : BitVec 8) : Prop :=
  ibLen.toNat ≤ 256 ∧ ibPtr.toNat ≤ 256 ∧ obCap.toNat ≤ 256 ∧ obPtr.toNat ≤ 256 ∧ pafdLen.toNat ≤ 64

/-- `State.inv`, its clauses grouped by what an operation changes together. Each group takes the registers it is about, so that
an operation that leaves them alone keeps it as it stands. -/
def Invariant (s : State) : Prop :=
  BuffersOk s.ib s.ob s.ldu1 s.ldu2 s.imbe s.pafd
  ∧ CursorsOk s.ibLen s.ibPtr s.obCap s.obPtr s.hdr.pafdLen
  ∧ (∀ j < 3, SlotOk (s.vbAt j))
  ∧ StatusAgrees s.code s.fault s.faultCause s.faultCmd
  ∧ (s.ftLast = 0#8 ∨ isFrameType s.ftLast.toNat)
  ∧ s.result.toNat ≤ 256
  ∧ s.params.constraintsHold = true

theorem memoriesOk_iff (s : State) : s.memoriesOk = true ↔
    BuffersOk s.ib s.ob s.ldu1 s.ldu2 s.imbe s.pafd
    ∧ ∀ j < 3, Memory.wf 11 (s.vbAt j).imbe = true ∧ Memory.wf 16 (s.vbAt j).afd = true := by
  simp only [State.memoriesOk, BuffersOk, Bool.and_eq_true, List.all_eq_true, List.mem_range, and_assoc]

theorem cursorsOk_iff (s : State) : s.cursorsOk = true ↔
    CursorsOk s.ibLen s.ibPtr s.obCap s.obPtr s.hdr.pafdLen ∧ ∀ j < 3, (s.vbAt j).afdLen.toNat ≤ 16 := by
  simp only [State.cursorsOk, CursorsOk, Bool.and_eq_true, List.all_eq_true, List.mem_range, decide_eq_true_eq,
    and_assoc]

theorem statusAgrees_iff (s : State) : StatusAgrees s.code s.fault s.faultCause s.faultCmd ↔
    statusCodes.contains s.code = true
    ∧ (if s.fault = 1 then
        (s.faultCause == 0x80#8 || s.faultCause == 0x81#8) && (s.code == s.faultCause || s.code == 0xFF#8)
      else
        s.faultCause == 0#8 && s.faultCmd == 0#16
        && s.code != 0x80#8 && s.code != 0x81#8 && s.code != 0xFF#8) = true := by
  by_cases hf : s.fault = 1
  · simp only [if_pos hf, List.contains_iff_mem, Bool.and_eq_true, Bool.or_eq_true, beq_iff_eq]
    exact ⟨fun ⟨hlisted, hlatched, _⟩ => ⟨hlisted, hlatched hf⟩,
      fun ⟨hlisted, hlatched⟩ => ⟨hlisted, fun _ => hlatched, fun hn => absurd hf hn⟩⟩
  · simp only [if_neg hf, List.contains_iff_mem, Bool.and_eq_true, beq_iff_eq, bne_iff_ne, and_assoc]
    exact ⟨fun ⟨hlisted, _, hclear⟩ => ⟨hlisted, hclear hf⟩,
      fun ⟨hlisted, hclear⟩ => ⟨hlisted, fun hp => absurd hp hf, fun _ => hclear⟩⟩

theorem statusOk_iff (s : State) : s.statusOk = true ↔
    StatusAgrees s.code s.fault s.faultCause s.faultCmd ∧ (s.ftLast = 0#8 ∨ isFrameType s.ftLast.toNat)
      ∧ s.result.toNat ≤ 256 := by
  simp only [State.statusOk, statusAgrees_iff, isFrameType, Bool.and_eq_true, Bool.or_eq_true, beq_iff_eq,
    decide_eq_true_eq, and_assoc]

theorem inv_iff (s : State) : s.inv = true ↔ Invariant s := by
  simp only [State.inv, Bool.and_eq_true, memoriesOk_iff, cursorsOk_iff, statusOk_iff]
  constructor
  · rintro ⟨⟨⟨⟨hbuf, hmem⟩, hcur, hlen⟩, hstatus, hlast, hresult⟩, hcfg⟩
    exact ⟨hbuf, hcur, fun j hj => ⟨(hmem j hj).1, (hmem j hj).2, hlen j hj⟩, hstatus, hlast, hresult, hcfg⟩
  · rintro ⟨hbuf, hcur, hslot, hstatus, hlast, hresult, hcfg⟩
    have hmem : ∀ j < 3, Memory.wf 11 (s.vbAt j).imbe = true ∧ Memory.wf 16 (s.vbAt j).afd = true := by
      intro j hj
      obtain ⟨himbe, hafd, -⟩ := hslot j hj
      exact ⟨himbe, hafd⟩
    have hlen : ∀ j < 3, (s.vbAt j).afdLen.toNat ≤ 16 := by
      intro j hj
      obtain ⟨-, -, hle⟩ := hslot j hj
      exact hle
    exact ⟨⟨⟨⟨hbuf, hmem⟩, hcur, hlen⟩, hstatus, hlast, hresult⟩, hcfg⟩

/-! ### One clause read -/

section
variable {s : State} (h : Invariant s)
include h

theorem Invariant.buffers : BuffersOk s.ib s.ob s.ldu1 s.ldu2 s.imbe s.pafd := h.1

theorem Invariant.cursors : CursorsOk s.ibLen s.ibPtr s.obCap s.obPtr s.hdr.pafdLen := h.2.1

theorem Invariant.slot {j : Nat} (hj : j < 3) : SlotOk (s.vbAt j) := h.2.2.1 j hj

theorem Invariant.status : StatusAgrees s.code s.fault s.faultCause s.faultCmd := h.2.2.2.1

theorem Invariant.config : s.params.constraintsHold = true := h.2.2.2.2.2.2

theorem Invariant.ibLen_le : s.ibLen.toNat ≤ 256 := h.cursors.1

theorem Invariant.obCap_le : s.obCap.toNat ≤ 256 := h.cursors.2.2.1

theorem Invariant.obPtr_le : s.obPtr.toNat ≤ 256 := h.cursors.2.2.2.1

theorem Invariant.pafdLen_le : s.hdr.pafdLen.toNat ≤ 64 := h.cursors.2.2.2.2

theorem Invariant.wf_ob : Memory.wf 256 s.ob = true := h.buffers.2.1

theorem Invariant.wf_imbe : Memory.wf 11 s.imbe = true := h.buffers.2.2.2.2.1

theorem Invariant.wf_pafd : Memory.wf 64 s.pafd = true := h.buffers.2.2.2.2.2

/-! ### One group written -/

theorem inv_setBuffers {ib ob ldu1 ldu2 imbe pafd : Memory} (hbuf : BuffersOk ib ob ldu1 ldu2 imbe pafd) :
    Invariant { s with ib := ib, ob := ob, ldu1 := ldu1, ldu2 := ldu2, imbe := imbe, pafd := pafd } := by
  obtain ⟨-, hrest⟩ := h
  exact ⟨hbuf, hrest⟩

theorem inv_setCursors {ibLen ibPtr obCap obPtr : BitVec 9} {hdr : PayloadHeader}
    (hcur : CursorsOk ibLen ibPtr obCap obPtr hdr.pafdLen) :
    Invariant { s with ibLen := ibLen, ibPtr := ibPtr, obCap := obCap, obPtr := obPtr, hdr := hdr } := by
  obtain ⟨hbuf, -, hrest⟩ := h
  exact ⟨hbuf, hcur, hrest⟩

theorem inv_setSlots {vb : Vector VoiceSlot 3} (hslot : ∀ j < 3, SlotOk (vb.getD j VoiceSlot.reset)) :
    Invariant { s with vb := vb } := by
  obtain ⟨hbuf, hcur, -, hrest⟩ := h
  exact ⟨hbuf, hcur, hslot, hrest⟩

theorem inv_setStatus {code : BitVec 8} {fault : BitVec 1} {cause : BitVec 8} {cmd : BitVec 16}
    (hstatus : StatusAgrees code fault cause cmd) :
    Invariant { s with code := code, fault := fault, faultCause := cause, faultCmd := cmd } := by
  obtain ⟨hbuf, hcur, hslot, -, hrest⟩ := h
  exact ⟨hbuf, hcur, hslot, hstatus, hrest⟩

theorem inv_setFtLast {ft : Byte} (hft : isFrameType ft.toNat) : Invariant { s with ftLast := ft } := by
  obtain ⟨hbuf, hcur, hslot, hstatus, -, hrest⟩ := h
  exact ⟨hbuf, hcur, hslot, hstatus, .inr hft, hrest⟩

theorem inv_setResult {v : Nat} (hv : v ≤ 256) : Invariant (setResult v s) := by
  have hle : (BitVec.ofNat 16 v).toNat ≤ 256 := by rw [BitVec.toNat_ofNat]; omega
  obtain ⟨hbuf, hcur, hslot, hstatus, hlast, -, hcfg⟩ := h
  exact ⟨hbuf, hcur, hslot, hstatus, hlast, hle, hcfg⟩

/-! ### One memory or cursor written -/

theorem inv_setIb {m : Memory} (hm : Memory.wf 256 m = true) : Invariant { s with ib := m } := by
  obtain ⟨-, hrest⟩ := h.buffers
  exact inv_setBuffers h ⟨hm, hrest⟩

theorem inv_setOb {m : Memory} (hm : Memory.wf 256 m = true) : Invariant { s with ob := m } := by
  obtain ⟨hib, -, hrest⟩ := h.buffers
  exact inv_setBuffers h ⟨hib, hm, hrest⟩

theorem inv_setLdu1 {m : Memory} (hm : Memory.wf 216 m = true) : Invariant { s with ldu1 := m } := by
  obtain ⟨hib, hob, -, hrest⟩ := h.buffers
  exact inv_setBuffers h ⟨hib, hob, hm, hrest⟩

theorem inv_setLdu2 {m : Memory} (hm : Memory.wf 216 m = true) : Invariant { s with ldu2 := m } := by
  obtain ⟨hib, hob, hldu1, -, hrest⟩ := h.buffers
  exact inv_setBuffers h ⟨hib, hob, hldu1, hm, hrest⟩

theorem inv_setImbe {m : Memory} (hm : Memory.wf 11 m = true) : Invariant { s with imbe := m } := by
  obtain ⟨hib, hob, hldu1, hldu2, -, hpafd⟩ := h.buffers
  exact inv_setBuffers h ⟨hib, hob, hldu1, hldu2, hm, hpafd⟩

theorem inv_setPafd {m : Memory} (hm : Memory.wf 64 m = true) : Invariant { s with pafd := m } := by
  obtain ⟨hib, hob, hldu1, hldu2, himbe, -⟩ := h.buffers
  exact inv_setBuffers h ⟨hib, hob, hldu1, hldu2, himbe, hm⟩

theorem inv_setIbLen {p : BitVec 9} (hp : p.toNat ≤ 256) : Invariant { s with ibLen := p } := by
  obtain ⟨-, hrest⟩ := h.cursors
  exact inv_setCursors h ⟨hp, hrest⟩

theorem inv_setIbPtr {p : BitVec 9} (hp : p.toNat ≤ 256) : Invariant { s with ibPtr := p } := by
  obtain ⟨hlen, -, hrest⟩ := h.cursors
  exact inv_setCursors h ⟨hlen, hp, hrest⟩

theorem inv_setObCap {p : BitVec 9} (hp : p.toNat ≤ 256) : Invariant { s with obCap := p } := by
  obtain ⟨hlen, hptr, -, hrest⟩ := h.cursors
  exact inv_setCursors h ⟨hlen, hptr, hp, hrest⟩

theorem inv_setObPtr {p : BitVec 9} (hp : p.toNat ≤ 256) : Invariant { s with obPtr := p } := by
  obtain ⟨hlen, hptr, hcap, -, hpafd⟩ := h.cursors
  exact inv_setCursors h ⟨hlen, hptr, hcap, hp, hpafd⟩

/-- The payload header: of its registers PAFD_LEN alone is bounded. -/
theorem inv_setHdr {hdr : PayloadHeader} (hp : hdr.pafdLen.toNat ≤ 64) : Invariant { s with hdr := hdr } := by
  obtain ⟨hlen, hptr, hcap, hob, -⟩ := h.cursors
  exact inv_setCursors h ⟨hlen, hptr, hcap, hob, hp⟩

end

/-! ### The shared operations -/

section
variable {s : State}

/-- Ending with a status other than REFUSED, the latch clear. -/
theorem inv_endWith (h : Invariant s) {c : Status} (hf : s.fault ≠ 1) (hc : c ≠ .refused) :
    Invariant (endWith c s) := by
  obtain ⟨-, -, hclear⟩ := h.status
  obtain ⟨hcause, hcmd, -⟩ := hclear hf
  have hcode : c.code ∈ statusCodes ∧ c.code ≠ 0x80#8 ∧ c.code ≠ 0x81#8 ∧ c.code ≠ 0xFF#8 := by
    cases c with
    | refused => exact absurd rfl hc
    | _ => decide
  exact inv_setStatus h ⟨hcode.1, fun hl => absurd hl hf, fun _ => ⟨hcause, hcmd, hcode.2⟩⟩

/-- Ending REFUSED, the latch set. -/
theorem inv_refused (h : Invariant s) (hf : s.fault = 1) : Invariant (endWith .refused s) := by
  obtain ⟨-, hlatched, -⟩ := h.status
  obtain ⟨hcause, -⟩ := hlatched hf
  have hlisted : Status.refused.code ∈ statusCodes := by decide
  exact inv_setStatus h ⟨hlisted, fun _ => ⟨hcause, .inr rfl⟩, fun hn => absurd hf hn⟩

theorem inv_raiseFault (h : Invariant s) (cause : FaultCause) (cmd : CmdWord) : Invariant (raiseFault cause cmd s) := by
  have hcode : cause.code ∈ statusCodes ∧ (cause.code = 0x80#8 ∨ cause.code = 0x81#8) := by cases cause <;> decide
  exact inv_setStatus h ⟨hcode.1, fun _ => ⟨hcode.2, .inl rfl⟩, fun hn => absurd rfl hn⟩

/-- Every register and memory at its reset value. -/
theorem inv_resetFor {o : Config.OpenParams} (ho : (Config.paramsFor o).constraintsHold = true) :
    Invariant (State.resetFor o) := by
  have hslot : ∀ j < 3, SlotOk ((State.resetFor o).vbAt j) := by
    intro j hj
    interval_cases j <;> exact ⟨rfl, rfl, Nat.zero_le _⟩
  have hstatus : StatusAgrees 0 0 0 0 := by
    refine ⟨by decide, fun hl => absurd hl (by decide), fun _ => ?_⟩
    unfold ClearStatus
    decide
  have hcur : CursorsOk 0 0 0 0 0 := by
    unfold CursorsOk
    decide
  exact ⟨⟨rfl, rfl, rfl, rfl, rfl, rfl⟩, hcur, hslot, hstatus, .inl rfl, Nat.zero_le _, ho⟩

theorem inv_resetCodec (h : Invariant s) : Invariant (resetCodec s) := inv_resetFor h.config

/-- The common checks, when the rest of the command keeps the invariant with the latch clear and the operand well-formed. -/
theorem inv_commonChecks (h : Invariant s) {ok : Bool} {rest : State}
    (hrest : s.fault ≠ 1 → ok = true → Invariant rest) : Invariant (commonChecks ok s rest) := by
  rcases commonChecks_cases ok s rest with ⟨hf, he⟩ | ⟨hf, -, he⟩ | ⟨hf, hok, he⟩ <;> rw [he]
  · exact inv_refused h hf
  · exact inv_endWith h hf (by decide)
  · exact hrest hf hok

theorem inv_illegalOpcode (h : Invariant s) : Invariant (illegalOpcode s) := by
  unfold illegalOpcode
  split
  · exact inv_refused h ‹_›
  · exact inv_endWith h ‹_› (by decide)

/-- A 9-bit cursor moved to a place within a buffer. -/
theorem cursor_le {n : Nat} (hn : n ≤ 256) : (BitVec.ofNat 9 n).toNat ≤ 256 := by
  rw [BitVec.toNat_ofNat]
  omega

theorem inv_emit (h : Invariant s) (hf : s.fault ≠ 1) {b : List Byte}
    (hr : s.obPtr.toNat + b.length ≤ s.obCap.toNat) : Invariant (emit b s) := by
  have hcap : s.obPtr.toNat + b.length ≤ 256 := hr.trans h.obCap_le
  have hmoved : Invariant
      { s with ob := memWrite s.ob s.obPtr.toNat b, obPtr := BitVec.ofNat 9 (s.obPtr.toNat + b.length) } :=
    inv_setObPtr (inv_setOb h (wf_memWrite b h.wf_ob hcap)) (cursor_le hcap)
  exact inv_endWith (inv_setResult hmoved (by omega)) hf (by decide)

theorem inv_emitIfRoom (h : Invariant s) (hf : s.fault ≠ 1) (b : List Byte) : Invariant (emitIfRoom b s) := by
  rcases emitIfRoom_cases b s with ⟨-, he⟩ | ⟨hr, he⟩ <;> rw [he]
  · exact inv_endWith h hf (by decide)
  · exact inv_emit h hf hr

theorem inv_encFixed (h : Invariant s) (hf : s.fault ≠ 1) (cmd : CmdWord) (b : List Byte) :
    Invariant (encFixed cmd b s) := by
  rcases encFixed_cases cmd b s with ⟨-, he⟩ | ⟨-, -, he⟩ | ⟨-, hr, he⟩ <;> rw [he]
  · exact inv_raiseFault h _ _
  · exact inv_endWith h hf (by decide)
  · exact inv_emit h hf hr

theorem inv_consume (h : Invariant s) (hf : s.fault ≠ 1) {n : Nat} (hr : s.ibPtr.toNat + n ≤ s.ibLen.toNat) :
    Invariant (consume n s) := by
  have hlen : s.ibPtr.toNat + n ≤ 256 := hr.trans h.ibLen_le
  exact inv_endWith (inv_setResult (inv_setIbPtr h (cursor_le hlen)) (by omega)) hf (by decide)

/-- `DecFixed`, when writing the command's registers keeps the invariant. -/
theorem inv_decFixed (h : Invariant s) (hf : s.fault ≠ 1) (n : Nat) {k : List Byte → State → State}
    (hk : ∀ b t, Invariant t → Invariant (k b t)) : Invariant (decFixed n s k) := by
  rcases decFixed_cases n s k with ⟨-, he⟩ | ⟨-, -, he⟩ | ⟨-, hr, he⟩ <;> rw [he]
  · exact inv_endWith h hf (by decide)
  · exact inv_endWith h hf (by decide)
  · exact hk _ _ (inv_consume h hf hr)

theorem inv_setBh (h : Invariant s) (i : Nat) (b : BlockHeader) : Invariant (s.setBh i b) := h

theorem inv_setVb (h : Invariant s) {j : Nat} {v : VoiceSlot} (hv : j < 3 → SlotOk v) : Invariant (s.setVb j v) := by
  have hslot : ∀ n < 3, SlotOk ((s.setVb j v).vbAt n) := by
    intro n hn
    rw [vbAt_setVb]
    split
    · next hj => exact hv hj.2
    · exact h.slot hn
  exact inv_setSlots h hslot

theorem inv_setLdu (h : Invariant s) (k : BitVec 2) {m : Memory} (hm : Memory.wf 216 m = true) :
    Invariant (s.setLdu k m) := by
  unfold State.setLdu
  split
  · exact inv_setLdu1 h hm
  · exact inv_setLdu2 h hm

theorem wf_ldu (h : Invariant s) (k : BitVec 2) : Memory.wf 216 (s.ldu k) = true := by
  obtain ⟨-, -, hldu1, hldu2, -⟩ := h.buffers
  unfold State.ldu
  split
  · exact hldu1
  · exact hldu2

/-- The record at the cursor: a status other than REFUSED if it is not there. -/
theorem inv_recordAtCursor_error (h : Invariant s) (hf : s.fault ≠ 1) {c : Status} (hr : recordAtCursor s = .error c) :
    Invariant (endWith c s) := by
  refine inv_endWith h hf ?_
  rintro rfl
  rcases recordAtCursor_cases s with ⟨-, he⟩ | ⟨-, -, he⟩ | ⟨-, -, he⟩ <;> simp [he] at hr

end

/-! ### Memories and slots after the commands' writes -/

theorem length_slice_le (f : List Byte) (a n : Nat) : (slice f a n).length ≤ n := List.length_take_le ..

theorem slotOk_setImbe {v : VoiceSlot} (hv : SlotOk v) {m : Memory} (hm : Memory.wf 11 m = true) :
    SlotOk { v with imbe := m } := by
  obtain ⟨-, hafd, hlen⟩ := hv
  exact ⟨hm, hafd, hlen⟩

theorem slotOk_setAfd {v : VoiceSlot} (hv : SlotOk v) {m : Memory} (hm : Memory.wf 16 m = true) :
    SlotOk { v with afd := m } := by
  obtain ⟨himbe, -, hlen⟩ := hv
  exact ⟨himbe, hm, hlen⟩

theorem slotOk_setAfdLen {v : VoiceSlot} (hv : SlotOk v) {n : BitVec 8} (hn : n.toNat ≤ 16) :
    SlotOk { v with afdLen := n } := by
  obtain ⟨himbe, hafd, -⟩ := hv
  exact ⟨himbe, hafd, hn⟩

/-- A codeword laid at the beginning of a memory of its length. -/
theorem wf_memWrite_codeword {m : Memory} (hm : Memory.wf 11 m = true) {c : List Byte} (hc : c.length ≤ 11) :
    Memory.wf 11 (memWrite m 0 c) = true := wf_memWrite c hm (by omega)

/-- Every chunk of a record has its place within an LDU buffer (R69). -/
theorem wf_reassemble {m : Memory} (hm : Memory.wf 216 m = true) (rec : List Byte) :
    Memory.wf 216 (reassemble rec m) = true := by
  have hroom : ∀ i ∈ List.range 9, Config.doff i + Config.clen i ≤ 216 := by decide
  refine List.foldlRecOn (motive := fun m => Memory.wf 216 m = true) _ _ hm (fun m hm i hi => ?_)
  have hlen := length_slice_le rec (Config.moff i) (Config.clen i)
  have hplace := hroom i hi
  exact wf_memWrite _ hm (by omega)

theorem slotOk_loadFixed {v : VoiceSlot} (hv : SlotOk v) (b : List Byte) : SlotOk (v.loadFixed b) := by
  obtain ⟨himbe, hrest⟩ := hv
  rw [loadFixed_eq]
  exact ⟨wf_memWrite_codeword himbe (length_slice_le ..), hrest⟩

theorem slotOk_fromLdu {v : VoiceSlot} (hv : SlotOk v) (m : Memory) (i : Nat) : SlotOk (v.fromLdu m i) := by
  obtain ⟨himbe, hafd, -⟩ := hv
  exact ⟨wf_memWrite_codeword himbe (Nat.le_of_eq (length_memRead ..)), hafd, Nat.zero_le _⟩

theorem sfLength_le (ft : Nat) : sfLength ft ≤ 22 := by
  unfold sfLength
  split <;> decide

/-! ### The commands -/

section
variable {s : State}

/-- The answer is a next state that has the invariant. -/
def Keeps : Answer → Prop
  | .next t => Invariant t
  | .fault _ => False
  | .refused _ => False

/-- A command: the common checks and a rest. -/
theorem keeps_command (h : Invariant s) {ok : Bool} {rest : State}
    (hrest : s.fault ≠ 1 → ok = true → Invariant rest) : Keeps (.next (commonChecks ok s rest)) :=
  inv_commonChecks h hrest

theorem execReset_keeps (h : Invariant s) (op : Byte) : Keeps (execReset op s) := by
  show Invariant (if op != 0#8 && s.fault == 1#1 then _ else _)
  by_cases hop : op = 0#8
  · simpa [hop] using inv_resetCodec h
  · by_cases hf : s.fault = 1#1
    · simpa [hop, hf] using inv_refused h hf
    · simpa [hop, hf] using inv_endWith h hf (c := .errOperand) (by decide)

/-- A command that tests its input between the target buffer and the room for its bytes. -/
theorem keeps_testedEncoder (h : Invariant s) (ok : Bool) (cmd : CmdWord) (test : Prop) [Decidable test] (b : List Byte)
    {c : Status} (hc : c ≠ .refused) :
    Keeps (.next (commonChecks ok s
      (if s.obValid = 0 then raiseFault .nullBuf cmd s else if test then emitIfRoom b s else endWith c s))) := by
  refine keeps_command h (fun hf _ => ?_)
  split
  · exact inv_raiseFault h _ _
  · split
    · exact inv_emitIfRoom h hf _
    · exact inv_endWith h hf hc

theorem execBpUnpack_keeps (h : Invariant s) (op : Byte) : Keeps (execBpUnpack op s) := by
  refine keeps_command h (fun hf _ => ?_)
  split
  · exact inv_endWith h hf (by decide)
  · split
    · exact inv_decFixed h hf _ (fun _ _ ht => ht)
    · exact inv_endWith h hf (by decide)

/-- A sub-frame format whose codeword fits into IMBE. -/
theorem execVoice_keeps (h : Invariant s) {ft : Nat} (hft : isFrameType ft) (upd : CallData → CallData)
    {c : List Byte} (hc : c.length ≤ 11) : Keeps (execVoice ft upd c s) := by
  refine keeps_command h (fun hf _ => ?_)
  split
  · exact inv_endWith h hf (by decide)
  · split
    · exact inv_endWith h hf (by decide)
    · next hroom =>
      have hlast : (BitVec.ofNat 8 ft).toNat = ft := by
        obtain ⟨-, hle⟩ := hft
        rw [BitVec.toNat_ofNat]
        omega
      have hwritten : Invariant
          { s with cd := upd s.cd, imbe := memWrite s.imbe 0 c, ftLast := BitVec.ofNat 8 ft } :=
        inv_setFtLast (inv_setImbe h (wf_memWrite_codeword h.wf_imbe hc)) (hlast.symm ▸ hft)
      exact inv_consume hwritten hf (Nat.not_lt.mp hroom)

theorem subFrameStatus_ne_refused (e : DecodeError) : subFrameStatus e ≠ .refused := by
  cases e <;> exact nofun

theorem execSubFrame_keeps (h : Invariant s) {f : List Byte} {v : Instr} (hd : decodeSubFrame f = .ok v) :
    Keeps (execSubFrame v s) := by
  obtain ⟨hft, -, hv⟩ := decodeSubFrame_ok hd
  obtain ⟨w, hw, hact⟩ := voiceOfBytes_some hft f
  obtain rfl : v = w := Option.some.inj (hv.symm.trans hw)
  rw [(hact s).2, (hact s).1]
  exact execVoice_keeps h hft _ (length_slice_le ..)

theorem execDfsiDec_keeps (h : Invariant s) (op : Byte) : Keeps (execDfsiDec op s) := by
  unfold execDfsiDec
  split
  · exact inv_refused h ‹_›
  · next hf =>
    split
    · split
      · exact inv_endWith h hf (by decide)
      · split
        · exact inv_endWith h hf (subFrameStatus_ne_refused _)
        · next hd => exact execSubFrame_keeps h hd
    · exact inv_endWith h hf (by decide)

theorem execDfsiLen_keeps (h : Invariant s) (ft : Byte) : Keeps (execDfsiLen ft s) := by
  refine keeps_command h (fun hf _ => ?_)
  split
  · next hv =>
    have hlen : Config.sfLen ft.toNat ≤ 256 := by
      rw [sfLen_eq _ ((validFrameType_iff ft).mp hv)]
      exact (sfLength_le _).trans (by decide)
    exact inv_endWith (inv_setResult h hlen) hf (by decide)
  · exact inv_endWith h hf (by decide)

theorem execLduCheck_keeps (h : Invariant s) (k j : BitVec 2) (i : BitVec 4) : Keeps (execLduCheck k j i s) := by
  refine keeps_command h (fun hf _ => ?_)
  split
  · next hr => exact inv_recordAtCursor_error h hf hr
  · split
    · exact inv_endWith (inv_setResult h (by decide)) hf (by decide)
    · exact inv_endWith (inv_setResult h (by decide)) hf (by decide)

theorem setLdu_fault (s : State) (k : BitVec 2) (m : Memory) : (s.setLdu k m).fault = s.fault := by
  unfold State.setLdu
  split <;> rfl

theorem execLduReasm_keeps (h : Invariant s) (k j : BitVec 2) (i : BitVec 4) : Keeps (execLduReasm k j i s) := by
  refine keeps_command h (fun hf _ => ?_)
  split
  · next hr => exact inv_recordAtCursor_error h hf hr
  · next rec _ =>
    split
    · have hlaid := inv_setLdu h k (wf_reassemble (wf_ldu h k) rec)
      exact inv_endWith (inv_setResult hlaid (by decide)) (by rwa [setResult_fault, setLdu_fault]) (by decide)
    · exact inv_endWith (inv_setResult h (by decide)) hf (by decide)

theorem execLduGetImbe_keeps (h : Invariant s) (k j : BitVec 2) (i : BitVec 4) : Keeps (execLduGetImbe k j i s) := by
  refine keeps_command h (fun hf _ => ?_)
  have himbe := wf_memWrite_codeword h.wf_imbe (c := lduCodeword (s.ldu k) i.toNat) (Nat.le_of_eq (length_memRead ..))
  exact inv_endWith (inv_setImbe h himbe) hf (by decide)

/-- Both logical units compose to 178 bytes: the header and 154 (R158). -/
theorem composedLength_eq {k : BitVec 2} (hk : k = 1 ∨ k = 2) : composedLength k.toNat = 178 := by
  rcases hk with rfl | rfl <;> rfl

theorem execLduCompose_keeps (h : Invariant s) (k j : BitVec 2) (i : BitVec 4) : Keeps (execLduCompose k j i s) := by
  unfold execLduCompose
  generalize htotal : composedLength k.toNat = total
  refine keeps_command h (fun hf hop => ?_)
  obtain ⟨hk, -, -⟩ := (operandSelK_iff k j i).mp hop
  obtain rfl : 178 = total := (composedLength_eq hk).symm.trans htotal
  dsimp only
  split
  · exact inv_raiseFault h _ _
  · split
    · exact inv_raiseFault h _ _
    · split
      · exact inv_endWith h hf (by decide)
      · have hlen : (composedFrames k.toNat s.cd (s.ldu k)).length = 154 := by
          rw [composedFrames_eq hk, length_composed hk]
        have hframes := wf_memWrite (a := Config.hdrLen) _ h.wf_ob (by rw [hlen]; decide)
        have hob := Memory.wf_write (a := Config.lenOff) (BitVec.ofNat 8 178) hframes (by decide)
        have hwritten := inv_setObPtr (inv_setOb h hob) (cursor_le (n := 178) (by decide))
        exact inv_endWith (inv_setResult hwritten (by decide)) hf (by decide)

theorem execLduBegin_keeps (h : Invariant s) (op : Byte) : Keeps (execLduBegin op s) := by
  refine keeps_command h (fun hf _ => ?_)
  exact inv_endWith (inv_setObPtr h (cursor_le (by decide))) hf (by decide)

theorem execLduEnd_keeps (h : Invariant s) (op : Byte) : Keeps (execLduEnd op s) := by
  refine keeps_command h (fun hf _ => ?_)
  split
  · exact inv_raiseFault h _ _
  · split
    · exact inv_raiseFault h _ _
    · split
      · exact inv_endWith h hf (by decide)
      · have hob := Memory.wf_write (a := Config.lenOff) (s.obPtr.extractLsb' 0 8) h.wf_ob (by decide)
        exact inv_endWith (inv_setResult (inv_setOb h hob) h.obPtr_le) hf (by decide)

theorem execLduToVb_keeps (h : Invariant s) (k j : BitVec 2) (i : BitVec 4) : Keeps (execLduToVb k j i s) := by
  refine keeps_command h (fun hf _ => ?_)
  have hset := inv_setVb h (j := j.toNat) (fun hj => slotOk_fromLdu (h.slot hj) (s.ldu k) i.toNat)
  exact inv_endWith hset hf (by decide)

/-- A command that ends in `EncFixed`. -/
theorem keeps_encoder (h : Invariant s) (ok : Bool) (cmd : CmdWord) (b : List Byte) :
    Keeps (.next (commonChecks ok s (encFixed cmd b s))) :=
  keeps_command h (fun hf _ => inv_encFixed h hf cmd b)

/-- A command that begins with `DecFixed`. -/
theorem keeps_decoder (h : Invariant s) (ok : Bool) (n : Nat) {k : List Byte → State → State}
    (hk : ∀ b t, Invariant t → Invariant (k b t)) : Keeps (.next (commonChecks ok s (decFixed n s k))) :=
  keeps_command h (fun hf _ => inv_decFixed h hf n hk)

theorem execFrvEnc_keeps (h : Invariant s) (slot : Byte) : Keeps (execFrvEnc slot s) := by
  refine keeps_command h (fun hf _ => ?_)
  have hptr := h.obPtr_le
  dsimp only
  split
  · exact inv_endWith h hf (by decide)
  · split
    · exact inv_endWith h hf (by decide)
    · next hfixed =>
      simp only [Config.frvFixedLen] at hfixed
      split
      · next hall =>
        simp only [Config.frvFixedLen] at hall
        exact inv_emit h hf (by rw [List.length_append, length_frvFixed, length_frvAfd]; omega)
      · exact inv_emit h hf (by rw [length_frvFixed]; omega)

theorem length_available_le (h : Invariant s) : (available s).length ≤ 256 := by
  have hlen := h.ibLen_le
  rw [length_available]
  omega

theorem execFrvDec_keeps (h : Invariant s) (slot : Byte) : Keeps (execFrvDec slot s) := by
  refine keeps_command h (fun hf hop => ?_)
  obtain ⟨himbe, hafd, -⟩ := slotOk_loadFixed (h.slot ((operandIdx_iff _ slot).mp hop)) (available s)
  dsimp only
  split
  · exact inv_endWith h hf (by decide)
  · split
    · exact inv_endWith h hf (by decide)
    · split
      · exact inv_endWith h hf (by decide)
      · next hextra =>
        have hextra : (available s).length - 14 ≤ 16 := Nat.not_lt.mp hextra
        have hnew : SlotOk
            { (s.vbAt slot.toNat).loadFixed (available s) with
              afdLen := BitVec.ofNat 8 ((available s).length - Config.frvFixedLen)
              afd := memWrite ((s.vbAt slot.toNat).loadFixed (available s)).afd 0
                ((available s).drop Config.frvFixedLen) } :=
          ⟨himbe, wf_memWrite _ hafd (by rw [List.length_drop, Nat.zero_add]; exact hextra),
            (Nat.mod_le _ _).trans hextra⟩
        have hset := inv_setVb h (fun _ => hnew) (j := slot.toNat)
        exact inv_endWith (inv_setResult (inv_setIbPtr hset h.ibLen_le) (length_available_le h)) hf (by decide)

theorem frvSize_le {v : VoiceSlot} (hv : SlotOk v) : frvSize v ≤ 30 := by
  obtain ⟨-, -, hlen⟩ := hv
  simp only [frvSize, Config.frvFixedLen]
  omega

theorem execFrvSize_keeps (h : Invariant s) (slot : Byte) : Keeps (execFrvSize slot s) := by
  refine keeps_command h (fun hf hop => ?_)
  have hsize := frvSize_le (h.slot ((operandIdx_iff _ slot).mp hop))
  exact inv_endWith (inv_setResult h (hsize.trans (by decide))) hf (by decide)

/-- A bounded record has at most 184 bytes (R201). -/
theorem payloadSize_le (h : Invariant s) (hb : payloadBounded s = true) : payloadSize s ≤ 256 := by
  obtain ⟨hbh, hvb⟩ := (bounded_iff s).mp hb
  have hvoice : ((List.range s.hdr.vbCnt.toNat).map (fun j => frvSize (s.vbAt j))).sum ≤ s.hdr.vbCnt.toNat * 30 := by
    have hle : ∀ n ∈ (List.range s.hdr.vbCnt.toNat).map (fun j => frvSize (s.vbAt j)), n ≤ 30 := by
      intro n hn
      obtain ⟨j, hj, rfl⟩ := List.mem_map.mp hn
      exact frvSize_le (h.slot (by have := List.mem_range.mp hj; omega))
    simpa using List.sum_le_card_nsmul _ _ hle
  have hptt : (if s.ptt.present = 1 then 8 else 0) ≤ 8 := by split <;> decide
  have hfrh : (if s.hdr.frhPresent = 1 then 1 else 0) ≤ 1 := by split <;> decide
  have hpafd := h.pafdLen_le
  show 1 + 4 * s.hdr.bhCnt.toNat + 4 + (if s.ptt.present = 1 then 8 else 0) + (if s.hdr.frhPresent = 1 then 1 else 0)
    + ((List.range s.hdr.vbCnt.toNat).map (fun j => frvSize (s.vbAt j))).sum + s.hdr.pafdLen.toNat ≤ 256
  omega

theorem execPlSize_keeps (h : Invariant s) (op : Byte) : Keeps (execPlSize op s) := by
  refine keeps_command h (fun hf _ => ?_)
  split
  · next hb => exact inv_endWith (inv_setResult h (payloadSize_le h hb)) hf (by decide)
  · exact inv_endWith h hf (by decide)

/-- A well-formed record has as many bytes as PL.ENC checks room for (R202). -/
theorem length_payloadBytes (hwf : payloadWellFormed s = true) : (payloadBytes s).length = payloadSize s := by
  rw [recordBytes_eq, length_recordBytes s ((wf_iff s).mp hwf)]
  rfl

theorem execPlEnc_keeps (h : Invariant s) (op : Byte) : Keeps (execPlEnc op s) := by
  refine keeps_command h (fun hf _ => ?_)
  split
  · exact inv_raiseFault h _ _
  · split
    · next hwf =>
      split
      · exact inv_endWith h hf (by decide)
      · next hroom => exact inv_emit h hf (by rw [length_payloadBytes hwf]; exact Nat.not_lt.mp hroom)
    · exact inv_endWith h hf (by decide)

/-- The last test of PL.DEC, on the trailing data (R204). -/
theorem rest_le_of_inputStatus_ok (h0 : inputStatus s = 0x00) : inputLength s - inputRest s ≤ 64 := by
  by_contra hgt
  have hfails : inputStatus s ≠ 0x00 := by
    unfold inputStatus
    rw [if_pos (show inputLength s - inputRest s > 64 by omega)]
    split_ifs <;> decide
  exact hfails h0

/-- What PL.DEC's parsing answers: a status other than REFUSED, or parts whose trailing data fit into PAFD (R204). -/
theorem parsePayload_cases (h : Invariant s) :
    (∃ c, c ≠ .refused ∧ parsePayload s.cfg (available s) = .error c) ∨
    (∃ p, p.rest.length ≤ 64 ∧ parsePayload s.cfg (available s) = .ok p) := by
  rw [parse_eq s (start_ne_progress h.config)]
  split
  · next h0 =>
    refine .inr ⟨_, ?_, rfl⟩
    show (memRead _ _ _).length ≤ 64
    rw [length_memRead]
    exact rest_le_of_inputStatus_ok h0
  · refine .inl ⟨_, ?_, rfl⟩
    unfold statusOf
    split <;> decide

theorem slotOk_loadVoiceBlocks (h : Invariant s) (blocks : List (List Byte)) :
    ∀ j < 3, SlotOk ((loadVoiceBlocks s.vb 0 blocks).getD j VoiceSlot.reset) := by
  intro j hj
  rw [getD_loadVoice]
  split
  · obtain ⟨himbe, hafd, -⟩ := slotOk_loadFixed (h.slot hj) (blocks.getD (j - 0) [])
    exact ⟨himbe, hafd, Nat.zero_le _⟩
  · exact h.slot hj

theorem inv_commitPayload (h : Invariant s) {p : PayloadParts} (hp : p.rest.length ≤ 64) :
    Invariant (commitPayload p s) := by
  have hrest : Memory.wf 64 (memWrite s.pafd 0 p.rest) = true := wf_memWrite _ h.wf_pafd (by omega)
  have hlen : (BitVec.ofNat 8 p.rest.length).toNat ≤ 64 := (Nat.mod_le _ _).trans hp
  unfold commitPayload
  cases p.voice with
  | none => exact inv_setHdr (inv_setPafd h hrest) hlen
  | some voice => exact inv_setSlots (inv_setHdr (inv_setPafd h hrest) hlen) (slotOk_loadVoiceBlocks h voice.2)

theorem execPlDec_keeps (h : Invariant s) (op : Byte) : Keeps (execPlDec op s) := by
  refine keeps_command h (fun hf _ => ?_)
  split
  · exact inv_endWith h hf (by decide)
  · rcases parsePayload_cases h with ⟨c, hc, he⟩ | ⟨p, hp, he⟩ <;> rw [he]
    · exact inv_endWith h hf hc
    · have hcommit := inv_commitPayload h hp
      exact inv_endWith (inv_setResult (inv_setIbPtr hcommit h.ibLen_le) (length_available_le h)) hf (by decide)

/-- Every well-formed instruction keeps the invariant. -/
theorem exec_keeps (h : Invariant s) (i : Instr) (hi : i.wellFormed = true) : Keeps (exec i s) := by
  cases i with
  | nop op => exact keeps_command h (fun hf _ => inv_endWith h hf (by decide))
  | reset op => exact execReset_keeps h op
  | bpPack op => exact keeps_testedEncoder h _ _ _ _ (c := .errMalformed) (by decide)
  | bpUnpack op => exact execBpUnpack_keeps h op
  | dfsiEnc ft => exact keeps_testedEncoder h _ _ _ _ (c := .errFrameType) (by decide)
  | dfsiDec op => exact execDfsiDec_keeps h op
  | dfsiLen ft => exact execDfsiLen_keeps h ft
  | lduCheck k j i => exact execLduCheck_keeps h k j i
  | lduReasm k j i => exact execLduReasm_keeps h k j i
  | lduGetImbe k j i => exact execLduGetImbe_keeps h k j i
  | lduCompose k j i => exact execLduCompose_keeps h k j i
  | lduBegin op => exact execLduBegin_keeps h op
  | lduEnd op => exact execLduEnd_keeps h op
  | lduToVb k j i => exact execLduToVb_keeps h k j i
  | ctlEnc | bhEnc | pktEnc | pttEnc | frhEnc => exact keeps_encoder h _ _ _
  | bhDec slot => exact keeps_decoder h _ _ (fun b t ht => inv_setBh ht slot.toNat (bhOfBytes b))
  | ctlDec | pktDec | pttDec | frhDec => exact keeps_decoder h _ _ (fun _ _ ht => ht)
  | frvEnc slot => exact execFrvEnc_keeps h slot
  | frvDec slot => exact execFrvDec_keeps h slot
  | frvSize slot => exact execFrvSize_keeps h slot
  | plSize op => exact execPlSize_keeps h op
  | plEnc op => exact execPlEnc_keeps h op
  | plDec op => exact execPlDec_keeps h op
  | voice1 | voice2 | voice3 | voice4 | voice5 | voice6 | voice7 | voice8 | voice9 | voice10 | voice11 | voice12
  | voice13 | voice14 | voice15 | voice16 | voice17 | voice18 =>
    exact execVoice_keeps h ⟨by decide, by decide⟩ _ (Nat.le_of_eq (beq_iff_eq.mp hi))

/-- A command word: what it decodes to is well-formed. -/
theorem runWord_keeps (h : Invariant s) (w : CmdWord) : Keeps (runWord w s) := by
  unfold runWord
  split
  · next i hd => exact exec_keeps h i (encode_commandOfOpcode _ _ i hd).2
  · exact inv_illegalOpcode h

end

/-! ### The host's accesses -/

section
variable {s : State}

theorem clamp_le (w limit : Nat) (v : RegData) : (clamp w limit v).toNat ≤ limit := by
  rw [clamp, BitVec.toNat_ofNat]
  exact (Nat.mod_le _ _).trans (Nat.min_le_right _ _)

theorem inv_regWrite (h : Invariant s) (v : RegData) (r : Reg) : Invariant (r.write v s) := by
  cases r with
  | ibLen => exact inv_setIbLen h (clamp_le 9 256 v)
  | ibPtr => exact inv_setIbPtr h (clamp_le 9 256 v)
  | obCap => exact inv_setObCap h (clamp_le 9 256 v)
  | obPtr => exact inv_setObPtr h (clamp_le 9 256 v)
  | pafdLen => exact inv_setHdr h (clamp_le 8 64 v)
  | bhE | bhBt | bhTso | bhBl => exact inv_setBh h _ _
  | vbFt j | vbTotErr j | vbMute j | vbLost j | vbSfc j => exact inv_setVb h (fun hj => h.slot hj)
  | vbAfdLen j => exact inv_setVb h (fun hj => slotOk_setAfdLen (h.slot hj) (clamp_le 8 16 v))
  | _ => exact h

/-- The memory of an id is in its canonical form and within its length (R40). -/
theorem wf_memory (h : Invariant s) (id : BitVec 4) : Memory.wf (memLength id) (s.memory id) = true := by
  obtain ⟨hib, hob, hldu1, hldu2, himbe, hpafd⟩ := h.buffers
  obtain ⟨himbe0, hafd0, -⟩ := h.slot (j := 0) (by decide)
  obtain ⟨himbe1, hafd1, -⟩ := h.slot (j := 1) (by decide)
  obtain ⟨himbe2, hafd2, -⟩ := h.slot (j := 2) (by decide)
  unfold State.memory memLength
  generalize id.toNat = n
  split
  · exact hib
  · exact hob
  · exact hldu1
  · exact hldu2
  · exact himbe
  · exact himbe0
  · exact himbe1
  · exact himbe2
  · exact hafd0
  · exact hafd1
  · exact hafd2
  · exact hpafd
  · exact Memory.wf_nil _

theorem inv_setMemory (h : Invariant s) (id : BitVec 4) {m : Memory} (hm : Memory.wf (memLength id) m = true) :
    Invariant (s.setMemory id m) := by
  have himbe : ∀ j, Memory.wf 11 m = true → Invariant (s.setVb j { s.vbAt j with imbe := m }) :=
    fun j hm => inv_setVb h (fun hj => slotOk_setImbe (h.slot hj) hm)
  have hafd : ∀ j, Memory.wf 16 m = true → Invariant (s.setVb j { s.vbAt j with afd := m }) :=
    fun j hm => inv_setVb h (fun hj => slotOk_setAfd (h.slot hj) hm)
  unfold memLength at hm
  unfold State.setMemory
  generalize id.toNat = n at hm
  split
  · exact inv_setIb h hm
  · exact inv_setOb h hm
  · exact inv_setLdu1 h hm
  · exact inv_setLdu2 h hm
  · exact inv_setImbe h hm
  · exact himbe 0 hm
  · exact himbe 1 hm
  · exact himbe 2 hm
  · exact hafd 0 hm
  · exact hafd 1 hm
  · exact hafd 2 hm
  · exact inv_setPafd h hm
  · exact h

theorem inv_hostAccess (h : Invariant s) (a : HostAction) : Invariant (hostAccess a s) := by
  cases a with
  | writeReg index v =>
    show Invariant (hostWriteReg index v s)
    unfold hostWriteReg
    split
    · exact inv_regWrite h v _
    · exact h
  | readReg | readMem => exact h
  | writeMem id a b =>
    show Invariant (hostWriteMem id a b s)
    unfold hostWriteMem
    split
    · next hin => exact inv_setMemory h id (Memory.wf_write b (wf_memory h id) hin)
    · exact h
  | resetPin => exact inv_resetCodec h

end

/-! ### The step -/

theorem step_keeps {s : State} (h : Invariant s) : Keeps (step s) := by
  unfold step
  split
  · exact h
  · next a rest _ =>
    have hrest : Invariant { s with host := rest } := h
    split
    · exact runWord_keeps hrest _
    · exact inv_hostAccess hrest a

/-- Settles O11: `State.inv` is `Invariant`, which every step keeps. -/
theorem everyStepKeepsTheInvariant : Obligations.EveryStepKeepsTheInvariant := by
  intro s t hs hstep
  have hkeeps := step_keeps ((inv_iff s).mp hs)
  rw [hstep] at hkeeps
  exact (inv_iff t).mpr hkeeps

end Sys2Proof.Invariance
end

section
/-! SUPPORT. O16, O17: the register map (10_state.md R34, R35). `registerValue` and `access` are tied to the model's registers:
they are `Reg.read` and `Reg.access` of the register that the map has at an index. Two laws then say what a host write does: a
written register holds what R34 stores, and every other register is as before. -/

namespace Sys2Proof.RegisterMap

open Sys2Proof.Machine Sys2Proof.Claims

/-! ### The registers of the map -/

/-- The registers in the order of their indexes, the order in which `registers` lists them. -/
def mapRegs : List Reg :=
  ([.cmd, .status, .result, .faultCause, .faultCmd, .id, .ftLast, .ibLen, .ibPtr, .ibValid, .obCap, .obPtr, .obValid,
    .cdLco, .cdMfId, .cdSvcOpt, .cdSrcId, .cdDstId] : List Reg)
  ++ (List.range 9).map Reg.cdMi
  ++ ([.cdAlgId, .cdKeyId, .cdLsd1, .cdLsd2, .cdRssi, .pttPresent, .pttWacn, .pttSysId, .pttUnitId, .pttPrio,
    .ctlS, .ctlC, .bhCnt, .pktM, .pktPt, .pktAux, .frhPresent, .frhVbb, .vbCnt, .pafdLen] : List Reg)
  ++ (List.range 4).flatMap (fun i => ([.bhE i, .bhBt i, .bhTso i, .bhBl i] : List Reg))
  ++ (List.range 3).flatMap
      (fun j => ([.vbFt j, .vbTotErr j, .vbMute j, .vbLost j, .vbSfc j, .vbAfdLen j] : List Reg))
  ++ [Reg.bpN] ++ (List.range 8).map Reg.bpW ++ (List.range 8).map Reg.bpV

theorem registers_eq (s : State) : registers s = mapRegs.map (fun r => (r.index, r.read s)) := rfl

/-- The register that the map has at an index, if any. -/
def regOf (n : Nat) : Option Reg := allRegs.find? (fun r => r.index == n)

theorem regAt_eq (index : BitVec 12) : regAt index = regOf index.toNat := rfl

theorem mem_of_regOf {n : Nat} {r : Reg} (h : regOf n = some r) : r ∈ allRegs := List.mem_of_find?_eq_some h

theorem index_of_regOf {n : Nat} {r : Reg} (h : regOf n = some r) : r.index = n := by
  simpa using List.find?_some h

theorem find_eq_none_of_le {l : List Reg} (hl : ∀ r ∈ l, r.index < 0x0A8) {n : Nat} (hn : 0x0A8 ≤ n) :
    l.find? (fun r => r.index == n) = none := by
  refine List.find?_eq_none.mpr fun r hr => ?_
  have hlt := hl r hr
  simp only [beq_iff_eq]
  omega

/-- The map ends below index 0x0A8. -/
theorem regOf_eq_none_of_le {n : Nat} (hn : 0x0A8 ≤ n) : regOf n = none := find_eq_none_of_le (by decide) hn

/-- A fact about every index of the map, checked in eleven rows of sixteen. -/
theorem forall_index_of_rows {p : Nat → Prop} (h : ∀ a < 11, ∀ b < 16, p (16 * a + b)) {n : Nat} (hn : n < 0x0A8) :
    p n := by
  have hrow := h (n / 16) (by omega) (n % 16) (by omega)
  rwa [Nat.div_add_mod] at hrow

theorem regOf_eq_find_mapRegs (n : Nat) : regOf n = mapRegs.find? (fun r => r.index == n) := by
  by_cases hn : n < 0x0A8
  · exact forall_index_of_rows (p := fun n => regOf n = mapRegs.find? (fun r => r.index == n)) (by decide) hn
  · rw [regOf_eq_none_of_le (Nat.le_of_not_lt hn), find_eq_none_of_le (by decide) (Nat.le_of_not_lt hn)]

theorem lookup_map_pair {α β γ : Type} [BEq β] (f : α → β) (g : α → γ) (l : List α) (n : β) :
    (l.map (fun x => (f x, g x))).lookup n = (l.find? (fun x => n == f x)).map g := by
  induction l with
  | nil => rfl
  | cons x l ih =>
    simp only [List.map_cons, List.lookup_cons, List.find?_cons, ih]
    cases n == f x <;> rfl

/-- The statement's register values are the model's reads. -/
theorem registerValue_eq (s : State) (n : Nat) : registerValue s n = ((regOf n).map (Reg.read s)).getD 0 := by
  rw [registerValue, registers_eq, lookup_map_pair, regOf_eq_find_mapRegs]
  simp only [Bool.beq_comm (a := n)]

theorem registerValue_of_some {n : Nat} {r : Reg} (h : regOf n = some r) (s : State) : registerValue s n = r.read s := by
  rw [registerValue_eq, h]; rfl

theorem registerValue_of_none {n : Nat} (h : regOf n = none) (s : State) : registerValue s n = 0 := by
  rw [registerValue_eq, h]; rfl

theorem hostReadReg_eq (s : State) (index : BitVec 12) : hostReadReg s index = registerValue s index.toNat := by
  rw [hostReadReg, registerValue_eq, regAt_eq]
  cases regOf index.toNat <;> rfl

/-! ### The access column of R34, by register -/

/-- How a host write acts on a register, by name. -/
def accessOf : Reg → Access
  | .cmd | .status | .result | .faultCause | .faultCmd | .id | .ftLast => .ignored
  | .ibLen | .ibPtr | .obCap | .obPtr => .clamped 256
  | .pafdLen => .clamped 64
  | .vbAfdLen _ => .clamped 16
  | .ibValid | .obValid | .pttPresent | .ctlS | .ctlC | .pktM | .frhPresent | .bhE _ | .vbMute _ | .vbLost _ => .low 1
  | .cdKeyId | .pttSysId | .bhTso _ | .bhBl _ => .low 16
  | .cdSrcId | .cdDstId | .pttWacn | .pttUnitId | .pktAux | .bpV _ => .low 32
  | .cdLco | .cdMfId | .cdSvcOpt | .cdMi _ | .cdAlgId | .cdLsd1 | .cdLsd2 | .cdRssi | .pttPrio | .bhCnt | .pktPt
  | .frhVbb | .vbCnt | .bhBt _ | .vbFt _ | .vbTotErr _ | .vbSfc _ | .bpN | .bpW _ => .low 8

theorem access_eq (n : Nat) : access n = ((regOf n).map accessOf).getD .ignored := by
  by_cases hn : n < 0x0A8
  · exact forall_index_of_rows (p := fun n => access n = ((regOf n).map accessOf).getD .ignored) (by decide) hn
  · rw [regOf_eq_none_of_le (Nat.le_of_not_lt hn)]
    simp (disch := omega) only [access, if_neg, Option.map_none, Option.getD_none]

/-! ### Parts of arrays and slots -/

theorem vector_getD_set_self {α : Type} {n i : Nat} (a : Vector α n) (x d : α) (hi : i < n) :
    (a.setIfInBounds i x).getD i d = x := by
  rw [vector_getD_set, if_pos ⟨rfl, hi⟩]

theorem vector_getD_set_ne {α : Type} {n i k : Nat} (a : Vector α n) (x d : α) (h : k ≠ i) :
    (a.setIfInBounds i x).getD k d = a.getD k d := by
  rw [vector_getD_set, if_neg (fun hc => h hc.1)]

theorem bhAt_setBh_self (s : State) {i : Nat} (b : BlockHeader) (hi : i < 4) : (s.setBh i b).bhAt i = b :=
  vector_getD_set_self s.bh b _ hi

theorem vbAt_setVb_self (s : State) {j : Nat} (v : VoiceSlot) (hj : j < 3) : (s.setVb j v).vbAt j = v :=
  vector_getD_set_self s.vb v _ hj

/-- A part of a block-header slot is as before if the slot is another one, or has that part as before. -/
theorem bhAt_setBh_part {α : Type} (f : BlockHeader → α) {s : State} {i k : Nat} {b : BlockHeader}
    (h : k = i → f b = f (s.bhAt i)) : f ((s.setBh i b).bhAt k) = f (s.bhAt k) := by
  rw [bhAt_setBh]
  split
  · next hk => rw [h hk.1, hk.1]
  · rfl

/-- A part of a voice slot is as before if the slot is another one, or has that part as before. -/
theorem vbAt_setVb_part {α : Type} (f : VoiceSlot → α) {s : State} {j k : Nat} {v : VoiceSlot}
    (h : k = j → f v = f (s.vbAt j)) : f ((s.setVb j v).vbAt k) = f (s.vbAt k) := by
  rw [vbAt_setVb]
  split
  · next hk => rw [h hk.1, hk.1]
  · rfl

/-! ### A written register -/

/-- The number of an array's register is in its range. -/
def inRange : Reg → Bool
  | .cdMi n => decide (n < 9)
  | .bhE i | .bhBt i | .bhTso i | .bhBl i => decide (i < 4)
  | .vbFt j | .vbTotErr j | .vbMute j | .vbLost j | .vbSfc j | .vbAfdLen j => decide (j < 3)
  | .bpW i | .bpV i => decide (i < 8)
  | _ => true

theorem inRange_of_mem : ∀ r ∈ allRegs, inRange r = true := by decide

section
variable {n : Nat} (v old : RegData)

theorem stored_ignored (h : access n = .ignored) : stored n v old = old := by
  rw [stored, h]

theorem stored_low {w : Nat} (h : access n = .low w) : stored n v old = (v.setWidth w).setWidth 32 := by
  rw [stored, h]
  apply BitVec.eq_of_toNat_eq
  simp

theorem stored_full (h : access n = .low 32) : stored n v old = v := by
  rw [stored_low v old h, BitVec.setWidth_eq, BitVec.setWidth_eq]

theorem stored_clamped {w limit : Nat} (h : access n = .clamped limit) (hl : limit < 2 ^ w) :
    stored n v old = (clamp w limit v).setWidth 32 := by
  rw [stored, h]
  apply BitVec.eq_of_toNat_eq
  have hmin : min v.toNat limit % 2 ^ w = min v.toNat limit := Nat.mod_eq_of_lt (by omega)
  rw [clamp, BitVec.toNat_setWidth, BitVec.toNat_ofNat, BitVec.toNat_ofNat, hmin]

end

/-- A register holds after a write what R34 stores at an index of its access. -/
theorem read_write_self (v : RegData) (s : State) {r : Reg} (hr : inRange r = true) {n : Nat} (h : access n = accessOf r) :
    r.read (r.write v s) = stored n v (r.read s) := by
  have hbh (f : BlockHeader → RegData) (i : Nat) (b : BlockHeader) {x : RegData} (hi : decide (i < 4) = true)
      (hx : x = f b) : f ((s.setBh i b).bhAt i) = x := by rw [bhAt_setBh_self s b (of_decide_eq_true hi), hx]
  have hvb (f : VoiceSlot → RegData) (j : Nat) (u : VoiceSlot) {x : RegData} (hj : decide (j < 3) = true)
      (hx : x = f u) : f ((s.setVb j u).vbAt j) = x := by rw [vbAt_setVb_self s u (of_decide_eq_true hj), hx]
  cases r with
  | cmd | status | result | faultCause | faultCmd | id | ftLast => exact (stored_ignored v _ h).symm
  | ibLen | ibPtr | obCap | obPtr | pafdLen => exact (stored_clamped v _ h (by decide)).symm
  | ibValid | obValid | cdLco | cdMfId | cdSvcOpt | cdAlgId | cdKeyId | cdLsd1 | cdLsd2 | cdRssi | pttPresent | pttSysId
  | pttPrio | ctlS | ctlC | bhCnt | pktM | pktPt | frhPresent | frhVbb | vbCnt | bpN => exact (stored_low v _ h).symm
  | cdSrcId | cdDstId | pttWacn | pttUnitId | pktAux => exact (stored_full v _ h).symm
  | cdMi | bpW =>
    rw [stored_low v _ h]
    exact congrArg (BitVec.setWidth 32) (vector_getD_set_self _ _ _ (of_decide_eq_true hr))
  | bpV i =>
    rw [stored_full v _ h]
    exact vector_getD_set_self _ _ _ (of_decide_eq_true hr)
  | bhE i => exact hbh (fun b => b.e.setWidth 32) i _ hr (stored_low v _ h)
  | bhBt i => exact hbh (fun b => b.bt.setWidth 32) i _ hr (stored_low v _ h)
  | bhTso i => exact hbh (fun b => b.tso.setWidth 32) i _ hr (stored_low v _ h)
  | bhBl i => exact hbh (fun b => b.bl.setWidth 32) i _ hr (stored_low v _ h)
  | vbFt j => exact hvb (fun u => u.ft.setWidth 32) j _ hr (stored_low v _ h)
  | vbTotErr j => exact hvb (fun u => u.totErr.setWidth 32) j _ hr (stored_low v _ h)
  | vbMute j => exact hvb (fun u => u.mute.setWidth 32) j _ hr (stored_low v _ h)
  | vbLost j => exact hvb (fun u => u.lost.setWidth 32) j _ hr (stored_low v _ h)
  | vbSfc j => exact hvb (fun u => u.sfc.setWidth 32) j _ hr (stored_low v _ h)
  | vbAfdLen j => exact hvb (fun u => u.afdLen.setWidth 32) j _ hr (stored_clamped v _ h (by decide))

/-! ### Every other register -/

/-- A write of a register changes no other register: not one of another file, of another number in its array or slots, or of
another part of its slot. -/
theorem read_write (v : RegData) (s : State) (r r' : Reg) :
    r'.read (r.write v s) = if r' = r then r.read (r.write v s) else r'.read s := by
  cases r with
  | bhE i | bhBt i | bhTso i | bhBl i =>
    cases r' with
    | bhE k | bhBt k | bhTso k | bhBl k =>
      split
      · next heq => rw [heq]
      · next hne => exact congrArg (BitVec.setWidth 32) (bhAt_setBh_part _ (fun hk => by simp_all))
    | _ => rfl
  | vbFt j | vbTotErr j | vbMute j | vbLost j | vbSfc j | vbAfdLen j =>
    cases r' with
    | vbFt k | vbTotErr k | vbMute k | vbLost k | vbSfc k | vbAfdLen k =>
      split
      · next heq => rw [heq]
      · next hne => exact congrArg (BitVec.setWidth 32) (vbAt_setVb_part _ (fun hk => by simp_all))
    | _ => rfl
  | cdMi n =>
    cases r' with
    | cdMi k =>
      split
      · next heq => rw [heq]
      · next hne => exact congrArg (BitVec.setWidth 32) (vector_getD_set_ne _ _ _ (fun hk => hne (congrArg _ hk)))
    | _ => rfl
  | bpW i =>
    cases r' with
    | bpW k =>
      split
      · next heq => rw [heq]
      · next hne => exact congrArg (BitVec.setWidth 32) (vector_getD_set_ne _ _ _ (fun hk => hne (congrArg _ hk)))
    | _ => rfl
  | bpV i =>
    cases r' with
    | bpV k =>
      split
      · next heq => rw [heq]
      · next hne => exact vector_getD_set_ne _ _ _ (fun hk => hne (congrArg _ hk))
    | _ => rfl
  | _ => cases r' <;> rfl

/-- The values of the map after a write of one of its registers. -/
theorem registerValue_write (v : RegData) (s : State) {index : Nat} {r : Reg} (hr : regOf index = some r) (n : Nat) :
    registerValue (r.write v s) n = if n = index then stored n v (registerValue s n) else registerValue s n := by
  split
  · next hn =>
    subst hn
    have hacc : access n = accessOf r := by rw [access_eq, hr]; rfl
    rw [registerValue_of_some hr, registerValue_of_some hr,
      read_write_self v s (inRange_of_mem r (mem_of_regOf hr)) hacc]
  · next hn =>
    cases hr' : regOf n with
    | none => rw [registerValue_of_none hr', registerValue_of_none hr']
    | some r' =>
      have hne : r' ≠ r := fun h => hn (by rw [← index_of_regOf hr', ← index_of_regOf hr, h])
      rw [registerValue_of_some hr', registerValue_of_some hr', read_write, if_neg hne]

/-! ### What a register write leaves unchanged -/

theorem regWrite_host (v : RegData) (s : State) (r : Reg) : (r.write v s).host = s.host := by
  cases r <;> rfl

theorem regWrite_hRdata (v : RegData) (s : State) (r : Reg) : (r.write v s).hRdata = s.hRdata := by
  cases r <;> rfl

/-- Setting a voice slot replaces the entries of its codeword and its data. -/
theorem memories_setVb (s : State) {j : Nat} (hj : j < 3) (v : VoiceSlot) :
    memories (s.setVb j v) = ((memories s).set (5 + j) v.imbe).set (8 + j) v.afd := by
  simp only [memories, vbAt_setVb]
  interval_cases j <;> rfl

theorem setVb_of_le (s : State) {j : Nat} (hj : 3 ≤ j) (v : VoiceSlot) : s.setVb j v = s := by
  rw [State.setVb, Vector.setIfInBounds_eq_of_size_le hj]

/-- A voice slot whose codeword and data are as before leaves the memories as they were. -/
theorem memories_setVb_of_eq {s : State} {j : Nat} {v : VoiceSlot} (himbe : v.imbe = (s.vbAt j).imbe)
    (hafd : v.afd = (s.vbAt j).afd) : memories (s.setVb j v) = memories s := by
  by_cases hj : j < 3
  · rw [memories_setVb s hj, himbe, hafd]
    interval_cases j <;> rfl
  · rw [setVb_of_le s (Nat.le_of_not_lt hj)]

theorem memories_regWrite (v : RegData) (s : State) (r : Reg) : memories (r.write v s) = memories s := by
  cases r with
  | vbFt | vbTotErr | vbMute | vbLost | vbSfc | vbAfdLen => exact memories_setVb_of_eq rfl rfl
  | _ => rfl

theorem memoryByte_within {id a : Nat} (h : a < memoryLength id) (s : State) :
    memoryByte s id a = Memory.read ((memories s).getD id []) a := if_pos h

theorem memoryByte_outside {id a : Nat} (h : ¬ a < memoryLength id) (s : State) : memoryByte s id a = 0 := if_neg h

theorem memoryByte_congr {s t : State} (h : memories t = memories s) (id a : Nat) :
    memoryByte t id a = memoryByte s id a := by
  by_cases ha : a < memoryLength id
  · rw [memoryByte_within ha, memoryByte_within ha, h]
  · rw [memoryByte_outside ha, memoryByte_outside ha]

/-! ### The host's write -/

theorem hostWriteReg_eq (index : BitVec 12) (v : RegData) (s : State) :
    hostWriteReg index v s = ((regOf index.toNat).map (Reg.write v s)).getD s := by
  rw [hostWriteReg, regAt_eq]
  cases regOf index.toNat <;> rfl

theorem hostWriteReg_of_some {index : BitVec 12} {r : Reg} (h : regOf index.toNat = some r) (v : RegData) (s : State) :
    hostWriteReg index v s = r.write v s := by
  rw [hostWriteReg_eq, h, Option.map_some, Option.getD_some]

theorem hostWriteReg_of_none {index : BitVec 12} (h : regOf index.toNat = none) (v : RegData) (s : State) :
    hostWriteReg index v s = s := by
  rw [hostWriteReg_eq, h, Option.map_none, Option.getD_none]

theorem registerValue_hostWriteReg (index : BitVec 12) (v : RegData) (s : State) (n : Nat) :
    registerValue (hostWriteReg index v s) n
      = if n = index.toNat then stored n v (registerValue s n) else registerValue s n := by
  cases h : regOf index.toNat with
  | some r => rw [hostWriteReg_of_some h, registerValue_write v s h]
  | none =>
    rw [hostWriteReg_of_none h]
    split
    · next hn =>
      have hacc : access n = .ignored := by rw [access_eq, hn, h]; rfl
      rw [stored_ignored v _ hacc]
    · rfl

/-- A write that the map ignores changes nothing at all. -/
theorem hostWriteReg_of_ignored {index : BitVec 12} (ha : access index.toNat = .ignored) (v : RegData) (s : State) :
    hostWriteReg index v s = s := by
  cases h : regOf index.toNat with
  | none => exact hostWriteReg_of_none h v s
  | some r =>
    have hacc : accessOf r = .ignored := by rw [access_eq, h] at ha; exact ha
    rw [hostWriteReg_of_some h]
    cases r with
    | cmd | status | result | faultCause | faultCmd | id | ftLast => rfl
    | _ => cases hacc

/-- A register write changes no memory, no pending move and not the read port. -/
theorem hostWriteReg_frame (index : BitVec 12) (v : RegData) (s : State) :
    memories (hostWriteReg index v s) = memories s ∧ (hostWriteReg index v s).host = s.host
      ∧ (hostWriteReg index v s).hRdata = s.hRdata := by
  cases h : regOf index.toNat with
  | some r =>
    rw [hostWriteReg_of_some h]
    exact ⟨memories_regWrite v s r, regWrite_host v s r, regWrite_hRdata v s r⟩
  | none =>
    rw [hostWriteReg_of_none h]
    exact ⟨rfl, rfl, rfl⟩

/-! ### The reset values (R45) -/

theorem read_reset : ∀ r ∈ allRegs, r.read State.reset = if r.index = 0x005 then 0x44460100 else 0 := by decide

theorem registerValue_reset (n : Nat) : registerValue State.reset n = if n = 0x005 then 0x44460100 else 0 := by
  cases h : regOf n with
  | some r => rw [registerValue_of_some h, read_reset r (mem_of_regOf h), index_of_regOf h]
  | none =>
    have hn : n ≠ 0x005 := fun hn => absurd h (by rw [hn]; decide)
    rw [registerValue_of_none h, if_neg hn]

/-! ### The step -/

/-- A move that issues no command is done, and no more. -/
theorem step_withMove {a : HostAction} (h : commandIssued a = none) (s : State) :
    step (withMove a s) = .next (hostAccess a s) := by
  simp only [step, withMove, h]

theorem step_readReg (index : BitVec 12) (s : State) :
    step (withMove (.readReg index) s) = .next { s with hRdata := registerValue s index.toNat } := by
  rw [step_withMove rfl, hostAccess, hostReadReg_eq]

theorem step_writeReg {index : BitVec 12} (h : index ≠ 0) (v : RegData) (s : State) :
    step (withMove (.writeReg index v) s) = .next (hostWriteReg index v s) :=
  step_withMove (show commandIssued (.writeReg index v) = none from if_neg h) s

theorem index_eq_id_iff (index : BitVec 12) : index.toNat = 0x005 ↔ index = 0x005 := by
  rw [← BitVec.toNat_inj]; rfl

/-- Settles O16: the read and the write of the register that the map has at the index. -/
theorem registerMap : Obligations.RegisterMap := by
  intro s index v
  obtain ⟨hmem, hhost, hport⟩ := hostWriteReg_frame index v s
  refine ⟨step_readReg index s, fun hindex => ⟨_, step_writeReg hindex v s, hhost, hport,
    Configuration.hostAccess_cfg (.writeReg index v) s, registerValue_hostWriteReg index v s, memoryByte_congr hmem⟩, ?_⟩
  simp only [registerValue_reset, index_eq_id_iff]

/-- Settles O17: the register at such an index is read-only, or there is none. -/
theorem ignoredRegisterWrites : Obligations.IgnoredRegisterWrites := by
  intro s index v hindex hacc
  rw [step_writeReg hindex, hostWriteReg_of_ignored hacc]

end Sys2Proof.RegisterMap
end

section
/-! SUPPORT. O18, O13, O12: the byte memories (10_state.md R40, R41) and the reset state (R45). The model's `State.memory` and
`memLength` are the statement's `memories` and `memoryLength`; replacing one memory replaces that entry of `memories` and
leaves `registers` as they are. -/

namespace Sys2Proof.MemoryMap

open Sys2Proof.Machine Sys2Proof.Claims Sys2Proof.RegisterMap

/-! ### The memories by id -/

theorem length_memories (s : State) : (memories s).length = 12 := rfl

theorem memLength_eq (id : BitVec 4) : memLength id = memoryLength id.toNat := rfl

theorem lt_twelve_of_memoryLength {id a : Nat} (h : a < memoryLength id) : id < 12 := by
  by_contra hid
  rw [memoryLength, List.getD_eq_default _ _ (by simpa using hid)] at h
  exact Nat.not_lt_zero a h

theorem memory_eq (s : State) (id : BitVec 4) : s.memory id = (memories s).getD id.toNat [] := by
  unfold State.memory
  generalize id.toNat = n
  split
  case h_13 =>
    have hn : (memories s).length ≤ n := by
      simp only [imp_false] at *
      rw [length_memories]
      omega
    exact (List.getD_eq_default _ _ hn).symm
  all_goals rfl

theorem hostReadMem_eq (s : State) (id : BitVec 4) (a : BitVec 12) :
    hostReadMem s id a = memoryByte s id.toNat a.toNat := by
  rw [hostReadMem, memory_eq, memLength_eq]
  rfl

/-! ### Replacing a memory -/

theorem memories_setImbe (s : State) {j : Nat} (hj : j < 3) (m : Memory) :
    memories (s.setVb j { s.vbAt j with imbe := m }) = (memories s).set (5 + j) m := by
  rw [memories_setVb s hj]
  interval_cases j <;> rfl

theorem memories_setAfd (s : State) {j : Nat} (hj : j < 3) (m : Memory) :
    memories (s.setVb j { s.vbAt j with afd := m }) = (memories s).set (8 + j) m := by
  rw [memories_setVb s hj]
  interval_cases j <;> rfl

/-- The memories of a voice slot are no registers. -/
theorem registers_setVb (s : State) (j : Nat) (imbe afd : Memory) :
    registers (s.setVb j { s.vbAt j with imbe := imbe, afd := afd }) = registers s := by
  have hpart {α : Type} (f : VoiceSlot → α) (h : f { s.vbAt j with imbe := imbe, afd := afd } = f (s.vbAt j))
      (k : Nat) := vbAt_setVb_part (k := k) f (fun _ => h)
  simp only [registers, hpart VoiceSlot.ft rfl, hpart VoiceSlot.totErr rfl, hpart VoiceSlot.mute rfl,
    hpart VoiceSlot.lost rfl, hpart VoiceSlot.sfc rfl, hpart VoiceSlot.afdLen rfl]
  rfl

/-- Replacing a memory replaces its entry of the list, none for an id above 11, and changes nothing else. -/
theorem setMemory_spec (s : State) (id : BitVec 4) (m : Memory) :
    memories (s.setMemory id m) = (memories s).set id.toNat m ∧ registers (s.setMemory id m) = registers s
      ∧ (s.setMemory id m).host = s.host ∧ (s.setMemory id m).hRdata = s.hRdata := by
  unfold State.setMemory
  generalize id.toNat = n
  split
  case h_6 => exact ⟨memories_setImbe s (j := 0) (by decide) m, registers_setVb s 0 _ _, rfl, rfl⟩
  case h_7 => exact ⟨memories_setImbe s (j := 1) (by decide) m, registers_setVb s 1 _ _, rfl, rfl⟩
  case h_8 => exact ⟨memories_setImbe s (j := 2) (by decide) m, registers_setVb s 2 _ _, rfl, rfl⟩
  case h_9 => exact ⟨memories_setAfd s (j := 0) (by decide) m, registers_setVb s 0 _ _, rfl, rfl⟩
  case h_10 => exact ⟨memories_setAfd s (j := 1) (by decide) m, registers_setVb s 1 _ _, rfl, rfl⟩
  case h_11 => exact ⟨memories_setAfd s (j := 2) (by decide) m, registers_setVb s 2 _ _, rfl, rfl⟩
  case h_13 =>
    have hn : (memories s).length ≤ n := by
      simp only [imp_false] at *
      rw [length_memories]
      omega
    exact ⟨(List.set_eq_of_length_le hn).symm, rfl, rfl, rfl⟩
  all_goals exact ⟨rfl, rfl, rfl, rfl⟩

/-! ### The host's write -/

section
variable {id : BitVec 4} {a : BitVec 12} (b : Byte) (s : State)

theorem hostWriteMem_outside (h : memoryLength id.toNat ≤ a.toNat) : hostWriteMem id a b s = s :=
  if_neg (Nat.not_lt.mpr h)

theorem hostWriteMem_within (h : a.toNat < memoryLength id.toNat) :
    hostWriteMem id a b s = s.setMemory id (Memory.write (s.memory id) a.toNat b) := if_pos h

/-- A write within a memory changes that byte of that memory alone. -/
theorem memoryByte_hostWriteMem (h : a.toNat < memoryLength id.toNat) (id' a' : Nat) :
    memoryByte (hostWriteMem id a b s) id' a' = if id' = id.toNat ∧ a' = a.toNat then b else memoryByte s id' a' := by
  have hlt : id.toNat < (memories s).length := lt_twelve_of_memoryLength h
  have hmem := (setMemory_spec s id (Memory.write (s.memory id) a.toNat b)).1
  rw [hostWriteMem_within b s h]
  by_cases ha' : a' < memoryLength id'
  · rw [memoryByte_within ha', memoryByte_within ha', hmem, memory_eq]
    by_cases hid : id' = id.toNat
    · subst hid
      rw [List.getD_eq_getElem _ _ (by rwa [List.length_set]), List.getElem_set_self, Memory.read_write]
      simp only [true_and]
    · rw [List.getD_eq_getElem?_getD, List.getElem?_set_ne (Ne.symm hid), ← List.getD_eq_getElem?_getD,
        if_neg (fun hc => hid hc.1)]
  · have hne : ¬ (id' = id.toNat ∧ a' = a.toNat) := fun ⟨hid, haa⟩ => ha' (by rwa [hid, haa])
    rw [memoryByte_outside ha', memoryByte_outside ha', if_neg hne]

end

/-- A write to a memory changes no register, no pending move and not the read port. -/
theorem hostWriteMem_frame (id : BitVec 4) (a : BitVec 12) (b : Byte) (s : State) :
    registers (hostWriteMem id a b s) = registers s ∧ (hostWriteMem id a b s).host = s.host
      ∧ (hostWriteMem id a b s).hRdata = s.hRdata := by
  rw [hostWriteMem]
  split
  · exact (setMemory_spec s id _).2
  · exact ⟨rfl, rfl, rfl⟩

theorem step_readMem (id : BitVec 4) (a : BitVec 12) (s : State) :
    step (withMove (.readMem id a) s) = .next { s with hRdata := (memoryByte s id.toNat a.toNat).setWidth 32 } := by
  rw [step_withMove rfl, hostAccess, hostReadMem_eq]

/-- Settles O18: a write replaces one byte of the memory of the id, if it is within it. -/
theorem memoryAccess : Obligations.MemoryAccess := by
  intro s id a b
  have hstep : step (withMove (.writeMem id a b) s) = .next (hostWriteMem id a b s) := step_withMove rfl s
  obtain ⟨hregs, hhost, hport⟩ := hostWriteMem_frame id a b s
  have hvalue (n : Nat) : registerValue (hostWriteMem id a b s) n = registerValue s n := by
    rw [registerValue, hregs, registerValue]
  refine ⟨step_readMem id a s, fun hout => ?_, fun hin => ⟨_, hstep, memoryByte_hostWriteMem b s hin, hvalue, hhost, hport,
    Configuration.hostAccess_cfg (.writeMem id a b) s⟩⟩
  rw [hstep, hostWriteMem_outside b s hout]

/-! ### The reset state -/

theorem memoryByte_reset (id a : Nat) : memoryByte State.reset id a = 0 := by
  have hempty : (memories State.reset).getD id [] = [] := List.getElem?_getD_replicate_default_eq [] 12 id
  by_cases ha : a < memoryLength id
  · rw [memoryByte_within ha, hempty, Memory.read_nil]; rfl
  · rw [memoryByte_outside ha]

/-- Settles O13: from reset the host reads 0 everywhere but at ID, and a read changes the read port alone. -/
theorem resetStateIsZeroButTheId : Obligations.ResetStateIsZeroButTheId := by
  refine ⟨fun index => ?_, fun id a => ?_, registerValue_reset⟩
  · simp only [step_readReg, registerValue_reset, index_eq_id_iff]
  · rw [step_readMem, memoryByte_reset]; rfl

/-- Settles O12: the invariant holds at reset for every configuration that R6 admits, this hardware's among them. -/
theorem resetHasTheInvariant : Obligations.ResetHasTheInvariant :=
  (Invariance.inv_iff _).mpr (Invariance.inv_resetFor (by decide))

end Sys2Proof.MemoryMap
end

section
/-! SUPPORT. O8: a step runs the decoded instruction (10_state.md R28, 20_memory.md R66), and DFSI.DEC runs the sub-frame at the
cursor (41_dfsi_subframe.md R141). A placed table word (log entry 4) is one of these two. -/

namespace Sys2Proof.StepDecodes

open Sys2Proof.Machine Sys2Proof.Claims

theorem runWord_of_ok {w : CmdWord} {i : Instr} (h : decodeWord w = .ok i) (s : State) : runWord w s = exec i s := by
  simp only [runWord, h]

/-- A write to CMD runs the instruction of its low 16 bits. -/
theorem step_of_writeCmd {s : State} {v : RegData} {rest : List HostAction} {i : Instr}
    (hs : s.host = .writeReg 0 v :: rest) (hd : decodeWord (v.setWidth 16) = .ok i) :
    step s = exec i { s with host := rest } := by
  have hissued : commandIssued (.writeReg 0 v) = some (v.setWidth 16) := rfl
  simp only [step, hs, hissued, runWord_of_ok hd]

/-- The issue of a command word runs its instruction. -/
theorem step_of_issue {s : State} {w : CmdWord} {rest : List HostAction} {i : Instr} (hs : s.host = issue w :: rest)
    (hd : decodeWord w = .ok i) : step s = exec i { s with host := rest } := by
  have hw : (w.setWidth 32).setWidth 16 = w := by simp
  exact step_of_writeCmd hs (by rw [hw, hd])

theorem available_eq (s : State) : available s = inputBytes s 0 (inputLength s) := (inputBytes_eq s 0 _).symm

/-- What decoding bytes answers is a sub-frame format, which acts under DFSI.DEC as on its own. -/
theorem execSubFrame_eq_exec {f : List Byte} {v : Instr} (h : decodeSubFrame f = .ok v) (s : State) :
    execSubFrame v s = exec v s := by
  obtain ⟨hft, -, hv⟩ := decodeSubFrame_ok h
  obtain ⟨w, hw, hact⟩ := voiceOfBytes_some hft f
  obtain rfl : v = w := Option.some.inj (hv.symm.trans hw)
  exact (hact s).2

theorem exec_dfsiDec_of_ok {s : State} {v : Instr} (hf : s.fault = 0) (hi : s.ibValid = 1)
    (hd : decodeSubFrame (available s) = .ok v) : exec (.dfsiDec 0) s = exec v s := by
  have hop : operandNone 0 = true := rfl
  show execDfsiDec 0 s = exec v s
  rw [execDfsiDec, if_neg (ne_one_of_zero hf), if_pos hop, if_neg (ne_zero_of_one hi), hd]
  exact execSubFrame_eq_exec hd s

/-! ### A placed table word -/

theorem toOption_eq_some {ε α : Type} {x : Except ε α} {a : α} (h : x.toOption = some a) : x = .ok a := by
  cases x with
  | ok b => exact congrArg _ (Option.some.inj h)
  | error e => cases h

theorem decodeWord_of_tableWord {w : Nat} {i : Instr} (h : decodeTableWord 16 w = some i) :
    decodeWord (BitVec.ofNat 16 w) = .ok i := toOption_eq_some h

theorem decodeSubFrame_of_tableWord {w : Nat} {v : Instr} (h : decodeTableWord 8 w = some v) :
    decodeSubFrame (tableSubFrame (w % 2 ^ 8)) = .ok v := toOption_eq_some h

theorem length_tableSubFrame (w : Nat) : (tableSubFrame w).length = 22 := by
  simp [tableSubFrame, longestSubFrame]

/-- A placed sub-frame is what the read cursor has before it. -/
theorem available_withFetchWord (s : State) (w : Nat) :
    available (s.withFetchWord 8 w) = tableSubFrame (w % 2 ^ 8) := by
  have hread := memRead_memWrite_self s.ib 0 (tableSubFrame (w % 2 ^ 8))
  rwa [length_tableSubFrame] at hread

/-- Settles O8: the write to CMD, the sub-frame under DFSI.DEC, and the two kinds of placed word. -/
theorem stepRunsTheDecodedInstruction : Obligations.StepRunsTheDecodedInstruction := by
  refine ⟨fun s v rest i hs hd => step_of_writeCmd hs hd, fun s v hf hi hd => ?_, fun s w i hw => ?_,
    fun s w v hf hw => ?_⟩
  · exact exec_dfsiDec_of_ok hf hi (by rw [available_eq, hd])
  · exact step_of_issue rfl (decodeWord_of_tableWord hw)
  · have hdec : decodeWord (commandWord (.dfsiDec 0)) = .ok (.dfsiDec 0) := by decide
    have hat : decodeSubFrame (available (s.withFetchWord 8 w)) = .ok v := by
      rw [available_withFetchWord, decodeSubFrame_of_tableWord hw]
    calc step (s.withFetchWord 8 w)
      _ = exec (.dfsiDec 0) { s.withFetchWord 8 w with host := s.host } := step_of_issue rfl hdec
      _ = exec v { s.withFetchWord 8 w with host := s.host } := exec_dfsiDec_of_ok hf rfl hat

end Sys2Proof.StepDecodes
end

section
/-! SUPPORT. O1, O2, O6: the encoder and the decoder undo each other (30_encoding.md R81 to R83, 41_dfsi_subframe.md R120 to
R139). A command word gives back its opcode and operand; a frame gives back its metadata bytes and its codeword. -/

namespace Sys2Proof.RoundTrip

open Sys2Proof.Machine Sys2Proof.Claims

/-! ### Command words -/

theorem decodeWord_wordOf (o x : Byte) : decodeWord (wordOf o x) = commandOfOpcode o x := by
  rw [decodeWord, opcodeOf_wordOf, operandOf_wordOf]

/-- A command of the SEL form gets its three fields back from the operand byte. -/
theorem decodeWord_selOperand {o : Byte} {f : BitVec 2 → BitVec 2 → BitVec 4 → Instr}
    (h : ∀ x, commandOfOpcode o x = .ok (f (selK x) (selJ x) (selI x))) (k j : BitVec 2) (i : BitVec 4) :
    decodeWord (wordOf o (selOperand k j i)) = .ok (f k j i) := by
  rw [decodeWord_wordOf, h, selK_selOperand, selJ_selOperand, selI_selOperand]

theorem encode_of_decodeWord {w : CmdWord} {i : Instr} (h : decodeWord w = .ok i) :
    encode i = .command w ∧ i.wellFormed = true := by
  have henc := encode_commandOfOpcode _ _ i h
  rwa [wordOf_opcodeOf_operandOf] at henc

theorem decodeWord_ok_iff (w : CmdWord) : (∃ i, decodeWord w = .ok i) ↔ w.toNat / 256 ∈ opcodes := by
  rw [← toNat_opcodeOf]
  exact commandOfOpcode_ok_iff _ _

/-- Settles O2: a word is its opcode and its operand, and the 30 commands keep both. -/
theorem decodedWordsReencode : Obligations.DecodedWordsReencode :=
  fun w => ⟨fun _ h => encode_of_decodeWord h, decodeWord_ok_iff w⟩

/-! ### Frames -/

section
variable {ft : Nat} {md c : List Byte}

/-- The codeword stands in a frame at its type's offset, when the metadata leaves it there. -/
theorem codewordOf_frame (hft : isFrameType ft) (hc : c.length = 11) (hm : md.length + 1 ≤ sfCodeword ft) :
    codewordOf ft (frame ft md c) = c := by
  have hpre : (BitVec.ofNat 8 ft :: (md ++ zeros (sfCodeword ft - 1 - md.length))).length = sfCodeword ft := by
    simp only [zeros, List.length_cons, List.length_append, List.length_replicate]
    omega
  have hsplit : frame ft md c = (BitVec.ofNat 8 ft :: (md ++ zeros (sfCodeword ft - 1 - md.length)))
      ++ (c ++ zeros (Config.sfLen ft - sfCodeword ft - 11)) := by
    simp only [frame, sfImbe_eq ft hft, Config.imbeLen, List.cons_append, List.append_assoc]
  rw [codewordOf, sfImbe_eq ft hft, hsplit, slice, List.drop_left' hpre, List.take_left' hc]

theorem length_frame (hft : isFrameType ft) (hc : c.length = 11) (hm : md.length + 1 ≤ sfCodeword ft) :
    (frame ft md c).length = sfLength ft := by
  have hlen := Laws.length_frame ft md c hc (by rwa [sfImbe_eq ft hft])
    (by rw [sfImbe_eq ft hft, sfLen_eq ft hft]; exact sfCodeword_le ft hft)
  rw [hlen, sfLen_eq ft hft]

/-- A format whose encoding is a frame of its type decodes back, once the metadata reads back from the frame. -/
theorem decode_encode_of_frame {v : List Byte → Instr} (he : encode (v c) = .subFrame (frame ft md c))
    (hft : isFrameType ft) (hc : c.length = 11) (hm : md.length + 1 ≤ sfCodeword ft)
    (hv : voiceOfBytes ft (frame ft md c) = some (v (codewordOf ft (frame ft md c)))) :
    decode (encode (v c)) = .ok (v c) := by
  have hhead : ((frame ft md c).getD 0 0).toNat = ft := by
    have hlt : ft < 256 := Nat.lt_of_le_of_lt hft.2 (by decide)
    exact Nat.mod_eq_of_lt hlt
  obtain ⟨w, hw, hvoice⟩ := decodeSubFrame_valid (f := frame ft md c) (by rwa [hhead])
    (by rw [hhead, length_frame hft hc hm])
  rw [hhead, hv, codewordOf_frame hft hc hm] at hvoice
  rw [he, decode, hw, Option.some.inj hvoice]

end

theorem be24_frame (ft : Nat) (d : BitVec 24) (c : List Byte) : be24 (frame ft (bytes24 d) c) 1 = d := bytes24_append d

theorem be16_frame (ft : Nat) (a : Byte) (k : BitVec 16) (c : List Byte) : be16 (frame ft (a :: bytes16 k) c) 2 = k :=
  bytes16_append k

/-- Settles O1: commands by their form, sub-frames as frames whose metadata bytes read back. -/
theorem decodeEncodeRoundTrip : Obligations.DecodeEncodeRoundTrip := by
  intro i hwf
  cases i with
  | lduCheck k j i | lduReasm k j i | lduGetImbe k j i | lduCompose k j i | lduToVb k j i =>
    exact decodeWord_selOperand (fun _ => rfl) k j i
  | nop op | reset op | bpPack op | bpUnpack op | dfsiEnc op | dfsiDec op | dfsiLen op | lduBegin op | lduEnd op
  | ctlEnc op | ctlDec op | bhEnc op | bhDec op | pktEnc op | pktDec op | pttEnc op | pttDec op | frhEnc op | frhDec op
  | frvEnc op | frvDec op | frvSize op | plSize op | plEnc op | plDec op =>
    exact decodeWord_wordOf _ op
  | voice4 | voice5 =>
    exact decode_encode_of_frame rfl ⟨by decide, by decide⟩ (beq_iff_eq.mp hwf) (Nat.le_of_ble_eq_true rfl)
      (by simp only [voiceOfBytes, be24_frame])
  | voice15 =>
    exact decode_encode_of_frame rfl ⟨by decide, by decide⟩ (beq_iff_eq.mp hwf) (Nat.le_of_ble_eq_true rfl)
      (by simp only [voiceOfBytes, be16_frame]; rfl)
  | voice1 | voice2 | voice3 | voice6 | voice7 | voice8 | voice9 | voice10 | voice11 | voice12 | voice13 | voice14
  | voice16 | voice17 | voice18 =>
    exact decode_encode_of_frame rfl ⟨by decide, by decide⟩ (beq_iff_eq.mp hwf) (Nat.le_of_ble_eq_true rfl) rfl

theorem decodeWord_of_encode {i : Instr} {w : CmdWord} (he : encode i = .command w) (hwf : i.wellFormed = true) :
    decodeWord w = .ok i := by
  have hdec := decodeEncodeRoundTrip i hwf
  rwa [he] at hdec

theorem decodeSubFrame_of_encode {v : Instr} {f : List Byte} (he : encode v = .subFrame f) (hwf : v.wellFormed = true) :
    decodeSubFrame f = .ok v := by
  have hdec := decodeEncodeRoundTrip v hwf
  rwa [he] at hdec

/-- Settles O6: each sample is the encoding of what it stands for, so it decodes to that. -/
theorem sampleEncodingsDecode : Obligations.SampleEncodingsDecode :=
  ⟨decodeWord_of_encode rfl rfl, decodeWord_of_encode rfl rfl, decodeWord_of_encode rfl rfl,
    decodeWord_of_encode rfl rfl, decodeWord_of_encode rfl rfl, decodeWord_of_encode rfl rfl,
    decodeSubFrame_of_encode rfl rfl, decodeSubFrame_of_encode rfl rfl, decodeSubFrame_of_encode rfl rfl⟩

end Sys2Proof.RoundTrip
end

section
/-! SUPPORT. O5, O7: the outcomes of what is no valid encoding (30_encoding.md R84, R85). Every command but RESET 0 is the
common checks of 60_exceptions.md R240 and a rest; its operand test is the form of R82 that its word shows. -/

namespace Sys2Proof.MalformedWords

open Sys2Proof.Machine Sys2Proof.Claims

/-! ### Every command begins with the common checks -/

/-- The operand test of an instruction (R82); a frame type and a sub-frame have no form to break. -/
def operandOk : Instr → Bool
  | .nop op | .reset op | .bpPack op | .bpUnpack op | .dfsiDec op | .lduBegin op | .lduEnd op | .ctlEnc op | .ctlDec op
  | .pktEnc op | .pktDec op | .pttEnc op | .pttDec op | .frhEnc op | .frhDec op | .plSize op | .plEnc op | .plDec op =>
    operandNone op
  | .bhEnc slot | .bhDec slot => operandIdx Config.nbh slot
  | .frvEnc slot | .frvDec slot | .frvSize slot => operandIdx Config.nvb slot
  | .lduCheck k j i | .lduReasm k j i | .lduCompose k j i => operandSelK k j i
  | .lduGetImbe k j i => operandSelKI k j i
  | .lduToVb k j i => operandSelKJI k j i
  | .dfsiEnc _ | .dfsiLen _ | .voice1 _ _ | .voice2 _ | .voice3 _ _ _ _ | .voice4 _ _ | .voice5 _ _ | .voice6 _
  | .voice7 _ | .voice8 _ | .voice9 _ _ _ | .voice10 _ _ | .voice11 _ | .voice12 _ _ _ _ | .voice13 _ _ _ _
  | .voice14 _ _ _ _ | .voice15 _ _ _ | .voice16 _ | .voice17 _ | .voice18 _ _ _ => true

theorem execSubFrame_next (v : Instr) (s : State) : ∃ t, execSubFrame v s = .next t := by
  cases v with
  | _ => exact ⟨_, rfl⟩

section
variable (op : Byte) (s : State)

theorem execReset_eq_commonChecks (hop : op ≠ 0) : execReset op s = .next (commonChecks (operandNone op) s s) := by
  have hne : (op != 0#8) = true := bne_iff_ne.mpr hop
  have hnone : operandNone op = false := beq_eq_false_iff_ne.mpr hop
  simp [execReset, commonChecks, hne, hnone]

theorem execDfsiDec_eq_commonChecks : ∃ rest, execDfsiDec op s = .next (commonChecks (operandNone op) s rest) := by
  by_cases hf : s.fault = 1
  · exact ⟨s, by rw [execDfsiDec, if_pos hf, commonChecks_latched _ _ hf]⟩
  · by_cases hop : operandNone op = true
    · have hnext : ∃ t, execDfsiDec op s = .next t := by
        rw [execDfsiDec, if_neg hf, if_pos hop]
        split
        · exact ⟨_, rfl⟩
        · split
          · exact ⟨_, rfl⟩
          · exact execSubFrame_next _ s
      obtain ⟨t, ht⟩ := hnext
      exact ⟨t, by rw [ht, hop, commonChecks_accepted _ hf]⟩
    · exact ⟨s, by rw [execDfsiDec, if_neg hf, if_neg hop, Bool.eq_false_iff.mpr hop, commonChecks_malformed _ hf]⟩

end

/-- Every instruction but RESET 0 begins with the common checks on its operand. -/
theorem exec_eq_commonChecks {i : Instr} (hi : i ≠ .reset 0) (s : State) :
    ∃ rest, exec i s = .next (commonChecks (operandOk i) s rest) := by
  cases i with
  | reset op => exact ⟨s, execReset_eq_commonChecks op s (fun hop => hi (congrArg _ hop))⟩
  | dfsiDec op => exact execDfsiDec_eq_commonChecks op s
  | _ => exact ⟨_, rfl⟩

theorem exec_latched {i : Instr} (hi : i ≠ .reset 0) {s : State} (hf : s.fault = 1) :
    exec i s = .next { s with code := 0xFF#8 } := by
  obtain ⟨rest, h⟩ := exec_eq_commonChecks hi s
  rw [h, commonChecks_latched _ _ hf]; rfl

theorem exec_malformed {i : Instr} (hi : operandOk i = false) {s : State} (hf : s.fault = 0) :
    exec i s = .next { s with code := 0x15#8 } := by
  have hne : i ≠ .reset 0 := by rintro rfl; exact absurd hi (by decide)
  obtain ⟨rest, h⟩ := exec_eq_commonChecks hne s
  rw [h, hi, commonChecks_malformed _ (ne_one_of_zero hf)]; rfl

/-! ### The operand test on the word (R82) -/

theorem toNat_selOperand (k j : BitVec 2) (i : BitVec 4) :
    (selOperand k j i).toNat = k.toNat * 64 + j.toNat * 16 + i.toNat := by
  have happ : (k ++ j ++ i).toNat = (k.toNat * 2 ^ 2 + j.toNat) * 2 ^ 4 + i.toNat := by
    rw [toNat_append_add, toNat_append_add]
  rw [selOperand, happ]
  omega

/-- The operand test of a word of opcode `o`, when it is the form of `o` on the operand byte. -/
theorem fits_wordOf {o x : Byte} {ok : Bool} (h : ok = true ↔ operandFits o.toNat x.toNat) :
    ok = true ↔ operandFits ((wordOf o x).toNat / 256) ((wordOf o x).toNat % 256) := by
  rwa [← toNat_opcodeOf, ← toNat_operandOf, opcodeOf_wordOf, operandOf_wordOf]

theorem operandNone_iff_toNat (x : Byte) : operandNone x = true ↔ x.toNat = 0 := by
  rw [operandNone_iff, ← BitVec.toNat_inj]; rfl

section
variable (k j : BitVec 2) (i : BitVec 4)

theorem selectsLdu_iff_toNat : selectsLdu k = true ↔ k.toNat = 1 ∨ k.toNat = 2 := by
  rw [selectsLdu_iff, ← BitVec.toNat_inj, ← BitVec.toNat_inj]; rfl

theorem operandSelK_iff_toNat :
    operandSelK k j i = true ↔ (selOperand k j i).toNat = 0x40 ∨ (selOperand k j i).toNat = 0x80 := by
  have hj := j.isLt
  have hi := i.isLt
  simp only [operandSelK, Bool.and_eq_true, beq_iff_eq, selectsLdu_iff_toNat, ← BitVec.toNat_inj, BitVec.toNat_ofNat,
    toNat_selOperand]
  omega

theorem operandSelKI_iff_toNat :
    operandSelKI k j i = true ↔ ((selOperand k j i).toNat / 64 = 1 ∨ (selOperand k j i).toNat / 64 = 2)
      ∧ (selOperand k j i).toNat / 16 % 4 = 0 ∧ (selOperand k j i).toNat % 16 ≤ 8 := by
  have hj := j.isLt
  have hi := i.isLt
  simp only [operandSelKI, Bool.and_eq_true, beq_iff_eq, decide_eq_true_eq, selectsLdu_iff_toNat, ← BitVec.toNat_inj,
    BitVec.toNat_ofNat, toNat_selOperand]
  omega

theorem operandSelKJI_iff_toNat :
    operandSelKJI k j i = true ↔ ((selOperand k j i).toNat / 64 = 1 ∨ (selOperand k j i).toNat / 64 = 2)
      ∧ (selOperand k j i).toNat / 16 % 4 < 3 ∧ (selOperand k j i).toNat % 16 ≤ 8 := by
  have hj := j.isLt
  have hi := i.isLt
  have hnvb : Config.nvb = 3 := rfl
  simp only [operandSelKJI, Bool.and_eq_true, decide_eq_true_eq, selectsLdu_iff_toNat, toNat_selOperand, hnvb]
  omega

end

/-- The operand test of a command is the form of its opcode. -/
theorem operandOk_iff {i : Instr} {w : CmdWord} (h : encode i = .command w) :
    operandOk i = true ↔ operandFits (w.toNat / 256) (w.toNat % 256) := by
  cases i with
  | nop x | reset x | bpPack x | bpUnpack x | dfsiDec x | lduBegin x | lduEnd x | ctlEnc x | ctlDec x | pktEnc x
  | pktDec x | pttEnc x | pttDec x | frhEnc x | frhDec x | plSize x | plEnc x | plDec x =>
    cases h; exact fits_wordOf (operandNone_iff_toNat x)
  | bhEnc slot | bhDec slot | frvEnc slot | frvDec slot | frvSize slot =>
    cases h; exact fits_wordOf (operandIdx_iff _ slot)
  | lduCheck k j i | lduReasm k j i | lduCompose k j i => cases h; exact fits_wordOf (operandSelK_iff_toNat k j i)
  | lduGetImbe k j i => cases h; exact fits_wordOf (operandSelKI_iff_toNat k j i)
  | lduToVb k j i => cases h; exact fits_wordOf (operandSelKJI_iff_toNat k j i)
  | dfsiEnc | dfsiLen => cases h; exact fits_wordOf ⟨fun _ => trivial, fun _ => rfl⟩
  | _ => cases h

/-! ### The write to CMD -/

theorem step_writeCmd (w : CmdWord) (s : State) : step (withMove (.writeReg 0 (w.setWidth 32)) s) = runWord w s := by
  have hissued : commandIssued (.writeReg 0 (w.setWidth 32)) = some w := by simp [commandIssued]
  simp only [step, withMove, hissued]

theorem runWord_illegal {w : CmdWord} (h : ∀ i, decodeWord w ≠ .ok i) (s : State) :
    runWord w s = .next (illegalOpcode s) := by
  cases hd : decodeWord w with
  | ok i => exact absurd hd (h i)
  | error e => simp only [runWord, hd]

theorem runWord_latched {w : CmdWord} (hw : w ≠ 0x0F00) {s : State} (hf : s.fault = 1) :
    runWord w s = .next { s with code := 0xFF#8 } := by
  by_cases hd : ∃ i, decodeWord w = .ok i
  · obtain ⟨i, hi⟩ := hd
    have hne : i ≠ .reset 0 := by
      rintro rfl
      exact hw (Encoding.command.inj (RoundTrip.encode_of_decodeWord hi).1).symm
    rw [StepDecodes.runWord_of_ok hi, exec_latched hne hf]
  · rw [runWord_illegal (not_exists.mp hd), illegalOpcode, if_pos hf]; rfl

/-- Settles O7: the word is refused, undecodable, or decodes to a command whose operand test fails. -/
theorem illegalAndMalformedWordsOnlyReport : Obligations.IllegalAndMalformedWordsOnlyReport := by
  intro w s
  rw [step_writeCmd]
  refine ⟨fun hf hw => runWord_latched hw hf, fun hf hop => ?_, fun hf hop hfits => ?_⟩
  · have hd := not_exists.mp (mt (RoundTrip.decodeWord_ok_iff w).mp hop)
    rw [runWord_illegal hd, illegalOpcode, if_neg (ne_one_of_zero hf)]; rfl
  · obtain ⟨i, hi⟩ := (RoundTrip.decodeWord_ok_iff w).mpr hop
    have hok : operandOk i = false :=
      Bool.eq_false_iff.mpr (mt (operandOk_iff (RoundTrip.encode_of_decodeWord hi).1).mp hfits)
    rw [StepDecodes.runWord_of_ok hi, exec_malformed hok hf]

/-! ### Discriminants (R85) -/

/-- A discriminant begins a sub-frame: itself and as many zeros as the longest needs. -/
theorem begins_subFrame_iff (ft : Byte) : (∃ rest v, decodeSubFrame (ft :: rest) = .ok v) ↔ isFrameType ft.toNat := by
  constructor
  · rintro ⟨rest, v, h⟩
    exact (decodeSubFrame_ok h).1
  · intro hft
    obtain ⟨v, hv, -⟩ := decodeSubFrame_valid (f := ft :: zeros 21) hft (Invariance.sfLength_le _)
    exact ⟨_, v, hv⟩

section
variable {ft : Byte} {s : State} (hft : ¬ isFrameType ft.toNat) (hf : s.fault = 0)
include hft hf

theorem dfsiLen_invalid : EndsWith (.dfsiLen ft) 0x10#8 s := by
  show execDfsiLen ft s = _
  rw [execDfsiLen, commonChecks_accepted _ (ne_one_of_zero hf), if_neg (mt (validFrameType_iff ft).mp hft)]; rfl

theorem dfsiEnc_invalid (hv : s.obValid = 1) : EndsWith (.dfsiEnc ft) 0x10#8 s := by
  show execDfsiEnc ft s = _
  rw [execDfsiEnc, commonChecks_accepted _ (ne_one_of_zero hf), if_neg (ne_zero_of_one hv),
    if_neg (mt (validFrameType_iff ft).mp hft)]; rfl

theorem dfsiDec_invalid (hv : s.ibValid = 1) (hlt : s.ibPtr.toNat < s.ibLen.toNat) (hb : inputByte s 0 = ft) :
    EndsWith (.dfsiDec 0) 0x10#8 s := by
  have hop : operandNone 0 = true := rfl
  have hhead : (available s).getD 0 0 = ft := (getD_available s hlt).trans hb
  have hdec : decodeSubFrame (available s) = .error (.invalidFrameType ft) := by
    rw [decodeSubFrame_invalid (by rw [length_available]; omega) (by rwa [hhead]), hhead]
  show execDfsiDec 0 s = _
  rw [execDfsiDec, if_neg (ne_one_of_zero hf), if_pos hop, if_neg (ne_zero_of_one hv), hdec]; rfl

end

/-- Settles O5: what begins a sub-frame, and the three DFSI commands at a byte that does not. -/
theorem frameTypesAreTheEighteen : Obligations.FrameTypesAreTheEighteen :=
  ⟨begins_subFrame_iff, fun _ _ hft hf =>
    ⟨dfsiLen_invalid hft hf, dfsiEnc_invalid hft hf, dfsiDec_invalid hft hf⟩⟩

end Sys2Proof.MalformedWords
end

section
/-! SUPPORT. O25, O26, O27: the bit-packer (40_bitpack.md R110 to R115). Pack and Unpack are the sums and quotients of the laws
above; BP.PACK is `EncFixed` of the packed fields and BP.UNPACK is `DecFixed` and the fields read, each once its descriptor is
well-formed. -/

namespace Sys2Proof.BitPacking

open Sys2Proof.Machine Sys2Proof.Claims

/-! ### The laws of Pack and Unpack (R114) -/

/-- `T` bits in whole bytes: the numbers below `2 ^ T` are those of `T / 8` bytes. -/
theorem two_pow_of_wholeBytes {n : Nat} (h : n % 8 = 0) : 2 ^ n = 256 ^ (n / 8) := by
  conv_lhs => rw [← Nat.mul_div_cancel' (Nat.dvd_of_mod_eq_zero h), Nat.pow_mul]

/-- The fields of a record with each value cut to its width. -/
def cutToWidths (fs : List (Nat × Nat)) : List (Nat × Nat) := fs.map (fun f => (f.1, f.2 % 2 ^ f.1))

theorem map_fst_cutToWidths (fs : List (Nat × Nat)) : (cutToWidths fs).map Prod.fst = fs.map Prod.fst := by
  rw [cutToWidths, List.map_map]; rfl

theorem fieldSum_cutToWidths (a : Nat) (fs : List (Nat × Nat)) : fieldSum a (cutToWidths fs) = fieldSum a fs := by
  induction fs generalizing a with
  | nil => rfl
  | cons f fs ih =>
    calc fieldSum a (cutToWidths (f :: fs))
      _ = fieldSum (a * 2 ^ f.1 + f.2 % 2 ^ f.1 % 2 ^ f.1) (cutToWidths fs) := rfl
      _ = fieldSum a (f :: fs) := by rw [Nat.mod_mod, ih]; rfl

/-- Pack depends on a value only through its low bits (R114 c). -/
theorem pack_cutToWidths (fs : List (Nat × Nat)) : pack (cutToWidths fs) = pack fs := by
  rw [pack, pack, packAcc_eq, packAcc_eq, map_fst_cutToWidths, fieldSum_cutToWidths]

/-- Packing two groups, the second of whole bytes, is packing each and putting the bytes one after the other (R114 d). -/
theorem pack_append (fs : List (Nat × Nat)) {gs : List (Nat × Nat)} (h : totalWidth (gs.map Prod.fst) % 8 = 0) :
    pack (fs ++ gs) = pack fs ++ pack gs := by
  have hlen : (totalWidth (fs.map Prod.fst) + totalWidth (gs.map Prod.fst)) / 8
      = totalWidth (fs.map Prod.fst) / 8 + totalWidth (gs.map Prod.fst) / 8 := by omega
  have hlow : fieldSum 0 gs < 256 ^ (totalWidth (gs.map Prod.fst) / 8) := by
    rw [← two_pow_of_wholeBytes h]; exact fieldSum_lt gs
  rw [pack, pack, pack, packAcc_eq, packAcc_eq, packAcc_eq, fieldSum_append, fieldSum_eq, List.map_append,
    totalWidth_append, hlen, two_pow_of_wholeBytes h, bytesOfNat_add _ _ _ _ hlow]

/-- Settles O25: the laws of R114, one by one. -/
theorem packAndUnpackLaws : Obligations.PackAndUnpackLaws := by
  refine ⟨fun fs ⟨_, hbytes, _⟩ => ⟨length_pack fs, unpack_pack fs hbytes, pack_cutToWidths fs⟩,
    fun ws bytes ⟨_, hbytes, _⟩ hlen => pack_unpack ws bytes ?_, fun fs gs _ ⟨_, hbytes, _⟩ _ => pack_append fs hbytes⟩
  rw [hlen, Nat.mul_div_cancel' (Nat.dvd_of_mod_eq_zero hbytes), totalWidth_sum]

/-! ### BP.PACK (R112) -/

theorem length_bigEndian (n a : Nat) : (bigEndian n a).length = n := by rw [← bigEndian_eq, length_bytesOfNat]

/-- Settles O26: with a well-formed descriptor the command is `EncFixed` of the fields' bytes. -/
theorem bpPackOutcomes : Obligations.BpPackOutcomes := by
  intro op s
  refine guarded rfl rfl (operandNone_iff op) (fun _ hop h => ?_)
  subst hop
  have hfixed (hd : descriptorOk s.bp) :
      EncodesFixed (.bpPack 0) 0x1000#16 (bigEndian (fieldTotal s.bp / 8) (fieldNumber s.bp)) s :=
    encodesFixed (by rw [h, if_pos ((descriptor_iff _).mpr hd), pack_fields]; rfl)
  simp only [EncodesFixed, length_bigEndian] at hfixed
  refine ⟨fun hv => ?_, fun hv hd => ?_, fun hv hd => ?_, fun hv hd => ?_⟩
  · rw [Faults, h, if_pos hv]; rfl
  · rw [EndsWith, h, if_neg (ne_zero_of_one hv), if_neg (mt (descriptor_iff _).mp hd)]; rfl
  · obtain ⟨-, hnoRoom, -⟩ := hfixed hd
    exact hnoRoom hv
  · obtain ⟨-, -, hroom⟩ := hfixed hd
    exact hroom hv

/-! ### The fields that BP.UNPACK reads (R111) -/

@[simp] theorem length_widths (bp : BitPacker) : bp.widths.length = bp.n.toNat := by
  rw [BitPacker.widths, List.length_map, List.length_range]

theorem widths_eq (bp : BitPacker) : bp.widths = (List.range bp.n.toNat).map (fieldWidth bp) := rfl

theorem totalWidth_widths (bp : BitPacker) : totalWidth bp.widths = fieldTotal bp := rfl

theorem getD_widths (bp : BitPacker) {i : Nat} (hi : i < bp.n.toNat) : bp.widths.getD i 0 = fieldWidth bp i := by
  rw [List.getD_eq_getElem _ _ (by rwa [length_widths])]
  simp only [widths_eq, List.getElem_map, List.getElem_range]

/-- What stands below field `i` is the total width without the fields up to it. -/
theorem bitsBelow_eq (bp : BitPacker) (i : Nat) :
    bitsBelow bp i = totalWidth bp.widths - totalWidth (bp.widths.take (i + 1)) := by
  have hbelow : bitsBelow bp i = totalWidth (bp.widths.drop (i + 1)) := by
    rw [widths_eq, ← List.map_drop, bitsBelow, totalWidth_sum]
  have hsplit : totalWidth bp.widths = totalWidth (bp.widths.take (i + 1)) + totalWidth (bp.widths.drop (i + 1)) := by
    rw [← totalWidth_append, List.take_append_drop]
  omega

/-- Field `i` of a byte string, as the descriptor cuts it. -/
theorem getD_unpack_widths (bp : BitPacker) (bs : List Byte) {i : Nat} (hi : i < bp.n.toNat) :
    (unpack bp.widths bs).getD i 0 = natOfBytes bs / 2 ^ bitsBelow bp i % 2 ^ fieldWidth bp i := by
  rw [unpack, getD_unpackFrom _ _ _ _ (by rwa [length_widths]), getD_widths bp hi, bitsBelow_eq]

/-- The number of the bytes at the read cursor. -/
theorem natOfBytes_memRead (s : State) (n : Nat) : natOfBytes (memRead s.ib s.ibPtr.toNat n) = inputNumber s n := by
  rw [natOfBytes_eq]
  exact byteSum_eq_sum (inputByte s) n

/-! ### BP.UNPACK (R113) -/

/-- The registers BP_V with the fields of the bytes at the read cursor in them. -/
def valuesRead (s : State) : Vector (BitVec 32) 8 :=
  setFrom s.bp.v 0
    ((unpack s.bp.widths (memRead s.ib s.ibPtr.toNat (fieldTotal s.bp / 8))).map (BitVec.ofNat 32))

theorem getD_valuesRead (s : State) {i : Nat} (hi : i < 8) :
    (valuesRead s).getD i 0 =
      if i < s.bp.n.toNat then
        BitVec.ofNat 32 (inputNumber s (fieldTotal s.bp / 8) / 2 ^ bitsBelow s.bp i % 2 ^ fieldWidth s.bp i)
      else s.bp.v.getD i 0 := by
  have hvalue (vs : List Nat) : (vs.map (BitVec.ofNat 32)).getD i 0 = BitVec.ofNat 32 (vs.getD i 0) := List.getD_map _ 0 _
  simp only [valuesRead, getD_setFrom, List.length_map, length_unpack, length_widths, Nat.zero_le, Nat.zero_add,
    Nat.sub_zero, hi, true_and, and_true]
  split
  · next hn => rw [hvalue, getD_unpack_widths _ _ hn, natOfBytes_memRead]
  · rfl

/-- Settles O27: with a well-formed descriptor the command is `DecFixed`, and then BP_V holds the fields of the bytes read. -/
theorem bpUnpackOutcomes : Obligations.BpUnpackOutcomes := by
  intro op s
  refine guarded rfl rfl (operandNone_iff op) (fun _ _ h => ?_)
  have hfixed (hv : s.ibValid = 1) (hd : descriptorOk s.bp) :
      DecodesFixed (.bpUnpack op) (fieldTotal s.bp / 8) s { s with bp := { s.bp with v := valuesRead s } } :=
    decodesFixed (by rw [h, if_neg (ne_zero_of_one hv), if_pos ((descriptor_iff _).mpr hd), totalWidth_widths]) rfl
  refine ⟨fun hv => ?_, fun hv hd => ?_, fun hv hd => ?_, fun hv hd hthere => ?_⟩
  · rw [EndsWith, h, if_pos hv]; rfl
  · rw [EndsWith, h, if_neg (ne_zero_of_one hv), if_neg (mt (descriptor_iff _).mp hd)]; rfl
  · obtain ⟨-, hshort, -⟩ := hfixed hv hd
    exact hshort hv
  · obtain ⟨-, -, hdecodes⟩ := hfixed hv hd
    exact ⟨valuesRead s, fun i hi => getD_valuesRead s hi, hdecodes hv hthere⟩

end Sys2Proof.BitPacking
end

section
/-! SUPPORT. O30, O28, O29, O31, O32, O33, O4, O3: sub-frames (41_dfsi_subframe.md). DFSI.ENC is `EncFixed` of the bytes of
R122 to R139, DFSI.DEC the meaning of the format at the cursor, and O33 puts the outcomes of the two together. For O4 and O3 a
sub-frame is a frame: the discriminant, the metadata, the codeword at its type's offset, and zeros (`getD_frame`); a format
that is decoded encodes to the frame of the bytes it was read from, the unnamed ones cleared (`encode_of_voiceOfBytes`). -/

namespace Sys2Proof.SubFrames

open Sys2Proof.Machine Sys2Proof.Claims

/-! ### DFSI.LEN (R142) -/

/-- Settles O30: the common checks, then the length of a valid type. -/
theorem dfsiLenOutcomes : Obligations.DfsiLenOutcomes := by
  intro ft s
  refine guarded (ok := true) rfl rfl ⟨fun _ => trivial, fun _ => rfl⟩ (fun hf _ h => ⟨fun hft => ?_, fun hft => ?_⟩)
  · exact MalformedWords.dfsiLen_invalid hft hf
  · rw [h, if_pos ((validFrameType_iff ft).mpr hft), sfLen_eq _ hft]; rfl

/-! ### DFSI.ENC (R140) -/

/-- The bytes that DFSI.ENC writes for a type: the call data and memory IMBE as R122 to R139 lay them out. -/
def encodedBytes (ft : Byte) (s : State) : List Byte := sfBytes ft.toNat s.cd (memRead s.imbe 0 11)

theorem length_encodedBytes {ft : Byte} (hft : isFrameType ft.toNat) (s : State) :
    (encodedBytes ft s).length = sfLength ft.toNat :=
  length_sfBytes _ hft _ _ (length_memRead _ _ _)

/-- For a valid type DFSI.ENC is `EncFixed` of the sub-frame's bytes. -/
theorem dfsiEnc_encodesFixed {ft : Byte} {s : State} (hft : isFrameType ft.toNat) (hf : s.fault = 0) :
    EncodesFixed (.dfsiEnc ft) (0x20#8 ++ ft) (encodedBytes ft s) s := by
  refine encodesFixed ?_
  show execDfsiEnc ft s = _
  rw [execDfsiEnc, commonChecks_accepted _ (ne_one_of_zero hf), if_pos ((validFrameType_iff ft).mpr hft),
    subFrame_eq _ hft]
  rfl

/-- Settles O28: without a target the type is not looked at; with one it is tested, and a valid one is `EncFixed`. -/
theorem dfsiEncOutcomes : Obligations.DfsiEncOutcomes := by
  intro ft s
  refine guarded (ok := true) rfl rfl ⟨fun _ => trivial, fun _ => rfl⟩ (fun hf _ h => ?_)
  refine ⟨fun hv => ?_, fun hv hft => MalformedWords.dfsiEnc_invalid hft hf hv, fun hv hft hfull => ?_,
    fun hv hft hroom => ⟨length_encodedBytes hft s, ?_⟩⟩
  · rw [Faults, h, if_pos hv]; rfl
  · obtain ⟨-, hnoRoom, -⟩ := dfsiEnc_encodesFixed hft hf
    exact hnoRoom hv (by rwa [length_encodedBytes hft])
  · obtain ⟨-, -, happends⟩ := dfsiEnc_encodesFixed hft hf
    exact happends hv (by rwa [length_encodedBytes hft])

/-! ### The codeword in a byte string -/

/-- The codeword of a sub-frame, byte by byte. -/
theorem codewordOf_eq_map {ft : Nat} (hft : isFrameType ft) {f : List Byte} (hl : sfLength ft ≤ f.length) :
    codewordOf ft f = (List.range 11).map (fun k => byteAt f (sfCodeword ft + k)) := by
  have hroom := sfCodeword_le ft hft
  rw [codewordOf, sfImbe_eq ft hft]
  apply List.ext_getElem
  · simp only [slice, List.length_take, List.length_drop, List.length_map, List.length_range, Config.imbeLen]
    have : Config.hardware.imbeLen = 11 := rfl
    omega
  · intro k hk hk'
    have hlt : k < 11 := by simpa using hk'
    have hin : sfCodeword ft + k < f.length := by omega
    simp [slice, byteAt, hin]

theorem length_codewordOf {ft : Nat} (hft : isFrameType ft) {f : List Byte} (hl : sfLength ft ≤ f.length) :
    (codewordOf ft f).length = 11 := by
  rw [codewordOf_eq_map hft hl, List.length_map, List.length_range]

theorem getD_codewordOf {ft : Nat} (hft : isFrameType ft) {f : List Byte} (hl : sfLength ft ≤ f.length) {k : Nat}
    (hk : k < 11) : (codewordOf ft f).getD k 0 = f.getD (sfCodeword ft + k) 0 := by
  rw [codewordOf_eq_map hft hl, List.getD_eq_getElem _ _ (by simpa using hk)]
  simp [byteAt]

/-! ### DFSI.DEC (R141) -/

theorem dfsiDec_noInput {s : State} (hf : s.fault = 0) (habsent : s.ibValid = 0) : EndsWith (.dfsiDec 0) 0x11#8 s := by
  have hop : operandNone 0 = true := rfl
  show execDfsiDec 0 s = _
  rw [execDfsiDec, if_neg (ne_one_of_zero hf), if_pos hop, if_pos habsent]
  rfl

section
variable {s : State} (hf : s.fault = 0) (hv : s.ibValid = 1)
include hf hv

/-- When the bytes at the cursor are no sub-frame, DFSI.DEC ends with the status that says why. -/
theorem exec_dfsiDec_of_error {e : DecodeError} (hd : decodeSubFrame (available s) = .error e) :
    EndsWith (.dfsiDec 0) (subFrameStatus e).code s := by
  have hop : operandNone 0 = true := rfl
  show execDfsiDec 0 s = _
  rw [execDfsiDec, if_neg (ne_one_of_zero hf), if_pos hop, if_neg (ne_zero_of_one hv), hd]
  rfl

theorem dfsiDec_nothingLeft (hend : s.ibPtr.toNat ≥ s.ibLen.toNat) : EndsWith (.dfsiDec 0) 0x12#8 s := by
  have hnil : available s = [] := List.eq_nil_of_length_eq_zero (by rw [length_available]; omega)
  exact exec_dfsiDec_of_error hf hv (by rw [hnil, decodeSubFrame_nil])

theorem dfsiDec_short (hlt : s.ibPtr.toNat < s.ibLen.toNat) (hft : isFrameType (inputByte s 0).toNat)
    (hshort : s.ibPtr.toNat + sfLength (inputByte s 0).toNat > s.ibLen.toNat) : EndsWith (.dfsiDec 0) 0x12#8 s := by
  have hhead := getD_available s hlt
  refine exec_dfsiDec_of_error (e := .shortSubFrame (inputByte s 0)) hf hv ?_
  rw [decodeSubFrame_short (by rw [length_available]; omega) (by rwa [hhead])
    (by rw [hhead, length_available]; omega), hhead]

/-- A sub-frame that is wholly there, acting on its own: its call data, its codeword, FT_LAST, the cursor and RESULT. -/
theorem execVoice_complete {ft : Nat} (hft : isFrameType ft) (upd : CallData → CallData) (c : List Byte)
    (hthere : s.ibPtr.toNat + sfLength ft ≤ s.ibLen.toNat) :
    execVoice ft upd c s = .next (consumed (sfLength ft) s
      { s with cd := upd s.cd, imbe := memWrite s.imbe 0 c, ftLast := BitVec.ofNat 8 ft }) := by
  rw [execVoice, sfLen_eq _ hft, commonChecks_accepted _ (ne_one_of_zero hf), if_neg (ne_zero_of_one hv),
    if_neg (Nat.not_lt.mpr hthere), unpackSubFrame, sfLen_eq _ hft]
  rfl

/-- DFSI.DEC at a sub-frame that is wholly there: the format is decoded from what is available, of which it reads the
bytes at the cursor alone. -/
theorem dfsiDec_complete (hft : isFrameType (inputByte s 0).toNat)
    (hthere : s.ibPtr.toNat + sfLength (inputByte s 0).toNat ≤ s.ibLen.toNat) :
    exec (.dfsiDec 0) s = .next (consumed (sfLength (inputByte s 0).toNat) s
      { s with
        cd := sfMetadata (inputByte s 0).toNat (inputByte s) s.cd
        imbe := memWrite s.imbe 0 (inputBytes s (sfCodeword (inputByte s 0).toNat) 11)
        ftLast := inputByte s 0 }) := by
  have hpos := sfLength_pos (inputByte s 0).toNat
  have hhead := getD_available s (by omega)
  have hlen : sfLength (inputByte s 0).toNat ≤ (available s).length := by rw [length_available]; omega
  obtain ⟨v, hd, hvoice⟩ := decodeSubFrame_valid (f := available s) (by rwa [hhead]) (by rwa [hhead])
  rw [hhead] at hvoice
  obtain ⟨w, hw, hact⟩ := voiceOfBytes_some hft (available s)
  obtain rfl : v = w := Option.some.inj (hvoice.symm.trans hw)
  obtain ⟨hexec, -⟩ := hact s
  have hbyte {n : Nat} (hn : n < sfLength (inputByte s 0).toNat) : byteAt (available s) n = inputByte s n :=
    byteAt_available s n (by omega)
  have hcodeword : codewordOf (inputByte s 0).toNat (available s)
      = inputBytes s (sfCodeword (inputByte s 0).toNat) 11 := by
    have hroom := sfCodeword_le _ hft
    rw [codewordOf_eq_map hft hlen]
    exact List.map_congr_left (fun k hk => hbyte (by have := List.mem_range.mp hk; omega))
  rw [StepDecodes.exec_dfsiDec_of_ok hf hv hd, hexec, execVoice_complete hf hv hft _ _ hthere,
    sfMetadata_congr hft (fun n hn => hbyte hn.2), hcodeword, BitVec.ofNat_toNat, BitVec.setWidth_eq]

end

/-- Settles O29: the operand, then what decoding the bytes at the cursor answers, in the order of R141. -/
theorem dfsiDecOutcomes : Obligations.DfsiDecOutcomes := by
  intro op s
  refine ⟨rfl, fun hf => MalformedWords.exec_latched (by simp) hf, fun hf hop => ?_, fun hf hop => ?_⟩
  · have hbad : operandNone op = false := Bool.eq_false_iff.mpr (mt (operandNone_iff op).mp hop)
    exact MalformedWords.exec_malformed (i := .dfsiDec op) hbad hf
  · subst hop
    exact ⟨dfsiDec_noInput hf, fun hv hend => dfsiDec_nothingLeft hf hv hend,
      fun hv hlt hft => MalformedWords.dfsiDec_invalid hft hf hv hlt rfl,
      fun hv hlt hft hshort => dfsiDec_short hf hv hlt hft hshort,
      fun hv hft hthere => ⟨_, laid_memWrite _ _ _, dfsiDec_complete hf hv hft hthere⟩⟩

/-! ### The formats (R122 to R139) -/

/-- Settles O31: each format's encoding is its frame, and its meaning is `execVoice` of its type and registers. -/
theorem ldu1SubFrames : Obligations.Ldu1SubFrames := by
  intro s x y z d c hc
  refine ⟨?_, ?_, ?_, ?_, ?_, ?_, ?_, ?_, ?_⟩ <;>
    exact actsAsSubFrame rfl rfl ⟨by decide, by decide⟩ rfl rfl (by simp [hc])

/-- Settles O32, as O31. -/
theorem ldu2SubFrames : Obligations.Ldu2SubFrames := by
  intro s x y z key c hc
  refine ⟨?_, ?_, ?_, ?_, ?_, ?_, ?_, ?_, ?_⟩ <;>
    exact actsAsSubFrame rfl rfl ⟨by decide, by decide⟩ rfl rfl (by simp [hc])

/-! ### The round trip (R143 a) -/

/-- The three bytes of a 24-bit field that stands in a 32-bit register. -/
theorem append_bytes_of_register (v : BitVec 32) :
    v.extractLsb' 16 8 ++ v.extractLsb' 8 8 ++ v.extractLsb' 0 8 = v.extractLsb' 0 24 := by
  have h := bytes24_append (v.setWidth 24)
  rwa [id24 v _ (by decide), id24 v _ (by decide), id24 v _ (by decide),
    BitVec.setWidth_eq_extractLsb' (by decide)] at h

section
variable {ft : Nat} (hft : isFrameType ft)
include hft

/-- What decoding reads from the bytes that encoding lays out is what the type carries. -/
theorem sfMetadata_sfBytes (src cd : CallData) (c : List Byte) :
    sfMetadata ft (byteAt (sfBytes ft src c)) cd = sfCarries ft src cd := by
  have hkey := bytes16_append src.keyId
  have hdst := append_bytes_of_register src.dstId
  have hsrc := append_bytes_of_register src.srcId
  obtain ⟨h1, h2⟩ := hft
  interval_cases ft <;> simp [sfMetadata, sfCarries, sfBytes, byteAt, hkey, hdst, hsrc]

theorem codewordOf_sfBytes (cd : CallData) {c : List Byte} (hc : c.length = 11) :
    codewordOf ft (sfBytes ft cd c) = c := by
  obtain ⟨a0, a1, a2, a3, a4, a5, a6, a7, a8, a9, a10, rfl⟩ := codeword_bytes c hc
  obtain ⟨h1, h2⟩ := hft
  interval_cases ft <;> rfl

theorem head_sfBytes (cd : CallData) (c : List Byte) : byteAt (sfBytes ft cd c) 0 = BitVec.ofNat 8 ft := by
  obtain ⟨h1, h2⟩ := hft
  interval_cases ft <;> rfl

end

/-- DFSI.DEC at the bytes that DFSI.ENC writes for `ft` in the state `s`. -/
theorem dfsiDec_encodedBytes {ft : Byte} {s u : State} (hft : isFrameType ft.toNat) (hf : u.fault = 0)
    (hv : u.ibValid = 1) (hthere : u.ibPtr.toNat + sfLength ft.toNat ≤ u.ibLen.toNat)
    (hbytes : ∀ n, n < sfLength ft.toNat → inputByte u n = byteAt (encodedBytes ft s) n) :
    exec (.dfsiDec 0) u = .next (consumed (sfLength ft.toNat) u
      { u with
        cd := sfCarries ft.toNat s.cd u.cd, imbe := memWrite u.imbe 0 (memRead s.imbe 0 11), ftLast := ft }) := by
  have hhead : inputByte u 0 = ft := by
    rw [hbytes 0 (sfLength_pos _), encodedBytes, head_sfBytes hft, BitVec.ofNat_toNat, BitVec.setWidth_eq]
  have hmetadata : sfMetadata ft.toNat (inputByte u) u.cd = sfCarries ft.toNat s.cd u.cd := by
    rw [sfMetadata_congr hft (fun n hn => hbytes n hn.2), encodedBytes, sfMetadata_sfBytes hft]
  have hcodeword : inputBytes u (sfCodeword ft.toNat) 11 = memRead s.imbe 0 11 := by
    have hroom := sfCodeword_le _ hft
    rw [← codewordOf_sfBytes hft s.cd (length_memRead s.imbe 0 11),
      codewordOf_eq_map hft (length_sfBytes _ hft _ _ (length_memRead _ _ _)).ge]
    exact List.map_congr_left (fun k hk => hbytes _ (by have := List.mem_range.mp hk; omega))
  have hdec := dfsiDec_complete hf hv (by rwa [hhead]) (by rwa [hhead])
  rwa [hhead, hmetadata, hcodeword] at hdec

/-- Settles O33: DFSI.ENC lays the type's bytes at the write cursor, and DFSI.DEC reads them where they are carried. -/
theorem dfsiRoundTrip : Obligations.DfsiRoundTrip := by
  intro ft s hft hf hv hroom
  have hlen := length_encodedBytes hft s
  obtain ⟨-, -, happends⟩ := dfsiEnc_encodesFixed (s := s) hft hf
  obtain ⟨ob', hlaid, henc⟩ := happends hv (by rwa [hlen])
  refine ⟨_, henc, fun u ⟨huf, huv, hulen, hubytes⟩ => ?_⟩
  have hresult : (BitVec.ofNat 16 (encodedBytes ft s).length).toNat = sfLength ft.toNat := by
    have hle := Invariance.sfLength_le ft.toNat
    rw [BitVec.toNat_ofNat, hlen]; omega
  have hbytes (n : Nat) (hn : n < sfLength ft.toNat) : inputByte u n = byteAt (encodedBytes ft s) n := by
    have hread : inputByte u n = Memory.read ob' (s.obPtr.toNat + n) := hubytes n (by rwa [hresult])
    rw [hread, hlaid, if_pos (by omega), Nat.add_sub_cancel_left]; rfl
  refine ⟨_, fun x => ?_, dfsiDec_encodedBytes hft huf huv (hresult ▸ hulen) hbytes⟩
  rw [read_memWrite, length_memRead, getD_memRead]
  by_cases hx : x < 11 <;> simp [hx]

/-! ### Frames byte by byte (R120, R121) -/

theorem getD_zeros (k n : Nat) : (zeros k).getD n 0 = 0 := by
  rw [zeros, List.getD_eq_getElem?_getD, List.getElem?_replicate]
  split <;> rfl

/-- Zeros after a byte string do not show: beyond its end it reads 0 as well. -/
theorem getD_append_zeros (l : List Byte) (k n : Nat) : (l ++ zeros k).getD n 0 = l.getD n 0 := by
  by_cases h : n < l.length
  · exact List.getD_append _ _ _ _ h
  · rw [List.getD_append_right _ _ _ _ (Nat.not_lt.mp h), getD_zeros, List.getD_eq_default _ _ (Nat.not_lt.mp h)]

/-- A frame's bytes: the discriminant, the metadata up to the codeword, the codeword; what is beyond either reads 0. -/
theorem getD_frame {ft : Nat} {md : List Byte} (hft : isFrameType ft) (hm : md.length + 1 ≤ sfCodeword ft)
    (c : List Byte) (n : Nat) :
    (frame ft md c).getD n 0 =
      if n = 0 then BitVec.ofNat 8 ft
      else if n < sfCodeword ft then md.getD (n - 1) 0
      else c.getD (n - sfCodeword ft) 0 := by
  cases n with
  | zero => rfl
  | succ n =>
    have hpre : (md ++ zeros (sfCodeword ft - 1 - md.length)).length = sfCodeword ft - 1 := by
      simp only [zeros, List.length_append, List.length_replicate]; omega
    rw [if_neg (Nat.succ_ne_zero n), frame, sfImbe_eq ft hft, List.getD_cons_succ, getD_append_zeros]
    by_cases h : n + 1 < sfCodeword ft
    · rw [if_pos h, List.getD_append _ _ _ _ (by omega), getD_append_zeros, Nat.add_sub_cancel]
    · rw [if_neg h, List.getD_append_right _ _ _ _ (by omega), hpre]
      congr 1
      omega

/-! ### Unnamed bytes (R121) -/

/-- The bytes of `f` between the discriminant and the codeword of type `ft`, the unnamed ones 0. -/
def clearedMetadata (ft : Nat) (f : List Byte) : List Byte :=
  (List.range (sfCodeword ft - 1)).map (fun n => if n + 1 ∈ unnamed ft then 0 else f.getD (n + 1) 0)

theorem length_clearedMetadata (ft : Nat) (f : List Byte) : (clearedMetadata ft f).length = sfCodeword ft - 1 := by
  rw [clearedMetadata, List.length_map, List.length_range]

theorem getD_clearedMetadata {ft n : Nat} (f : List Byte) (hn : n + 1 < sfCodeword ft) :
    (clearedMetadata ft f).getD n 0 = if n + 1 ∈ unnamed ft then 0 else f.getD (n + 1) 0 := by
  rw [List.getD_eq_getElem _ _ (by rw [length_clearedMetadata]; omega)]
  simp only [clearedMetadata, List.getElem_map, List.getElem_range]

theorem clearedMetadata_congr {ft : Nat} {f g : List Byte} (h : ∀ n, n ∉ unnamed ft → f.getD n 0 = g.getD n 0) :
    clearedMetadata ft f = clearedMetadata ft g := by
  refine List.map_congr_left (fun n _ => ?_)
  split
  · rfl
  · next hn => exact h _ hn

section
variable {ft : Nat} (hft : isFrameType ft)
include hft

theorem sfCodeword_pos : 0 < sfCodeword ft := by
  obtain ⟨h1, h2⟩ := hft
  interval_cases ft <;> decide

theorem zero_not_mem_unnamed : 0 ∉ unnamed ft := by
  obtain ⟨h1, h2⟩ := hft
  interval_cases ft <;> decide

theorem codeword_not_mem_unnamed : ∀ k < 11, sfCodeword ft + k ∉ unnamed ft := by
  obtain ⟨h1, h2⟩ := hft
  interval_cases ft <;> decide

theorem trailing_mem_unnamed : ∀ n < sfLength ft, sfCodeword ft + 11 ≤ n → n ∈ unnamed ft := by
  obtain ⟨h1, h2⟩ := hft
  interval_cases ft <;> decide

/-- A format decoded from `f` encodes to the frame of `f`'s metadata, unnamed bytes cleared, and `f`'s codeword. -/
theorem encode_of_voiceOfBytes {f : List Byte} {v : Instr} (h : voiceOfBytes ft f = some v) :
    encode v = .subFrame (frame ft (clearedMetadata ft f) (codewordOf ft f))
      ∧ v.codeword? = some (codewordOf ft f) := by
  obtain ⟨h1, h2⟩ := hft
  interval_cases ft <;> cases h <;> refine ⟨?_, rfl⟩ <;>
    simp only [encode, be24, be16, bytes24_of_append, bytes16_of_append] <;> rfl

theorem wellFormed_of_voiceOfBytes {f : List Byte} {v : Instr} (h : voiceOfBytes ft f = some v)
    (hl : sfLength ft ≤ f.length) : v.wellFormed = true := by
  obtain ⟨-, hcodeword⟩ := encode_of_voiceOfBytes hft h
  rw [Instr.wellFormed, hcodeword]
  exact beq_iff_eq.mpr (length_codewordOf hft hl)

section
variable {f g : List Byte} (h : ∀ n, n ∉ unnamed ft → f.getD n 0 = g.getD n 0)
include h

theorem codewordOf_congr (hf : sfLength ft ≤ f.length) (hg : sfLength ft ≤ g.length) :
    codewordOf ft f = codewordOf ft g := by
  rw [codewordOf_eq_map hft hf, codewordOf_eq_map hft hg]
  exact List.map_congr_left (fun k hk => h _ (codeword_not_mem_unnamed hft k (List.mem_range.mp hk)))

/-- A format reads no unnamed byte: what two such byte strings hold encodes alike, and an encoding decodes to one format. -/
theorem voiceOfBytes_congr (hf : sfLength ft ≤ f.length) (hg : sfLength ft ≤ g.length) {v w : Instr}
    (hv : voiceOfBytes ft f = some v) (hw : voiceOfBytes ft g = some w) : v = w := by
  obtain ⟨hev, -⟩ := encode_of_voiceOfBytes hft hv
  obtain ⟨hew, -⟩ := encode_of_voiceOfBytes hft hw
  rw [← clearedMetadata_congr h, ← codewordOf_congr hft h hf hg] at hew
  have hdv := RoundTrip.decodeSubFrame_of_encode hev (wellFormed_of_voiceOfBytes hft hv hf)
  have hdw := RoundTrip.decodeSubFrame_of_encode hew (wellFormed_of_voiceOfBytes hft hw hg)
  exact Except.ok.inj (hdv.symm.trans hdw)

end

end

/-- Settles O4: byte by byte, what is encoded again is a frame of the metadata and the codeword that were read. -/
theorem decodeThenEncodeClearsUnnamedBytes : Obligations.DecodeThenEncodeClearsUnnamedBytes := by
  intro f v hd
  obtain ⟨hft, hl, hv⟩ := decodeSubFrame_ok hd
  obtain ⟨henc, -⟩ := encode_of_voiceOfBytes hft hv
  have hm : (clearedMetadata (f.getD 0 0).toNat f).length + 1 ≤ sfCodeword (f.getD 0 0).toNat := by
    have hpos := sfCodeword_pos hft
    rw [length_clearedMetadata]; omega
  have hc := length_codewordOf hft hl
  have hlen := RoundTrip.length_frame hft hc hm
  refine ⟨_, henc, hlen, wellFormed_of_voiceOfBytes hft hv hl, fun n hn => ?_⟩
  rw [getD_frame hft hm]
  split
  · next h0 => rw [h0, if_neg (zero_not_mem_unnamed hft), BitVec.ofNat_toNat, BitVec.setWidth_eq]
  · next h0 =>
    obtain ⟨m, rfl⟩ := Nat.exists_eq_succ_of_ne_zero h0
    split
    · next hlt => exact getD_clearedMetadata f hlt
    · next hge =>
      obtain ⟨k, hk⟩ := Nat.exists_eq_add_of_le (Nat.not_lt.mp hge)
      rw [hk, Nat.add_sub_cancel_left]
      by_cases hin : k < 11
      · rw [if_neg (codeword_not_mem_unnamed hft k hin), getD_codewordOf hft hl hin]
      · rw [if_pos (trailing_mem_unnamed hft _ (by omega) (by omega)), List.getD_eq_default _ _ (by omega)]

/-- Settles O3: an encoding decodes, so O4 shows its unnamed bytes; and decoding reads none. -/
theorem unnamedBytesAreZeroAndIgnored : Obligations.UnnamedBytesAreZeroAndIgnored := by
  refine ⟨fun v f hwf henc => ?_, fun f g hft hl hlen hagree => ?_⟩
  · have hd := RoundTrip.decodeSubFrame_of_encode henc hwf
    obtain ⟨hft, -, -⟩ := decodeSubFrame_ok hd
    obtain ⟨g, heg, hlen, -, hbytes⟩ := decodeThenEncodeClearsUnnamedBytes f v hd
    obtain rfl : f = g := Encoding.subFrame.inj (henc.symm.trans heg)
    refine ⟨hlen, hft, fun n hn => ?_⟩
    by_cases hlt : n < f.length
    · rw [hbytes n hlt, if_pos hn]
    · exact List.getD_eq_default _ _ (Nat.not_lt.mp hlt)
  · have hhead := hagree 0 (zero_not_mem_unnamed hft)
    obtain ⟨v, hdf, hv⟩ := decodeSubFrame_valid hft hl
    obtain ⟨w, hdg, hw⟩ := decodeSubFrame_valid (f := g) (by rwa [← hhead]) (by rwa [← hhead, ← hlen])
    rw [← hhead] at hw
    rw [hdf, hdg, voiceOfBytes_congr hft hagree hl (hlen ▸ hl) hv hw]

end Sys2Proof.SubFrames
end

section
/-! SUPPORT. O34 to O43: LDU records (42_ldu.md). The outcomes of the seven commands come from the laws of the common checks,
the record at the cursor and the memories. The laws of R160 put outcomes together: a chunk of the record has its place in
the buffer (`read_chunk`), and the composed record is nine sub-frames with sub-frame i at the offset of chunk i
(`composedBytes_split`). O40 follows the sequence by hand sub-frame by sub-frame (`HandComposed`). -/

namespace Sys2Proof.LduRecords

open Sys2Proof.Machine Sys2Proof.Claims

/-! ### Bytes laid in a memory -/

/-- What the rule of an accepted command says, when the latch is clear and the operand fits. -/
theorem body_of_guarded {i : Instr} {word : BitVec 16} {ok : Prop} {s : State} {body : Prop}
    (h : Guarded i word ok s body) (hf : s.fault = 0) (hop : ok) : body := by
  obtain ⟨-, -, -, hbody⟩ := h
  exact hbody hf hop

theorem laid_write (m : Memory) (a : Nat) (b : Byte) : Laid m a [b] (Memory.write m a b) := laid_memWrite m a [b]

/-- Two runs laid one after the other are one run. -/
theorem laid_append {m m' m'' : Memory} {a : Nat} {u v : List Byte} (hu : Laid m a u m')
    (hv : Laid m' (a + u.length) v m'') : Laid m a (u ++ v) m'' := by
  intro x
  rw [hv, hu, List.length_append]
  by_cases h1 : a + u.length ≤ x
  · by_cases h2 : x < a + u.length + v.length
    · rw [if_pos ⟨h1, h2⟩, if_pos (by omega), List.getD_append_right _ _ _ _ (by omega)]
      congr 1
      omega
    · rw [if_neg (by omega), if_neg (by omega), if_neg (by omega)]
  · rw [if_neg (by omega)]
    by_cases h2 : a ≤ x
    · rw [if_pos (by omega), if_pos (by omega), List.getD_append _ _ _ _ (by omega)]
    · rw [if_neg (by omega), if_neg (by omega)]

/-- A byte laid in front of a run that is there already. -/
theorem laid_cons {m m' m'' : Memory} {a : Nat} {b : Byte} {v : List Byte} (hv : Laid m (a + 1) v m')
    (hb : Laid m' a [b] m'') : Laid m a (b :: v) m'' := by
  intro x
  rw [hb, hv, List.length_singleton, List.length_cons]
  by_cases hx : x = a
  · subst hx
    rw [if_pos (by omega), if_pos (by omega), Nat.sub_self]; rfl
  · rw [if_neg (by omega)]
    by_cases hin : a + 1 ≤ x ∧ x < a + 1 + v.length
    · rw [if_pos hin, if_pos (by omega), show x - a = x - (a + 1) + 1 by omega, List.getD_cons_succ]
    · rw [if_neg hin, if_neg (by omega)]

theorem read_eq_of_laid {m m₁ m₂ : Memory} {a : Nat} {v : List Byte} (h₁ : Laid m a v m₁) (h₂ : Laid m a v m₂) (x : Nat) :
    Memory.read m₁ x = Memory.read m₂ x := (h₁ x).trans (h₂ x).symm

theorem read_of_laid {m m' : Memory} {a n : Nat} {v : List Byte} (h : Laid m a v m') (hn : n < v.length) :
    Memory.read m' (a + n) = v.getD n 0 := by
  rw [h, if_pos (by omega), Nat.add_sub_cancel_left]

theorem memRead_of_laid {m m' : Memory} {a : Nat} {v : List Byte} (h : Laid m a v m') : memRead m' a v.length = v := by
  refine List.ext_getElem (length_memRead _ _ _) (fun n hn hn' => ?_)
  rw [getElem_memRead, read_of_laid h hn', List.getD_eq_getElem _ _ hn']

/-! ### LDU.CHECK and LDU.REASM (R153, R154) -/

/-- Settles O34: the common checks, the record at the cursor, then the nine markers. -/
theorem lduCheckOutcomes : Obligations.LduCheckOutcomes := by
  intro k j i s
  refine guarded rfl rfl (operandSelK_iff k j i) (fun _ ⟨hk, _, _⟩ h => withRecord h (fun h => ?_))
  refine ⟨fun hbad => ?_, fun hgood => ?_⟩
  · rw [h, if_neg (mt (valid_iff hk s).mp hbad)]; rfl
  · rw [h, if_pos ((valid_iff hk s).mpr hgood)]; rfl

/-- Settles O35: as O34, and a record with the nine markers is laid into LDU(k). -/
theorem lduReasmOutcomes : Obligations.LduReasmOutcomes := by
  intro k j i s
  refine guarded rfl rfl (operandSelK_iff k j i) (fun _ ⟨hk, _, _⟩ h => withRecord h (fun h => ?_))
  refine ⟨fun hbad => ?_, fun hgood => ?_⟩
  · rw [h, if_neg (mt (valid_iff hk s).mp hbad)]; rfl
  · refine ⟨_, reassembled s _, ?_⟩
    rw [h, if_pos ((valid_iff hk s).mpr hgood)]
    rcases hk with rfl | rfl <;> rfl

/-! ### LDU.GETIMBE and LDU.TOVB (R155, R159) -/

/-- Settles O36: the codeword of the sub-frame goes to the beginning of IMBE. -/
theorem lduGetImbeOutcomes : Obligations.LduGetImbeOutcomes := fun k j i _ =>
  guarded rfl rfl (operandSelKI_iff k j i) (fun _ _ h => ⟨_, laid_memWrite _ _ _, h⟩)

theorem doff_eq {i : Nat} (hi : i < 9) : Config.doff i = 25 * i := by interval_cases i <;> rfl

/-- Settles O37: the slot of R159, its discriminant read where the chunk begins. -/
theorem lduToVbOutcomes : Obligations.LduToVbOutcomes := by
  intro k j i s
  refine guarded rfl rfl (operandSelKJI_iff k j i) (fun _ ⟨_, _, hi⟩ h => ⟨_, laid_memWrite _ _ _, ?_⟩)
  rw [h, VoiceSlot.fromLdu, doff_eq (by omega)]
  rfl

/-! ### LDU.BEGIN and LDU.END (R156, R157) -/

/-- The low eight bits of a write cursor are its length byte. -/
theorem lowByte_eq (p : BitVec 9) : p.extractLsb' 0 8 = BitVec.ofNat 8 p.toNat := by
  apply BitVec.eq_of_toNat_eq
  simp

/-- Settles O38: LDU.BEGIN sets the cursor; LDU.END tests the target, the count and the capacity in this order. -/
theorem lduBeginAndEndOutcomes : Obligations.LduBeginAndEndOutcomes := by
  intro op s
  refine ⟨guarded rfl rfl (operandNone_iff op) (fun _ _ h => h), ?_⟩
  refine guarded rfl rfl (operandNone_iff op) (fun _ hop h => ?_)
  subst hop
  refine ⟨fun hv => ?_, fun hv hover => ?_, fun hv hle hcap => ?_, fun hv hle hcap => ⟨_, laid_write _ _ _, ?_⟩⟩
  · rw [Faults, h, if_pos hv]; rfl
  · rw [Faults, h, if_neg (ne_zero_of_one hv), if_pos hover]; rfl
  · rw [EndsWith, h, if_neg (ne_zero_of_one hv), if_neg (Nat.not_lt.mpr hle), if_pos hcap]; rfl
  · rw [h, if_neg (ne_zero_of_one hv), if_neg (Nat.not_lt.mpr hle), if_neg (Nat.not_le.mpr hcap), lowByte_eq,
      ← BitVec.ofNat_toNat]; rfl

/-! ### LDU.COMPOSE (R158) -/

/-- Settles O39: the total is 178 for both logical units, so no count overflows; the length byte is laid last. -/
theorem lduComposeOutcomes : Obligations.LduComposeOutcomes := by
  intro k j i s
  refine guarded rfl rfl (operandSelK_iff k j i) (fun _ ⟨hk, _, _⟩ h => ?_)
  rw [Invariance.composedLength_eq hk, composedFrames_eq hk] at h
  refine ⟨fun hv => ?_, fun hv hcap => ?_, fun hv hcap => ⟨length_composed hk s, ?_⟩⟩
  · rw [Faults, h, if_pos hv]; rfl
  · rw [EndsWith, h, if_neg (ne_zero_of_one hv), if_neg (by decide), if_pos hcap]; rfl
  · refine ⟨_, laid_cons (laid_memWrite s.ob 24 _) (laid_write _ 23 178), ?_⟩
    rw [h, if_neg (ne_zero_of_one hv), if_neg (by decide), if_neg (Nat.not_lt.mpr hcap)]; rfl

/-! ### Validation and reassembly agree (R160 b, c) -/

/-- Settles O41: both fetch the record and test its markers alike; LDU.REASM alone then writes the buffer. -/
theorem checkAcceptsExactlyWhatReassemblyAccepts : Obligations.CheckAcceptsExactlyWhatReassemblyAccepts := by
  intro k s hf hk
  obtain ⟨hcNull, hcShort, hcThere⟩ := body_of_guarded (lduCheckOutcomes k 0 0 s) hf ⟨hk, rfl, rfl⟩
  obtain ⟨hrNull, hrShort, hrThere⟩ := body_of_guarded (lduReasmOutcomes k 0 0 s) hf ⟨hk, rfl, rfl⟩
  rcases bit_cases s.ibValid with hv | hv
  · exact ⟨_, _, hcNull hv, hrNull hv, rfl, rfl, fun _ => rfl, rfl⟩
  · by_cases hlen : s.ibPtr.toNat + 154 ≤ s.ibLen.toNat
    · obtain ⟨hcBad, hcGood⟩ := hcThere hv hlen
      obtain ⟨hrBad, hrGood⟩ := hrThere hv hlen
      by_cases hvalid : validAtCursor k s
      · obtain ⟨m', -, hr⟩ := hrGood hvalid
        refine ⟨_, _, hcGood hvalid, hr, ?_⟩
        rcases hk with rfl | rfl <;> exact ⟨rfl, rfl, fun hne => absurd rfl hne, rfl⟩
      · exact ⟨_, _, hcBad hvalid, hrBad hvalid, rfl, rfl, fun _ => rfl, rfl⟩
    · have hshort : s.ibPtr.toNat + 154 > s.ibLen.toNat := Nat.not_le.mp hlen
      exact ⟨_, _, hcShort hv hshort, hrShort hv hshort, rfl, rfl, fun _ => rfl, rfl⟩

/-! ### What stands in the buffer after reassembly (R160 a) -/

/-- Chunk i begins at 25 i in the buffer, and its bytes there are those of the record. -/
theorem read_chunk {s : State} {m m' : Memory} (h : Reassembled s m m') {i t : Nat} (hi : i < 9)
    (ht : t < chunkLength i) : Memory.read m' (25 * i + t) = inputByte s (recordOffset i + t) := by
  have hplace : chunkLength i ≤ 25 ∧ 25 * i + chunkLength i ≤ 216 := by interval_cases i <;> decide
  have hdiv : (25 * i + t) / 25 = i := by omega
  have hmod : (25 * i + t) % 25 = t := by omega
  rw [h, hdiv, hmod, if_pos ⟨by omega, ht⟩]

/-- A chunk's codeword has the same place in the chunk's slot of the buffer as in the record's chunk (R68, R69). -/
theorem codeword_in_chunk {i : Nat} (hi : i < 9) :
    ∃ c, bufferCodeword i = 25 * i + c ∧ recordCodeword i = recordOffset i + c ∧ c + 11 ≤ chunkLength i := by
  refine ⟨recordCodeword i - recordOffset i, ?_⟩
  interval_cases i <;> decide

theorem memRead_codeword {s : State} {m m' : Memory} (h : Reassembled s m m') {i : Nat} (hi : i < 9) :
    memRead m' (bufferCodeword i) 11 = inputBytes s (recordCodeword i) 11 := by
  obtain ⟨c, hbuffer, hrecord, hroom⟩ := codeword_in_chunk hi
  refine List.map_congr_left (fun t ht => ?_)
  have ht : t < 11 := List.mem_range.mp ht
  rw [hbuffer, hrecord, Nat.add_assoc, Nat.add_assoc, read_chunk h hi (by omega)]

theorem read_discriminant {s : State} {m m' : Memory} (h : Reassembled s m m') {i : Nat} (hi : i < 9) :
    Memory.read m' (25 * i) = inputByte s (recordOffset i) :=
  read_chunk h (t := 0) hi (by interval_cases i <;> decide)

/-- Settles O42: the codeword and the discriminant of chunk i, read back from the buffer that LDU.REASM leaves. -/
theorem reassembledCodewordsAreTheRecords : Obligations.ReassembledCodewordsAreTheRecords := by
  intro k i s hk hi hf hv hthere hvalid
  have hi9 : i.toNat < 9 := by omega
  obtain ⟨-, -, hrecord⟩ := body_of_guarded (lduReasmOutcomes k 0 0 s) hf ⟨hk, rfl, rfl⟩
  obtain ⟨-, hcopy⟩ := hrecord hv hthere
  obtain ⟨m', hm', hreasm⟩ := hcopy hvalid
  obtain ⟨t, ht, htf, hbuffer⟩ : ∃ t, exec (.lduReasm k 0 0) s = .next t ∧ t.fault = 0 ∧ lduBuffer t k = m' := by
    rcases hk with rfl | rfl <;> exact ⟨_, hreasm, hf, rfl⟩
  obtain ⟨imbe', himbe, hget⟩ := body_of_guarded (lduGetImbeOutcomes k 0 i t) htf ⟨hk, rfl, hi⟩
  refine ⟨t, _, ht, hget, ?_, ?_⟩
  · have hread := memRead_of_laid himbe
    rwa [length_memRead, hbuffer, memRead_codeword hm' hi9] at hread
  · rw [hbuffer, read_discriminant hm' hi9, hvalid _ hi9]

/-! ### The composed record, sub-frame by sub-frame (R151, R158) -/

/-- Sub-frame `n` of logical unit k, as LDU.COMPOSE and the sequence by hand build it. -/
def composedSubFrame (k : BitVec 2) (s : State) (n : Nat) : List Byte :=
  sfBytes (frameTypeAt k n) s.cd (memRead (lduBuffer s k) (bufferCodeword n) 11)

/-- The first `n` sub-frames of logical unit k. -/
def composedPrefix (k : BitVec 2) (s : State) (n : Nat) : List Byte := (List.range n).flatMap (composedSubFrame k s)

theorem composedPrefix_nine (k : BitVec 2) (s : State) : composedPrefix k s 9 = composedBytes k s := rfl

theorem composedPrefix_succ (k : BitVec 2) (s : State) (n : Nat) :
    composedPrefix k s (n + 1) = composedPrefix k s n ++ composedSubFrame k s n := by
  simp [composedPrefix, List.range_succ]

/-- A sub-frame of either logical unit is as long as the chunk of its place (R68, R87). -/
theorem sfLength_frameTypeAt (k : BitVec 2) {n : Nat} (hn : n < 9) : sfLength (frameTypeAt k n) = chunkLength n := by
  unfold frameTypeAt
  split <;> interval_cases n <;> rfl

theorem length_composedSubFrame (k : BitVec 2) (s : State) {n : Nat} (hn : n < 9) :
    (composedSubFrame k s n).length = chunkLength n := by
  rw [composedSubFrame, length_sfBytes _ (isFrameType_at k hn) _ _ (length_memRead _ _ _), sfLength_frameTypeAt k hn]

/-- Each chunk of a record begins where the chunk before it ends (R68). -/
theorem recordOffset_succ {n : Nat} (hn : n < 8) : recordOffset (n + 1) = recordOffset n + chunkLength n := by
  interval_cases n <;> rfl

theorem recordOffset_add_chunkLength_le {n : Nat} (hn : n < 9) : recordOffset n + chunkLength n ≤ 154 := by
  interval_cases n <;> decide

theorem length_composedPrefix (k : BitVec 2) (s : State) {n : Nat} (hn : n < 9) :
    (composedPrefix k s n).length = recordOffset n := by
  induction n with
  | zero => rfl
  | succ n ih =>
    rw [composedPrefix_succ, List.length_append, ih (by omega), length_composedSubFrame k s (by omega),
      recordOffset_succ (by omega)]

/-- Sub-frame `n` of the composed record, with what stands before and after it. -/
theorem composedBytes_split (k : BitVec 2) (s : State) {n : Nat} (hn : n < 9) :
    ∃ rest, composedBytes k s = composedPrefix k s n ++ (composedSubFrame k s n ++ rest) := by
  obtain ⟨r, hr⟩ : ∃ r, n + 1 + r = 9 := ⟨8 - n, by omega⟩
  refine ⟨((List.range r).map (n + 1 + ·)).flatMap (composedSubFrame k s), ?_⟩
  rw [← List.append_assoc, ← composedPrefix_succ, ← composedPrefix_nine, ← hr, composedPrefix, composedPrefix,
    List.range_add, List.flatMap_append]

/-- The composed record has the markers of its logical unit: sub-frame `n` begins with its discriminant. -/
theorem composedBytes_marker (k : BitVec 2) (s : State) {n : Nat} (hn : n < 9) :
    (composedBytes k s).getD (recordOffset n) 0 = BitVec.ofNat 8 (frameTypeAt k n) := by
  have hpos : 0 < (composedSubFrame k s n).length := by
    rw [length_composedSubFrame k s hn]
    interval_cases n <;> decide
  obtain ⟨rest, hsplit⟩ := composedBytes_split k s hn
  rw [hsplit, List.getD_append_right _ _ _ _ (length_composedPrefix k s hn).le, length_composedPrefix k s hn,
    Nat.sub_self, List.getD_append _ _ _ _ hpos]
  exact SubFrames.head_sfBytes (isFrameType_at k hn) _ _

/-! ### A composed record passes validation (R160 d) -/

/-- Settles O43: the bytes carried are the composed ones, and these have the nine markers. -/
theorem composedRecordsAreAccepted : Obligations.ComposedRecordsAreAccepted := by
  intro k s hk hf hv hcap
  obtain ⟨-, -, hroom⟩ := body_of_guarded (lduComposeOutcomes k 0 0 s) hf ⟨hk, rfl, rfl⟩
  obtain ⟨hlen, ob', hlaid, hexec⟩ := hroom hv hcap
  refine ⟨_, hexec, fun u huf huv hulen hcarried => ?_⟩
  have hvalid : validAtCursor k u := fun i hi => by
    have hlt : recordOffset i < 154 := by interval_cases i <;> decide
    have hread : Memory.read ob' (23 + (recordOffset i + 1)) = (composedBytes k s).getD (recordOffset i) 0 :=
      read_of_laid hlaid (by rw [List.length_cons]; omega)
    rw [hcarried _ hlt, show 24 + recordOffset i = 23 + (recordOffset i + 1) by omega]
    exact hread.trans (composedBytes_marker k s hi)
  obtain ⟨-, -, hrecord⟩ := body_of_guarded (lduCheckOutcomes k 0 0 u) huf ⟨hk, rfl, rfl⟩
  obtain ⟨-, haccept⟩ := hrecord huv hulen
  exact haccept hvalid

/-! ### The sequence by hand (R158) -/

theorem runAll_cons {i : Instr} {s t : State} (h : exec i s = .next t) (is : List Instr) :
    runAll (i :: is) s = runAll is t := by
  rw [runAll, h]

/-- What the sequence by hand does for one sub-frame. -/
def handStep (k : BitVec 2) (n : Nat) : List Instr :=
  [.lduGetImbe k 0 (BitVec.ofNat 4 n), .dfsiEnc (BitVec.ofNat 8 (frameTypeAt k n))]

/-- The sequence by hand up to sub-frame `n`. -/
def handPrefix (k : BitVec 2) (n : Nat) : List Instr := .lduBegin 0 :: (List.range n).flatMap (handStep k)

theorem composedByHand_eq (k : BitVec 2) : composedByHand k = handPrefix k 9 ++ [Instr.lduEnd 0] := rfl

theorem handPrefix_succ (k : BitVec 2) (n : Nat) : handPrefix k (n + 1) = handPrefix k n ++ handStep k n := by
  simp [handPrefix, List.range_succ]

/-- LDU.GETIMBE fetches the codeword that DFSI.ENC then appends in its sub-frame. -/
theorem runAll_handStep {k : BitVec 2} (hk : k = 1 ∨ k = 2) {n : Nat} (hn : n < 9) {u : State} (hf : u.fault = 0)
    (hv : u.obValid = 1) (hroom : u.obPtr.toNat + chunkLength n ≤ u.obCap.toNat) :
    ∃ ob' imbe', Laid u.ob u.obPtr.toNat (composedSubFrame k u n) ob' ∧
      runAll (handStep k n) u = .next { u with
        ob := ob', imbe := imbe', obPtr := BitVec.ofNat 9 (u.obPtr.toNat + chunkLength n)
        result := BitVec.ofNat 16 (chunkLength n), code := 0x00#8 } := by
  have hft := isFrameType_at k hn
  have hftNat : (BitVec.ofNat 8 (frameTypeAt k n)).toNat = frameTypeAt k n := by
    obtain ⟨-, hle⟩ := hft
    rw [BitVec.toNat_ofNat]; omega
  have hnNat : (BitVec.ofNat 4 n).toNat = n := by rw [BitVec.toNat_ofNat]; omega
  obtain ⟨imbe', himbe, hget⟩ :=
    body_of_guarded (lduGetImbeOutcomes k 0 (BitVec.ofNat 4 n) u) hf ⟨hk, rfl, by omega⟩
  have hcodeword : memRead imbe' 0 11 = memRead (lduBuffer u k) (bufferCodeword n) 11 := by
    have hread := memRead_of_laid himbe
    rwa [length_memRead, hnNat] at hread
  obtain ⟨-, -, -, henc⟩ := body_of_guarded
    (SubFrames.dfsiEncOutcomes (BitVec.ofNat 8 (frameTypeAt k n)) { u with imbe := imbe', code := 0x00#8 }) hf trivial
  rw [hftNat, sfLength_frameTypeAt k hn] at henc
  obtain ⟨hlen, ob', hlaid, hexec⟩ := henc hv hft hroom
  rw [hlen] at hexec
  rw [hcodeword] at hlaid
  exact ⟨ob', imbe', hlaid, by rw [handStep, runAll_cons hget, runAll_cons hexec, runAll]⟩

/-- State `u` is `s` after the sequence by hand has composed the first `n` sub-frames: they stand at OB[24..], the write
cursor is past them, and but for IMBE, RESULT and the status nothing else has changed. -/
def HandComposed (k : BitVec 2) (n : Nat) (s u : State) : Prop :=
  Laid s.ob 24 (composedPrefix k s n) u.ob
  ∧ u.obPtr.toNat = 24 + (composedPrefix k s n).length
  ∧ u = { s with ob := u.ob, imbe := u.imbe, obPtr := u.obPtr, result := u.result, code := u.code }

theorem handComposed_zero (k : BitVec 2) {s : State} (hf : s.fault = 0) :
    ∃ u, runAll (handPrefix k 0) s = .next u ∧ HandComposed k 0 s u := by
  obtain ⟨hbegin, -⟩ := lduBeginAndEndOutcomes 0 s
  have hexec := body_of_guarded hbegin hf rfl
  refine ⟨_, runAll_cons hexec [], fun x => ?_, rfl, rfl⟩
  exact (if_neg (by simp [composedPrefix])).symm

theorem HandComposed.succ {k : BitVec 2} (hk : k = 1 ∨ k = 2) {n : Nat} (hn : n < 9) {s u : State}
    (h : HandComposed k n s u) (hf : s.fault = 0) (hv : s.obValid = 1) (hcap : 178 ≤ s.obCap.toNat) :
    ∃ t, runAll (handStep k n) u = .next t ∧ HandComposed k (n + 1) s t := by
  obtain ⟨hlaid, hptr, hframe⟩ := h
  have hprefix := length_composedPrefix k s hn
  have hle := recordOffset_add_chunkLength_le hn
  have hsub : composedSubFrame k u n = composedSubFrame k s n := by rw [hframe]; rfl
  have hcapacity : u.obCap = s.obCap := by rw [hframe]
  obtain ⟨ob', imbe', hstep, hrun⟩ := runAll_handStep (u := u) hk hn (by rwa [hframe]) (by rwa [hframe])
    (by rw [hcapacity]; omega)
  rw [hsub, hptr] at hstep
  refine ⟨_, hrun, ?_, ?_, by rw [hframe]⟩
  · rw [composedPrefix_succ]
    exact laid_append hlaid hstep
  · rw [composedPrefix_succ, List.length_append, length_composedSubFrame k s hn, BitVec.toNat_ofNat]
    omega

theorem handComposed {k : BitVec 2} (hk : k = 1 ∨ k = 2) {s : State} (hf : s.fault = 0) (hv : s.obValid = 1)
    (hcap : 178 ≤ s.obCap.toNat) {n : Nat} (hn : n ≤ 9) :
    ∃ u, runAll (handPrefix k n) s = .next u ∧ HandComposed k n s u := by
  induction n with
  | zero => exact handComposed_zero k hf
  | succ n ih =>
    obtain ⟨u, hrun, hu⟩ := ih (by omega)
    obtain ⟨t, hstep, ht⟩ := hu.succ hk (by omega) hf hv hcap
    exact ⟨t, by rw [handPrefix_succ, runAll_append _ _ _ _ hrun, hstep], ht⟩

/-- All that the sequence by hand does: LDU.END writes the count 178 in front of the nine sub-frames. -/
theorem runAll_composedByHand {k : BitVec 2} (hk : k = 1 ∨ k = 2) {s : State} (hf : s.fault = 0) (hv : s.obValid = 1)
    (hcap : 178 ≤ s.obCap.toNat) :
    ∃ ob' imbe', Laid s.ob 23 (178 :: composedBytes k s) ob' ∧
      runAll (composedByHand k) s = .next { s with
        ob := ob', imbe := imbe', obPtr := 178, result := 178, code := 0x00#8 } := by
  obtain ⟨u, hrun, hlaid, hptr, hframe⟩ := handComposed hk hf hv hcap (n := 9) (Nat.le_refl 9)
  rw [composedPrefix_nine] at hlaid hptr
  have hptr178 : u.obPtr = 178 := BitVec.eq_of_toNat_eq (by rw [hptr, length_composed hk]; rfl)
  have hcapacity : u.obCap = s.obCap := by rw [hframe]
  obtain ⟨-, hend⟩ := lduBeginAndEndOutcomes 0 u
  obtain ⟨-, -, -, hwrite⟩ := body_of_guarded hend (by rwa [hframe]) rfl
  rw [hptr178] at hwrite
  obtain ⟨ob', hcount, hexec⟩ := hwrite (by rwa [hframe]) (by decide) (by rw [hcapacity]; omega)
  refine ⟨ob', u.imbe, laid_cons hlaid hcount, ?_⟩
  rw [composedByHand_eq, runAll_append _ _ _ _ hrun, runAll_cons hexec, hframe]
  rfl

/-- Settles O40: both lay the length byte and the same nine sub-frames. -/
theorem composeEqualsTheSequenceByHand : Obligations.ComposeEqualsTheSequenceByHand := by
  intro k s hk hf hv hcap
  obtain ⟨-, -, hroom⟩ := body_of_guarded (lduComposeOutcomes k 0 0 s) hf ⟨hk, rfl, rfl⟩
  obtain ⟨-, ob', hob', hcompose⟩ := hroom hv hcap
  obtain ⟨ob'', imbe', hob'', hhand⟩ := runAll_composedByHand hk hf hv hcap
  exact ⟨_, _, hcompose, hhand, read_eq_of_laid hob' hob'', rfl⟩

end Sys2Proof.LduRecords
end

section
/-! SUPPORT. O44 to O54: the ISSI sub-blocks (43_issi_blocks.md). A fixed block is an encoder that is `EncFixed` of its bytes
and a decoder that is `DecFixed` and a load (`FixedBlock`). Both directions of R189 are proved once for every fixed block; that
bytes and load undo each other comes for each block from the laws of Pack and Unpack (R114). A voice block is loaded from all
the input (`loadVoice`), and O54 is the load of the bytes that FRV.ENC wrote. -/

namespace Sys2Proof.IssiBlocks

open Sys2Proof.Machine Sys2Proof.Claims
open LduRecords (body_of_guarded read_of_laid memRead_of_laid)
open BitPacking (cutToWidths pack_cutToWidths)

/-! ### Fields and registers -/

theorem ofNat_toNat_mod_self {w : Nat} (x : BitVec w) : BitVec.ofNat w (x.toNat % 2 ^ w) = x := by
  rw [Nat.mod_eq_of_lt x.isLt, BitVec.ofNat_toNat, BitVec.setWidth_eq]

/-- Cutting a register to its low `k` bits is masking it. -/
theorem ofNat_toNat_mod {w k : Nat} (hk : k ≤ w) (x : BitVec w) :
    BitVec.ofNat w (x.toNat % 2 ^ k) = x &&& BitVec.ofNat w (2 ^ k - 1) := by
  have hpow : 2 ^ k ≤ 2 ^ w := Nat.pow_le_pow_right (by decide) hk
  have hpos := Nat.two_pow_pos k
  apply BitVec.eq_of_toNat_eq
  rw [BitVec.toNat_and, BitVec.toNat_ofNat, BitVec.toNat_ofNat, Nat.mod_eq_of_lt (a := 2 ^ k - 1) (by omega),
    Nat.and_two_pow_sub_one_eq_mod]
  exact Nat.mod_eq_of_lt ((Nat.mod_lt _ hpos).trans_le hpow)

/-- A register at least as wide as the field it was loaded from has the field's bits. -/
theorem toNat_field_mod {w k : Nat} (hk : k ≤ w) (vs : List Nat) (n : Nat) :
    (field w vs n).toNat % 2 ^ k = vs.getD n 0 % 2 ^ k := by
  rw [field, BitVec.toNat_ofNat, Nat.mod_mod_of_dvd _ (Nat.pow_dvd_pow 2 hk)]

theorem pack_congr {fs gs : List (Nat × Nat)} (h : cutToWidths fs = cutToWidths gs) : pack fs = pack gs := by
  rw [← pack_cutToWidths fs, h, pack_cutToWidths]

/-! ### Bytes carried from an encoder to a decoder -/

theorem code_of_endsWith {i : Instr} {c : BitVec 8} {s t : State} (h : EndsWith i c s) (hexec : exec i s = .next t) :
    t.code = c := by
  cases hexec.symm.trans h
  rfl

theorem code_of_faults {i : Instr} {c : BitVec 8} {word : BitVec 16} {s t : State} (h : Faults i c word s)
    (hexec : exec i s = .next t) : t.code = c := by
  cases hexec.symm.trans h
  rfl

/-- What an encoder did that answers OK: it had room, and appended its bytes. -/
theorem appends_of_encodesFixed {i : Instr} {word : BitVec 16} {b : List Byte} {s t : State} (h : EncodesFixed i word b s)
    (hexec : exec i s = .next t) (hok : t.code = 0x00#8) :
    s.obPtr.toNat + b.length ≤ s.obCap.toNat ∧ Appends i b s := by
  obtain ⟨hnull, hfull, hroom⟩ := h
  rcases bit_cases s.obValid with hv | hv
  · exact absurd (hok.symm.trans (code_of_faults (hnull hv) hexec)) (by decide)
  · by_cases hr : s.obPtr.toNat + b.length ≤ s.obCap.toNat
    · exact ⟨hr, hroom hv hr⟩
    · exact absurd (hok.symm.trans (code_of_endsWith (hfull hv (Nat.not_le.mp hr)) hexec)) (by decide)

/-- What a decoder did that answers OK: the bytes were there, and it took them. -/
theorem consumed_of_decodesFixed {i : Instr} {n : Nat} {s t r : State} (h : DecodesFixed i n s r)
    (hexec : exec i s = .next t) (hok : t.code = 0x00#8) :
    s.ibPtr.toNat + n ≤ s.ibLen.toNat ∧ t = consumed n s r := by
  obtain ⟨hnull, hshort, hthere⟩ := h
  rcases bit_cases s.ibValid with hv | hv
  · exact absurd (hok.symm.trans (code_of_endsWith (hnull hv) hexec)) (by decide)
  · by_cases hr : s.ibPtr.toNat + n ≤ s.ibLen.toNat
    · cases hexec.symm.trans (hthere hv hr)
      exact ⟨hr, rfl⟩
    · exact absurd (hok.symm.trans (code_of_endsWith (hshort hv (Nat.not_le.mp hr)) hexec)) (by decide)

/-- The effect of `Appends` on the state it answers. -/
theorem laid_of_appends {i : Instr} {b : List Byte} {s t : State} (h : Appends i b s) (hexec : exec i s = .next t) :
    Laid s.ob s.obPtr.toNat b t.ob ∧ t.result = BitVec.ofNat 16 b.length := by
  obtain ⟨ob', hlaid, happend⟩ := h
  cases hexec.symm.trans happend
  exact ⟨hlaid, rfl⟩

/-- A count that fits a 9-bit register, back from RESULT. -/
theorem toNat_result {n : Nat} {limit : BitVec 9} (h : n ≤ limit.toNat) : (BitVec.ofNat 16 n).toNat = n := by
  rw [BitVec.toNat_ofNat]; omega

/-- A state that carries what an encoder appended has those bytes at its read cursor. -/
theorem inputBytes_of_carried {i : Instr} {b : List Byte} {s t u : State} (h : Appends i b s)
    (hroom : s.obPtr.toNat + b.length ≤ s.obCap.toNat) (hexec : exec i s = .next t) (hc : Carried s t u) :
    u.ibPtr.toNat + b.length ≤ u.ibLen.toNat ∧ inputBytes u 0 b.length = b := by
  obtain ⟨hlaid, hresult⟩ := laid_of_appends h hexec
  obtain ⟨-, -, hlen, hbytes⟩ := hc
  have hcount : t.result.toNat = b.length := by
    rw [hresult, toNat_result (limit := s.obCap) (by omega)]
  rw [hcount] at hlen hbytes
  refine ⟨hlen, List.ext_getElem (by simp [inputBytes]) (fun n hn hn' => ?_)⟩
  have hread : inputByte u n = b[n] := by
    rw [hbytes n hn', read_of_laid hlaid hn', List.getD_eq_getElem _ _ hn']
  simpa [inputBytes] using hread

/-! ### Fixed blocks (R190) -/

/-- A command that is the common checks and `EncFixed`. -/
theorem guarded_encodes {i : Instr} {word word' : BitVec 16} {b : List Byte} {ok : Bool} {operandOk : Prop} {s : State}
    (he : encode i = .command word) (hexec : exec i s = .next (commonChecks ok s (encFixed word b s)))
    (hok : ok = true ↔ operandOk) (hword : operandOk → word = word') :
    Guarded i word operandOk s (EncodesFixed i word' b s) :=
  guarded he hexec hok (fun _ ho h => hword ho ▸ encodesFixed h)

/-- A command that is the common checks, `DecFixed` and a load that leaves the cursor, RESULT and the status alone. -/
theorem guarded_decodes {i : Instr} {word : BitVec 16} {n : Nat} {load : List Byte → State → State} {ok : Bool}
    {operandOk : Prop} {s : State} (he : encode i = .command word)
    (hexec : exec i s = .next (commonChecks ok s (decFixed n s load))) (hok : ok = true ↔ operandOk)
    (hload : ∀ b, load b (consume n s) = consumed n s (load b s)) :
    Guarded i word operandOk s (DecodesFixed i n s (load (inputBytes s 0 n) s)) :=
  guarded he hexec hok (fun _ _ h => decodesFixed h (by rw [hload, inputBytes_eq, Nat.add_zero]))

/-- A pair of commands for one block of `n` bytes: the encoder is `EncFixed` of `bytes`, the decoder `DecFixed` and `load`,
which leaves the latch and the output alone. -/
def FixedBlock (enc dec : Instr) (n : Nat) (bytes : State → List Byte) (load : List Byte → State → State) : Prop :=
  (∀ s, s.fault = 0 → ∃ word, EncodesFixed enc word (bytes s) s)
  ∧ (∀ s, s.fault = 0 → DecodesFixed dec n s (load (inputBytes s 0 n) s))
  ∧ (∀ s, (bytes s).length = n)
  ∧ ∀ b s, (load b s).fault = s.fault ∧ (load b s).ob = s.ob ∧ (load b s).obPtr = s.obPtr

section
variable {enc dec : Instr} {n : Nat} {bytes : State → List Byte} {load : List Byte → State → State}

/-- R189 a: the decoder loads the bytes of the encoder's record. -/
theorem FixedBlock.decode_carried (hblock : FixedBlock enc dec n bytes load) {s t u : State} (hf : s.fault = 0)
    (hok : t.code = 0x00#8) (hc : Carried s t u) (henc : exec enc s = .next t) :
    exec dec u = .next (consumed n u (load (bytes s) u)) := by
  obtain ⟨hencodes, hdecodes, hlength, -⟩ := hblock
  obtain ⟨word, hencode⟩ := hencodes s hf
  obtain ⟨hroom, happends⟩ := appends_of_encodesFixed hencode henc hok
  obtain ⟨hlen, hbytes⟩ := inputBytes_of_carried happends hroom henc hc
  rw [hlength] at hlen hbytes
  obtain ⟨huf, huv, -, -⟩ := hc
  obtain ⟨-, -, hthere⟩ := hdecodes u huf
  rw [hthere huv hlen, hbytes]

/-- R189 b: where every bit of the block is a field, the encoder writes the bytes that the decoder loaded. -/
theorem FixedBlock.encode_decoded (hblock : FixedBlock enc dec n bytes load)
    (hbytes : ∀ (b : List Byte) (s r : State), b.length = n → bytes (consumed n r (load b s)) = b) {s t u : State}
    (hf : s.fault = 0) (hokt : t.code = 0x00#8) (hdec : exec dec s = .next t) (henc : exec enc t = .next u)
    (hoku : u.code = 0x00#8) :
    u.result = t.result ∧ Laid s.ob s.obPtr.toNat (inputBytes s 0 t.result.toNat) u.ob := by
  obtain ⟨hencodes, hdecodes, hlength, hload⟩ := hblock
  obtain ⟨hthere, rfl⟩ := consumed_of_decodesFixed (hdecodes s hf) hdec hokt
  obtain ⟨hfault, hob, hobPtr⟩ := hload (inputBytes s 0 n) s
  obtain ⟨word, hencode⟩ := hencodes (consumed n s (load (inputBytes s 0 n) s)) (hfault.trans hf)
  obtain ⟨-, happends⟩ := appends_of_encodesFixed hencode henc hoku
  obtain ⟨hlaid, hresult⟩ := laid_of_appends happends henc
  have hn : (consumed n s (load (inputBytes s 0 n) s)).result.toNat = n := toNat_result (limit := s.ibLen) (by omega)
  rw [hlength] at hresult
  rw [hbytes _ _ _ (by simp [inputBytes])] at hlaid
  rw [hn, ← hob, ← hobPtr]
  exact ⟨hresult, hlaid⟩

end

/-! ### CTL (R170 to R172) -/

/-- The registers of a control octet loaded. -/
def loadCtl (b : List Byte) (s : State) : State := { s with hdr := s.hdr.loadCtl b }

theorem ctlEnc_guarded (op : Byte) (s : State) :
    Guarded (.ctlEnc op) (0x40#8 ++ op) (op = 0) s (EncodesFixed (.ctlEnc op) 0x4000#16 (ctlBytes s.hdr) s) :=
  guarded_encodes rfl rfl (operandNone_iff op) (by rintro rfl; rfl)

theorem ctlDec_guarded (op : Byte) (s : State) :
    Guarded (.ctlDec op) (0x41#8 ++ op) (op = 0) s (DecodesFixed (.ctlDec op) 1 s (loadCtl (inputBytes s 0 1) s)) :=
  guarded_decodes rfl rfl (operandNone_iff op) (fun _ => rfl)

theorem loadCtl_inputBytes (s : State) :
    loadCtl (inputBytes s 0 1) s = { s with hdr := { s.hdr with
      ctlS := (inputByte s 0).extractLsb' 7 1, ctlC := (inputByte s 0).extractLsb' 6 1
      bhCnt := ((inputByte s 0).extractLsb' 0 6).setWidth 8 } } :=
  congrArg (fun h => { s with hdr := h }) (loadCtl_eq s.hdr (inputByte s 0))

/-- Settles O44: `EncFixed` and `DecFixed` of the control octet, byte by byte. -/
theorem ctlEncAndDecOutcomes : Obligations.CtlEncAndDecOutcomes := by
  intro op s
  rw [wireCtl, ← ctlBytes_eq, ← loadCtl_inputBytes]
  exact ⟨ctlEnc_guarded op s, ctlDec_guarded op s⟩

theorem ctlBlock : FixedBlock (.ctlEnc 0) (.ctlDec 0) 1 (fun s => ctlBytes s.hdr) loadCtl :=
  ⟨fun s hf => ⟨_, body_of_guarded (ctlEnc_guarded 0 s) hf rfl⟩,
    fun s hf => body_of_guarded (ctlDec_guarded 0 s) hf rfl, fun s => length_ctlBytes s.hdr, fun _ _ => ⟨rfl, rfl, rfl⟩⟩

theorem loadCtl_ctlBytes (src : PayloadHeader) (u : State) :
    loadCtl (ctlBytes src) u
      = { u with hdr := { u.hdr with ctlS := src.ctlS, ctlC := src.ctlC, bhCnt := src.bhCnt &&& 0x3F } } := by
  have hfields : unpack ctlWidths (ctlBytes src)
      = [src.ctlS.toNat % 2 ^ 1, src.ctlC.toNat % 2 ^ 1, src.bhCnt.toNat % 2 ^ 6] := unpack_pack _ (by simp)
  rw [loadCtl, PayloadHeader.loadCtl, hfields]
  congr 2
  · exact ofNat_toNat_mod_self src.ctlS
  · exact ofNat_toNat_mod_self src.ctlC
  · exact ofNat_toNat_mod (by decide) src.bhCnt

theorem ctlBytes_loadCtl (h : PayloadHeader) {b : List Byte} (hb : b.length = 1) : ctlBytes (h.loadCtl b) = b := by
  calc ctlBytes (h.loadCtl b)
    _ = pack (ctlWidths.zip (unpack ctlWidths b)) := pack_congr (by
      simp (disch := decide) only [cutToWidths, List.map_cons, List.map_nil, PayloadHeader.loadCtl, toNat_field_mod]
      rfl)
    _ = b := pack_unpack ctlWidths b (by rw [hb]; rfl)

/-! ### BH (R173 to R175) -/

/-- Block-header slot `i` loaded. -/
def loadBh (i : Byte) (b : List Byte) (s : State) : State := s.setBh i.toNat (bhOfBytes b)

theorem bhEnc_guarded (i : Byte) (s : State) :
    Guarded (.bhEnc i) (0x42#8 ++ i) (i.toNat < 4) s
      (EncodesFixed (.bhEnc i) (0x42#8 ++ i) (bhBytes (s.bhAt i.toNat)) s) :=
  guarded_encodes rfl rfl (operandIdx_iff 4 i) (fun _ => rfl)

theorem bhDec_guarded (i : Byte) (s : State) :
    Guarded (.bhDec i) (0x43#8 ++ i) (i.toNat < 4) s (DecodesFixed (.bhDec i) 4 s (loadBh i (inputBytes s 0 4) s)) :=
  guarded_decodes rfl rfl (operandIdx_iff 4 i) (fun _ => rfl)

theorem loadBh_inputBytes (i : Byte) (s : State) :
    loadBh i (inputBytes s 0 4) s = { s with
      bh := s.bh.setIfInBounds i.toNat
        (blockHeaderOf (inputByte s 0) (inputByte s 1) (inputByte s 2) (inputByte s 3)) } :=
  congrArg (s.setBh i.toNat) (bhOfBytes_eq (inputByte s 0) (inputByte s 1) (inputByte s 2) (inputByte s 3))

/-- Settles O45: `EncFixed` and `DecFixed` of the slot's four bytes. -/
theorem bhEncAndDecOutcomes : Obligations.BhEncAndDecOutcomes := by
  intro i s
  rw [wireBh, ← bhBytes_eq, ← loadBh_inputBytes]
  exact ⟨bhEnc_guarded i s, bhDec_guarded i s⟩

theorem bhBlock {i k : Byte} (hi : i.toNat < 4) (hk : k.toNat < 4) :
    FixedBlock (.bhEnc i) (.bhDec k) 4 (fun s => bhBytes (s.bhAt i.toNat)) (loadBh k) :=
  ⟨fun s hf => ⟨_, body_of_guarded (bhEnc_guarded i s) hf hi⟩,
    fun s hf => body_of_guarded (bhDec_guarded k s) hf hk, fun s => length_bhBytes (s.bhAt i.toNat), fun _ _ => ⟨rfl, rfl, rfl⟩⟩

theorem bhOfBytes_bhBytes (src : BlockHeader) :
    bhOfBytes (bhBytes src)
      = { e := src.e, bt := src.bt &&& 0x7F, tso := src.tso &&& 0x3FFF, bl := src.bl &&& 0x3FF } := by
  have hfields : unpack bhWidths (bhBytes src)
      = [src.e.toNat % 2 ^ 1, src.bt.toNat % 2 ^ 7, src.tso.toNat % 2 ^ 14, src.bl.toNat % 2 ^ 10] :=
    unpack_pack _ (by simp)
  rw [bhOfBytes, hfields]
  congr 1
  · exact ofNat_toNat_mod_self src.e
  · exact ofNat_toNat_mod (by decide) src.bt
  · exact ofNat_toNat_mod (by decide) src.tso
  · exact ofNat_toNat_mod (by decide) src.bl

theorem bhBytes_bhOfBytes {b : List Byte} (hb : b.length = 4) : bhBytes (bhOfBytes b) = b := by
  calc bhBytes (bhOfBytes b)
    _ = pack (bhWidths.zip (unpack bhWidths b)) := pack_congr (by
      simp (disch := decide) only [cutToWidths, List.map_cons, List.map_nil, bhOfBytes, toNat_field_mod]
      rfl)
    _ = b := pack_unpack bhWidths b (by rw [hb]; rfl)

/-! ### PKT (R176 to R178) -/

/-- The registers of a packet-type block loaded. -/
def loadPkt (b : List Byte) (s : State) : State := { s with hdr := s.hdr.loadPkt b }

theorem pktEnc_guarded (op : Byte) (s : State) :
    Guarded (.pktEnc op) (0x44#8 ++ op) (op = 0) s (EncodesFixed (.pktEnc op) 0x4400#16 (pktBytes s.hdr) s) :=
  guarded_encodes rfl rfl (operandNone_iff op) (by rintro rfl; rfl)

theorem pktDec_guarded (op : Byte) (s : State) :
    Guarded (.pktDec op) (0x45#8 ++ op) (op = 0) s (DecodesFixed (.pktDec op) 4 s (loadPkt (inputBytes s 0 4) s)) :=
  guarded_decodes rfl rfl (operandNone_iff op) (fun _ => rfl)

theorem loadPkt_inputBytes (s : State) :
    loadPkt (inputBytes s 0 4) s = { s with hdr := { s.hdr with
      pktM := (inputByte s 0).extractLsb' 7 1, pktPt := ((inputByte s 0).extractLsb' 0 7).setWidth 8
      pktAux := (inputByte s 1 ++ inputByte s 2 ++ inputByte s 3).setWidth 32 } } :=
  congrArg (fun h => { s with hdr := h })
    (loadPkt_eq s.hdr (inputByte s 0) (inputByte s 1) (inputByte s 2) (inputByte s 3))

/-- Settles O46: `EncFixed` and `DecFixed` of the packet-type block. -/
theorem pktEncAndDecOutcomes : Obligations.PktEncAndDecOutcomes := by
  intro op s
  rw [wirePkt, ← pktBytes_eq, ← loadPkt_inputBytes]
  exact ⟨pktEnc_guarded op s, pktDec_guarded op s⟩

theorem pktBlock : FixedBlock (.pktEnc 0) (.pktDec 0) 4 (fun s => pktBytes s.hdr) loadPkt :=
  ⟨fun s hf => ⟨_, body_of_guarded (pktEnc_guarded 0 s) hf rfl⟩,
    fun s hf => body_of_guarded (pktDec_guarded 0 s) hf rfl, fun s => length_pktBytes s.hdr, fun _ _ => ⟨rfl, rfl, rfl⟩⟩

theorem loadPkt_pktBytes (src : PayloadHeader) (u : State) :
    loadPkt (pktBytes src) u = { u with hdr := { u.hdr with
      pktM := src.pktM, pktPt := src.pktPt &&& 0x7F, pktAux := src.pktAux &&& 0xFFFFFF } } := by
  have hfields : unpack pktWidths (pktBytes src)
      = [src.pktM.toNat % 2 ^ 1, src.pktPt.toNat % 2 ^ 7, src.pktAux.toNat % 2 ^ 24] := unpack_pack _ (by simp)
  rw [loadPkt, PayloadHeader.loadPkt, hfields]
  congr 2
  · exact ofNat_toNat_mod_self src.pktM
  · exact ofNat_toNat_mod (by decide) src.pktPt
  · exact ofNat_toNat_mod (by decide) src.pktAux

theorem pktBytes_loadPkt (h : PayloadHeader) {b : List Byte} (hb : b.length = 4) : pktBytes (h.loadPkt b) = b := by
  calc pktBytes (h.loadPkt b)
    _ = pack (pktWidths.zip (unpack pktWidths b)) := pack_congr (by
      simp (disch := decide) only [cutToWidths, List.map_cons, List.map_nil, PayloadHeader.loadPkt, toNat_field_mod]
      rfl)
    _ = b := pack_unpack pktWidths b (by rw [hb]; rfl)

/-! ### PTT (R179 to R181) -/

/-- The registers of a PTT control block loaded. -/
def loadPtt (b : List Byte) (s : State) : State := { s with ptt := s.ptt.load b }

theorem pttEnc_guarded (op : Byte) (s : State) :
    Guarded (.pttEnc op) (0x46#8 ++ op) (op = 0) s (EncodesFixed (.pttEnc op) 0x4600#16 (pttBytes s.ptt) s) :=
  guarded_encodes rfl rfl (operandNone_iff op) (by rintro rfl; rfl)

theorem pttDec_guarded (op : Byte) (s : State) :
    Guarded (.pttDec op) (0x47#8 ++ op) (op = 0) s (DecodesFixed (.pttDec op) 8 s (loadPtt (inputBytes s 0 8) s)) :=
  guarded_decodes rfl rfl (operandNone_iff op) (fun _ => rfl)

theorem loadPtt_inputBytes (s : State) : loadPtt (inputBytes s 0 8) s = { s with ptt := pttOf s 0 } :=
  congrArg (fun p => { s with ptt := p })
    (loadPtt_eq s.ptt (inputByte s 0) (inputByte s 1) (inputByte s 2) (inputByte s 3) (inputByte s 4) (inputByte s 5)
      (inputByte s 6) (inputByte s 7))

/-- Settles O47: `EncFixed` and `DecFixed` of the PTT control block, which does not hold PTT_PRESENT. -/
theorem pttEncAndDecOutcomes : Obligations.PttEncAndDecOutcomes := by
  intro op s
  rw [wirePtt, ← pttBytes_eq, ← loadPtt_inputBytes]
  exact ⟨pttEnc_guarded op s, pttDec_guarded op s⟩

theorem pttBlock : FixedBlock (.pttEnc 0) (.pttDec 0) 8 (fun s => pttBytes s.ptt) loadPtt :=
  ⟨fun s hf => ⟨_, body_of_guarded (pttEnc_guarded 0 s) hf rfl⟩,
    fun s hf => body_of_guarded (pttDec_guarded 0 s) hf rfl, fun s => length_pttBytes s.ptt, fun _ _ => ⟨rfl, rfl, rfl⟩⟩

theorem loadPtt_pttBytes (src : PttFile) (u : State) :
    loadPtt (pttBytes src) u = { u with ptt := { u.ptt with
      wacn := src.wacn &&& 0xFFFFF, sysId := src.sysId &&& 0xFFF, unitId := src.unitId &&& 0xFFFFFF
      prio := src.prio } } := by
  have hfields : unpack pttWidths (pttBytes src)
      = [src.wacn.toNat % 2 ^ 20, src.sysId.toNat % 2 ^ 12, src.unitId.toNat % 2 ^ 24, src.prio.toNat % 2 ^ 8] :=
    unpack_pack _ (by simp)
  rw [loadPtt, PttFile.load, hfields]
  congr 2
  · exact ofNat_toNat_mod (by decide) src.wacn
  · exact ofNat_toNat_mod (by decide) src.sysId
  · exact ofNat_toNat_mod (by decide) src.unitId
  · exact ofNat_toNat_mod_self src.prio

theorem pttBytes_load (p : PttFile) {b : List Byte} (hb : b.length = 8) : pttBytes (p.load b) = b := by
  calc pttBytes (p.load b)
    _ = pack (pttWidths.zip (unpack pttWidths b)) := pack_congr (by
      simp (disch := decide) only [cutToWidths, List.map_cons, List.map_nil, PttFile.load, toNat_field_mod]
      rfl)
    _ = b := pack_unpack pttWidths b (by rw [hb]; rfl)

/-! ### FRH (R182 to R184) -/

/-- The bundling count loaded. -/
def loadFrh (b : List Byte) (s : State) : State := { s with hdr := { s.hdr with frhVbb := byteAt b 0 } }

theorem frhEnc_guarded (op : Byte) (s : State) :
    Guarded (.frhEnc op) (0x48#8 ++ op) (op = 0) s (EncodesFixed (.frhEnc op) 0x4800#16 [s.hdr.frhVbb] s) :=
  guarded_encodes rfl rfl (operandNone_iff op) (by rintro rfl; rfl)

theorem frhDec_guarded (op : Byte) (s : State) :
    Guarded (.frhDec op) (0x49#8 ++ op) (op = 0) s (DecodesFixed (.frhDec op) 1 s (loadFrh (inputBytes s 0 1) s)) :=
  guarded_decodes rfl rfl (operandNone_iff op) (fun _ => rfl)

/-- Settles O48: the register is the block's one byte. -/
theorem frhEncAndDecOutcomes : Obligations.FrhEncAndDecOutcomes := fun op s =>
  ⟨frhEnc_guarded op s, frhDec_guarded op s⟩

theorem frhBlock : FixedBlock (.frhEnc 0) (.frhDec 0) 1 (fun s => [s.hdr.frhVbb]) loadFrh :=
  ⟨fun s hf => ⟨_, body_of_guarded (frhEnc_guarded 0 s) hf rfl⟩,
    fun s hf => body_of_guarded (frhDec_guarded 0 s) hf rfl, fun _ => rfl, fun _ _ => ⟨rfl, rfl, rfl⟩⟩

theorem singleton_byteAt_zero {b : List Byte} (hb : b.length = 1) : [byteAt b 0] = b := by
  obtain ⟨x, rfl⟩ := List.length_eq_one_iff.mp hb
  rfl

/-! ### The laws of the fixed blocks (R189 a, b) -/

/-- Settles O52: each decoder loads the encoder's bytes, and the fields of those are the registers cut to their widths. -/
theorem fixedBlocksDecodeWhatWasEncoded : Obligations.FixedBlocksDecodeWhatWasEncoded := by
  intro s t u i k hf hok hc
  refine ⟨fun henc => ?_, fun hi hk henc => ?_, fun henc => ?_, fun henc => ?_, fun henc => ?_⟩
  · rw [← loadCtl_ctlBytes]; exact ctlBlock.decode_carried hf hok hc henc
  · rw [← bhOfBytes_bhBytes]; exact (bhBlock hi hk).decode_carried hf hok hc henc
  · rw [← loadPkt_pktBytes]; exact pktBlock.decode_carried hf hok hc henc
  · rw [← loadPtt_pttBytes]; exact pttBlock.decode_carried hf hok hc henc
  · exact frhBlock.decode_carried hf hok hc henc

/-- BH.DEC ends OK for an existing slot alone. -/
theorem slot_lt_of_bhDec {i : Byte} {s t : State} (hf : s.fault = 0) (hexec : exec (.bhDec i) s = .next t)
    (hok : t.code = 0x00#8) : i.toNat < 4 := by
  obtain ⟨-, -, hmalformed, -⟩ := bhDec_guarded i s
  by_contra hi
  exact absurd (hok.symm.trans (code_of_endsWith (hmalformed hf hi) hexec)) (by decide)

/-- Settles O53: each encoder's bytes after the load are the bytes loaded. -/
theorem fixedBlocksEncodeWhatWasDecoded : Obligations.FixedBlocksEncodeWhatWasDecoded := by
  intro s t u i hf hokt _ dec enc hpair hdec henc hoku
  simp only [List.mem_cons, Prod.mk.injEq, List.not_mem_nil, or_false] at hpair
  rcases hpair with ⟨rfl, rfl⟩ | ⟨rfl, rfl⟩ | ⟨rfl, rfl⟩ | ⟨rfl, rfl⟩ | ⟨rfl, rfl⟩
  · exact ctlBlock.encode_decoded (fun b r _ hb => ctlBytes_loadCtl r.hdr hb) hf hokt hdec henc hoku
  · have hi := slot_lt_of_bhDec hf hdec hokt
    refine (bhBlock hi hi).encode_decoded (fun b r _ hb => ?_) hf hokt hdec henc hoku
    have hslot : (loadBh i b r).bhAt i.toNat = bhOfBytes b := by rw [loadBh, bhAt_setBh, if_pos ⟨rfl, hi⟩]
    exact (congrArg bhBytes hslot).trans (bhBytes_bhOfBytes hb)
  · exact pktBlock.encode_decoded (fun b r _ hb => pktBytes_loadPkt r.hdr hb) hf hokt hdec henc hoku
  · exact pttBlock.encode_decoded (fun b r _ hb => pttBytes_load r.ptt hb) hf hokt hdec henc hoku
  · exact frhBlock.encode_decoded (fun b _ _ hb => singleton_byteAt_zero hb) hf hokt hdec henc hoku

/-! ### FRV.ENC and FRV.SIZE (R185, R186, R188) -/

theorem frvFixed_eq_wireVoice (v : VoiceSlot) : frvFixed v = wireVoice v := frvFixed_eq v

/-- A slot without additional data is its 14 fixed bytes. -/
theorem frvAfd_of_empty {v : VoiceSlot} (h : v.afdLen.toNat = 0) : frvAfd v = [] := by rw [frvAfd, h]; rfl

/-- Settles O49: the target, room for the fixed bytes, then room for the additional data. -/
theorem frvEncOutcomes : Obligations.FrvEncOutcomes := by
  intro j s
  refine guarded rfl rfl (operandIdx_iff 3 j) (fun _ _ h => ?_)
  have hfixed : Config.frvFixedLen = 14 := rfl
  rw [← frvFixed_eq_wireVoice]
  refine ⟨fun hv => ?_, fun hv hfull => ?_, fun hv hroom hskip => appends_emit ?_, fun hv hroom => appends_emit ?_⟩
  · rw [EndsWith, h, if_pos hv]; rfl
  · rw [EndsWith, h, if_neg (ne_zero_of_one hv), if_pos (by omega)]; rfl
  · rw [h, if_neg (ne_zero_of_one hv), if_neg (by omega), if_neg (by omega)]
  · rw [h, if_neg (ne_zero_of_one hv), if_neg (by omega)]
    by_cases hafd : (s.vbAt j.toNat).afdLen.toNat = 0
    · rw [if_neg (by omega), ← frvAfd, frvAfd_of_empty hafd, List.append_nil]
    · rw [if_pos ⟨by omega, by omega⟩, frvAfd]

/-- Settles O51: the common checks, then RESULT alone. -/
theorem frvSizeOutcomes : Obligations.FrvSizeOutcomes := fun j _ =>
  guarded rfl rfl (operandIdx_iff 3 j) (fun _ _ h => h)

/-! ### FRV.DEC (R187) -/

/-- Voice slot `j` with the voice block that the bytes `b` are: its fields, its codeword and its additional data. -/
def loadVoice (j : Byte) (b : List Byte) (s : State) : State :=
  s.setVb j.toNat
    { (s.vbAt j.toNat).loadFixed b with
      afdLen := BitVec.ofNat 8 (b.length - 14), afd := memWrite (s.vbAt j.toNat).afd 0 (b.drop 14) }

theorem loadVoice_available (j : Byte) {s : State} (hmin : 14 ≤ inputLength s) :
    loadVoice j (available s) s = s.setVb j.toNat
      { voiceSlotOf (inputByte s) (memWrite (s.vbAt j.toNat).imbe 0 (inputBytes s 1 11)) (s.vbAt j.toNat) with
        afdLen := BitVec.ofNat 8 (inputLength s - 14)
        afd := memWrite (s.vbAt j.toNat).afd 0 (inputBytes s 14 (inputLength s - 14)) } := by
  have hlen : (available s).length = inputLength s := length_available s
  have hbyte {n : Nat} (hn : n < 14) : byteAt (available s) n = inputByte s n :=
    byteAt_available s n (by unfold inputLength at hmin; omega)
  have hcodeword : slice (available s) 1 11 = inputBytes s 1 11 := by
    rw [inputBytes_eq]; exact slice_memRead _ _ _ _ _ (by unfold inputLength at hmin; omega)
  have hafd : (available s).drop 14 = inputBytes s 14 (inputLength s - 14) := by
    rw [inputBytes_eq]; exact drop_memRead _ _ _ _
  rw [loadVoice, loadFixed_eq, hlen, hcodeword, hafd, hbyte (by decide), hbyte (by decide), hbyte (by decide)]
  rfl

/-- FRV.DEC takes everything up to IB_LEN, when that is a fixed part and no more additional data than a slot holds. -/
theorem exec_frvDec_accepted {j : Byte} {s : State} (hf : s.fault = 0) (hj : j.toNat < 3) (hv : s.ibValid = 1)
    (hmin : 14 ≤ inputLength s) (hmax : inputLength s ≤ 30) :
    exec (.frvDec j) s = .next { loadVoice j (available s) s with
      ibPtr := s.ibLen, result := BitVec.ofNat 16 (inputLength s), code := 0x00#8 } := by
  have hlen : (available s).length = inputLength s := length_available s
  have hfixed : Config.frvFixedLen = 14 := rfl
  have hafdMax : Config.afdMax = 16 := rfl
  have hslot : operandIdx Config.nvb j = true := (operandIdx_iff 3 j).mpr hj
  show execFrvDec j s = _
  rw [execFrvDec, hslot, commonChecks_accepted _ (ne_one_of_zero hf), if_neg (ne_zero_of_one hv), if_neg (by omega),
    if_neg (by omega), hlen, loadVoice, hlen]
  rfl

/-- Settles O50: the input, its least and its greatest length, then the load of all its bytes. -/
theorem frvDecOutcomes : Obligations.FrvDecOutcomes := by
  intro j s
  have hlen : (available s).length = inputLength s := length_available s
  have hfixed : Config.frvFixedLen = 14 := rfl
  have hafdMax : Config.afdMax = 16 := rfl
  refine guarded rfl rfl (operandIdx_iff 3 j) (fun hf hj h => ?_)
  refine ⟨fun hv => ?_, fun hv hshort => ?_, fun hv hlong => ?_,
    fun hv hmin hmax => ⟨_, _, laid_memWrite _ _ _, laid_memWrite _ _ _, ?_⟩⟩
  · rw [EndsWith, h, if_pos hv]; rfl
  · rw [EndsWith, h, if_neg (ne_zero_of_one hv), if_pos (by omega)]; rfl
  · rw [EndsWith, h, if_neg (ne_zero_of_one hv), if_neg (by omega), if_pos (by omega)]; rfl
  · rw [exec_frvDec_accepted hf hj hv hmin hmax, loadVoice_available j hmin]; rfl

/-! ### The round trip of a voice block (R189 c, e) -/

/-- Loading the fixed bytes of a slot restores its fields, cut to the wire width, and its codeword. -/
theorem loadFixed_frvFixed (v w : VoiceSlot) (rest : List Byte) :
    w.loadFixed (frvFixed v ++ rest) = { w with
      ft := v.ft, imbe := memWrite w.imbe 0 (memRead v.imbe 0 11), totErr := v.totErr &&& 7, mute := v.mute
      lost := v.lost, sfc := v.sfc &&& 3 } := by
  have hstatus : unpack [3, 3, 1, 1] [byteAt (frvFixed v ++ rest) 12]
      = [v.totErr.toNat % 2 ^ 3, 0 % 2 ^ 3, v.mute.toNat % 2 ^ 1, v.lost.toNat % 2 ^ 1] := by
    have hbyte : [byteAt (frvFixed v ++ rest) 12] = frvStatusByte v := by rw [frvStatusByte_eq, frvFixed_eq]; rfl
    rw [hbyte]; exact unpack_pack _ (by simp)
  have hsuper : unpack [4, 2, 2] [byteAt (frvFixed v ++ rest) 13] = [0 % 2 ^ 4, v.sfc.toNat % 2 ^ 2, 0 % 2 ^ 2] := by
    have hbyte : [byteAt (frvFixed v ++ rest) 13] = frvSuperFrameByte v := by
      rw [frvSuperFrameByte_eq, frvFixed_eq]; rfl
    rw [hbyte]; exact unpack_pack _ (by simp)
  have hcodeword : slice (frvFixed v ++ rest) 1 Config.imbeLen = memRead v.imbe 0 11 := by rw [frvFixed_eq]; rfl
  rw [VoiceSlot.loadFixed, hstatus, hsuper, hcodeword]
  congr 1
  · exact ofNat_toNat_mod (by decide) v.totErr
  · exact ofNat_toNat_mod_self v.mute
  · exact ofNat_toNat_mod_self v.lost
  · exact ofNat_toNat_mod (by decide) v.sfc

theorem memRead_memWrite (m : Memory) (a : Nat) {n : Nat} {b : List Byte} (hb : b.length = n) :
    memRead (memWrite m a b) a n = b := hb ▸ memRead_of_laid (laid_memWrite m a b)

/-- Slot `w` after the voice block of slot `v` is decoded into it (R189 c). -/
def restoredSlot (v w : VoiceSlot) : VoiceSlot :=
  { ft := v.ft, totErr := v.totErr &&& 7, mute := v.mute, lost := v.lost, sfc := v.sfc &&& 3, afdLen := v.afdLen
    imbe := memWrite w.imbe 0 (memRead v.imbe 0 11), afd := memWrite w.afd 0 (frvAfd v) }

theorem length_voiceBlock (v : VoiceSlot) : (frvFixed v ++ frvAfd v).length = 14 + v.afdLen.toNat := by simp

theorem vbAt_loadVoice (v : VoiceSlot) {l : Byte} (hl : l.toNat < 3) (u : State) :
    (loadVoice l (frvFixed v ++ frvAfd v) u).vbAt l.toNat = restoredSlot v (u.vbAt l.toNat) := by
  have hlen : (frvFixed v ++ frvAfd v).length - 14 = v.afdLen.toNat := by rw [length_voiceBlock]; omega
  have hrest : (frvFixed v ++ frvAfd v).drop 14 = frvAfd v := List.drop_left' (length_frvFixed v)
  rw [loadVoice, vbAt_setVb, if_pos ⟨rfl, hl⟩, loadFixed_frvFixed, hlen, hrest, BitVec.ofNat_toNat, BitVec.setWidth_eq]
  rfl

/-- FRV.DEC of exactly the voice block of a slot `v` restores it. -/
theorem frvDec_voiceBlock (v : VoiceSlot) {l : Byte} {u : State} (hf : u.fault = 0) (hl : l.toNat < 3)
    (hv : u.ibValid = 1) (hafd : v.afdLen.toNat ≤ 16) (hbytes : available u = frvFixed v ++ frvAfd v) :
    ∃ t, exec (.frvDec l) u = .next t ∧ t.vbAt l.toNat = restoredSlot v (u.vbAt l.toNat) := by
  have hlen : inputLength u = 14 + v.afdLen.toNat := by
    rw [← length_voiceBlock, ← hbytes]; exact (length_available u).symm
  have hdec := exec_frvDec_accepted hf hl hv (by omega) (by omega)
  rw [hbytes] at hdec
  exact ⟨_, hdec, vbAt_loadVoice v hl u⟩

/-- FRV.ENC with room for all of it appends the whole voice block. -/
theorem frvEnc_voiceBlock {j : Byte} {s : State} (hf : s.fault = 0) (hj : j.toNat < 3) (hv : s.obValid = 1)
    (hroom : s.obPtr.toNat + 14 + (s.vbAt j.toNat).afdLen.toNat ≤ s.obCap.toNat) :
    Appends (.frvEnc j) (frvFixed (s.vbAt j.toNat) ++ frvAfd (s.vbAt j.toNat)) s := by
  obtain ⟨-, -, -, hwhole⟩ := body_of_guarded (frvEncOutcomes j s) hf hj
  rw [frvFixed_eq_wireVoice]
  exact hwhole hv hroom

/-- Settles O54: FRV.ENC writes the whole block, as many bytes as FRV.SIZE answers, and FRV.DEC takes exactly those. -/
theorem voiceBlockRoundTrip : Obligations.VoiceBlockRoundTrip := by
  intro j l s hf hj hl hv hafd hroom
  have happends := frvEnc_voiceBlock hf hj hv hroom
  have hlen := length_voiceBlock (s.vbAt j.toNat)
  have hsize := body_of_guarded (frvSizeOutcomes j s) hf hj
  have ⟨_, _, henc⟩ := happends
  refine ⟨_, _, henc, hsize, congrArg (BitVec.ofNat 16) hlen.symm, fun u hc hexact => ?_⟩
  have hcount : inputLength u = (frvFixed (s.vbAt j.toNat) ++ frvAfd (s.vbAt j.toNat)).length :=
    hexact.trans (toNat_result (limit := s.obCap) (by omega))
  obtain ⟨-, hbytes⟩ := inputBytes_of_carried happends (by omega) henc hc
  rw [← hcount, ← StepDecodes.available_eq] at hbytes
  obtain ⟨huf, huv, -, -⟩ := hc
  obtain ⟨v, hdec, hslot⟩ := frvDec_voiceBlock _ huf hl huv hafd hbytes
  refine ⟨v, hdec, ?_⟩
  rw [hslot]
  exact ⟨rfl, rfl, rfl, rfl, rfl, rfl, memRead_memWrite _ _ (length_memRead _ _ _), memRead_memWrite _ _ (length_frvAfd _)⟩

end Sys2Proof.IssiBlocks
end

section
/-! SUPPORT. O55 to O57, O59, O60: the payload as a whole (44_issi_payload.md). PL.SIZE and PL.ENC come from the laws of the
record (R200 to R203). PL.DEC is its tests and then the commit of the parts that the payload at the cursor has
(`decodedPayload`): O59 reads the registers of that state off the bytes. O60 goes the other way: each part encodes back to its
bytes, and the parts stand one after the other in the input. -/

namespace Sys2Proof.Payload

open Sys2Proof.Machine Sys2Proof.Claims
open LduRecords (body_of_guarded)
open IssiBlocks (ctlBytes_loadCtl bhBytes_bhOfBytes pktBytes_loadPkt pttBytes_load memRead_memWrite frvFixed_eq_wireVoice
  toNat_result code_of_endsWith)

/-! ### PL.SIZE and PL.ENC (R201, R203) -/

/-- Settles O55: the common checks, the bounds of the record, then RESULT alone. -/
theorem plSizeOutcomes : Obligations.PlSizeOutcomes := by
  intro op s
  refine guarded rfl rfl (operandNone_iff op) (fun _ _ h => ⟨fun hunbounded => ?_, fun hbounded => ?_⟩)
  · rw [EndsWith, h, if_neg (mt (bounded_iff s).mp hunbounded)]; rfl
  · rw [h, if_pos ((bounded_iff s).mpr hbounded)]; rfl

/-- Settles O56: the target, the record, then room for the sum of R201, which is the number of the bytes (R202). -/
theorem plEncOutcomes : Obligations.PlEncOutcomes := by
  intro op s
  have hsize : payloadSize s = recordSize s := rfl
  refine guarded rfl rfl (operandNone_iff op) (fun _ hop h => ?_)
  subst hop
  rw [recordBytes_eq, hsize] at h
  refine ⟨fun hv => ?_, fun hv hbad => ?_, fun hv hok hfull => ?_,
    fun hv hok hroom => ⟨length_recordBytes s hok, appends_emit ?_⟩⟩
  · rw [Faults, h, if_pos hv]; rfl
  · rw [EndsWith, h, if_neg (ne_zero_of_one hv), if_neg (mt (wf_iff s).mp hbad)]; rfl
  · rw [EndsWith, h, if_neg (ne_zero_of_one hv), if_pos ((wf_iff s).mpr hok), if_pos hfull]; rfl
  · rw [h, if_neg (ne_zero_of_one hv), if_pos ((wf_iff s).mpr hok), if_neg (Nat.not_lt.mpr hroom)]

/-- PL.ENC of a well-formed record with room for the sum of R201. -/
theorem plEnc_room {s : State} (hf : s.fault = 0) (hv : s.obValid = 1) (hok : recordOk s)
    (hroom : s.obPtr.toNat + recordSize s ≤ s.obCap.toNat) :
    (recordBytes s).length = recordSize s ∧ Appends (.plEnc 0) (recordBytes s) s := by
  obtain ⟨-, -, -, hwhole⟩ := body_of_guarded (plEncOutcomes 0 s) hf rfl
  exact hwhole hv hok hroom

/-- Settles O57: both results are the sum of R201, and what PL.ENC lays is as many bytes. -/
theorem sizeIsWhatEncodeWrites : Obligations.SizeIsWhatEncodeWrites := by
  intro s hf hv hok hroom
  obtain ⟨hlen, ob', hlaid, henc⟩ := plEnc_room hf hv hok hroom
  obtain ⟨-, hsize⟩ := body_of_guarded (plSizeOutcomes 0 s) hf rfl
  obtain ⟨hbounded, -⟩ := hok
  rw [hlen] at henc
  have hcount : (BitVec.ofNat 16 (recordSize s)).toNat = recordSize s :=
    toNat_result (limit := s.obCap) (by omega)
  refine ⟨_, _, hsize hbounded, henc, rfl, ?_, fun x hx => ?_⟩
  · show (BitVec.ofNat 9 (s.obPtr.toNat + recordSize s)).toNat = s.obPtr.toNat + (BitVec.ofNat 16 (recordSize s)).toNat
    rw [hcount, BitVec.toNat_ofNat]; omega
  · change x < s.obPtr.toNat ∨ s.obPtr.toNat + (BitVec.ofNat 16 (recordSize s)).toNat ≤ x at hx
    rw [hcount] at hx
    rw [hlaid x, if_neg (by omega)]

/-! ### The tests of PL.DEC (R204) -/

/-- A test that ends OK only through its second branch. -/
theorem of_test_ok {c : Prop} [Decidable c] {failed next : BitVec 8} (hfailed : failed ≠ 0x00#8)
    (h : (if c then failed else next) = 0x00#8) : ¬ c ∧ next = 0x00#8 := by
  by_cases hc : c
  · exact absurd ((if_pos hc).symm.trans h) hfailed
  · exact ⟨hc, (if_neg hc).symm.trans h⟩

/-- A payload that passes the tests of PL.DEC: its counts fit the slots, its parts are there, and what follows them fits
PAFD. -/
theorem of_inputStatus_ok {s : State} (h : inputStatus s = 0x00#8) :
    inputBhc s ≤ 4 ∧ (inputType s = s.cfg.ptProgress → inputVbb s ≤ 3) ∧ inputRest s ≤ inputLength s
      ∧ inputLength s - inputRest s ≤ 64 := by
  unfold inputStatus at h
  obtain ⟨-, h⟩ := of_test_ok (by decide) h
  obtain ⟨hbhc, h⟩ := of_test_ok (by decide) h
  obtain ⟨-, h⟩ := of_test_ok (by decide) h
  obtain ⟨-, h⟩ := of_test_ok (by decide) h
  obtain ⟨hvbb, h⟩ := of_test_ok (by decide) h
  obtain ⟨hparts, h⟩ := of_test_ok (by decide) h
  obtain ⟨hrest, -⟩ := of_test_ok (by decide) h
  exact ⟨by omega, fun hprog => Nat.not_lt.mp fun hlt => hvbb ⟨hprog, hlt⟩, by omega, by omega⟩

/-- The status of a parse that stops is the status of the first test that fails. -/
theorem code_statusOf {s : State} (h : inputStatus s ≠ 0x00#8) : (statusOf (inputStatus s)).code = inputStatus s := by
  have hcases : inputStatus s = 0x12#8 ∨ inputStatus s = 0x13#8 ∨ inputStatus s = 0x00#8 := by
    unfold inputStatus
    split_ifs <;> decide
  rcases hcases with hs | hs | hs
  · rw [hs]; rfl
  · rw [hs]; rfl
  · exact absurd hs h

/-- The state after PL.DEC of a payload that passes the tests: its parts committed, all the input consumed. -/
def decodedPayload (s : State) : State :=
  { commitPayload (partsOf s) s with ibPtr := s.ibLen, result := BitVec.ofNat 16 (inputLength s), code := 0x00#8 }

theorem plDec_guarded (op : Byte) {s : State} (hc : s.params.constraintsHold = true) :
    Guarded (.plDec op) (0x52#8 ++ op) (op = 0) s
      ((s.ibValid = 0 → EndsWith (.plDec op) 0x11#8 s)
      ∧ (s.ibValid = 1 → inputStatus s ≠ 0x00#8 → EndsWith (.plDec op) (inputStatus s) s)
      ∧ (s.ibValid = 1 → inputStatus s = 0x00#8 → exec (.plDec op) s = .next (decodedPayload s))) := by
  have hlen : (available s).length = inputLength s := length_available s
  have hparse := parse_eq s (start_ne_progress hc)
  refine guarded rfl rfl (operandNone_iff op) (fun _ _ h => ⟨fun hv => ?_, fun hv hbad => ?_, fun hv hgood => ?_⟩)
  · rw [EndsWith, h, if_pos hv]; rfl
  · rw [EndsWith, h, if_neg (ne_zero_of_one hv), hparse.trans (if_neg hbad)]
    exact congrArg (fun c => Host.Outcome.next { s with code := c }) (code_statusOf hbad)
  · rw [h, if_neg (ne_zero_of_one hv), hparse.trans (if_pos hgood), hlen]; rfl

/-! ### The parts of the payload at the cursor -/

section
variable (s : State)

theorem partsOf_ctl : (partsOf s).ctl = inputBytes s 0 1 := (inputBytes_eq s 0 1).symm

theorem partsOf_headers :
    (partsOf s).headers = (List.range (inputBhc s)).map (fun i => inputBytes s (1 + 4 * i) 4) := by
  simp only [partsOf, inputBytes_eq, Nat.add_assoc]

theorem partsOf_pkt : (partsOf s).pkt = inputBytes s (inputPkt s) 4 := (inputBytes_eq s _ 4).symm

theorem partsOf_rest : (partsOf s).rest = inputBytes s (inputRest s) (inputLength s - inputRest s) :=
  (inputBytes_eq s _ _).symm

variable {s}

theorem partsOf_ptt_start (h : inputType s = s.cfg.ptStart) :
    (partsOf s).ptt = some (inputBytes s (inputPkt s + 4) 8) := by
  rw [inputBytes_eq, ← Nat.add_assoc]; exact if_pos h

theorem partsOf_ptt_other (h : inputType s ≠ s.cfg.ptStart) : (partsOf s).ptt = none := if_neg h

theorem partsOf_voice_progress (h : inputType s = s.cfg.ptProgress) :
    (partsOf s).voice = some (inputByte s (inputPkt s + 4),
      (List.range (inputVbb s)).map (fun j => inputBytes s (inputPkt s + 5 + 14 * j) 14)) := by
  simp only [partsOf, if_pos h, inputBytes_eq, Nat.add_assoc]

theorem partsOf_voice_other (h : inputType s ≠ s.cfg.ptProgress) : (partsOf s).voice = none := if_neg h

end

/-! ### The commit of the parts (R204) -/

section
variable (p : PayloadParts) (s : State)

theorem ctlBytes_commitPayload : ctlBytes (commitPayload p s).hdr = ctlBytes (s.hdr.loadCtl p.ctl) := by
  unfold commitPayload; cases p.voice <;> rfl

theorem pktBytes_commitPayload : pktBytes (commitPayload p s).hdr = pktBytes (s.hdr.loadPkt p.pkt) := by
  unfold commitPayload; cases p.voice <;> rfl

variable {p}

theorem commitPayload_hdr_voice {vbb : Byte} {blocks : List (List Byte)} (h : p.voice = some (vbb, blocks)) :
    (commitPayload p s).hdr = { (s.hdr.loadCtl p.ctl).loadPkt p.pkt with
      pafdLen := BitVec.ofNat 8 p.rest.length, frhPresent := 1, frhVbb := vbb, vbCnt := vbb } := by
  simp only [commitPayload, h]

theorem commitPayload_hdr_noVoice (h : p.voice = none) :
    (commitPayload p s).hdr = { (s.hdr.loadCtl p.ctl).loadPkt p.pkt with
      pafdLen := BitVec.ofNat 8 p.rest.length, frhPresent := 0, vbCnt := 0 } := by
  simp only [commitPayload, h]

theorem commitPayload_ptt_some {b : List Byte} (h : p.ptt = some b) :
    (commitPayload p s).ptt = { s.ptt.load b with present := 1 } := by
  simp only [commitPayload, h]

theorem commitPayload_ptt_none (h : p.ptt = none) : (commitPayload p s).ptt = { s.ptt with present := 0 } := by
  simp only [commitPayload, h]

theorem commitPayload_vb_voice {vbb : Byte} {blocks : List (List Byte)} (h : p.voice = some (vbb, blocks)) :
    (commitPayload p s).vb = loadVoiceBlocks s.vb 0 blocks := by
  simp only [commitPayload, h]

theorem commitPayload_vb_noVoice (h : p.voice = none) : (commitPayload p s).vb = s.vb := by
  simp only [commitPayload, h]

end

/-! ### The record that PL.DEC leaves (R204) -/

/-- The low `k` bits of a byte, as a slice and as a number. -/
theorem setWidth_extractLsb'_zero (x : Byte) (k : Nat) :
    (x.extractLsb' 0 k).setWidth 8 = BitVec.ofNat 8 (x.toNat % 2 ^ k) := by
  apply BitVec.eq_of_toNat_eq
  simp

/-- The registers of the two blocks that every payload has. -/
theorem loadPkt_loadCtl_parts (s : State) (h : PayloadHeader) :
    (h.loadCtl (partsOf s).ctl).loadPkt (partsOf s).pkt = { h with
      ctlS := (inputByte s 0).extractLsb' 7 1, ctlC := (inputByte s 0).extractLsb' 6 1
      bhCnt := BitVec.ofNat 8 (inputBhc s)
      pktM := (inputByte s (inputPkt s)).extractLsb' 7 1, pktPt := BitVec.ofNat 8 (inputType s)
      pktAux := (inputByte s (inputPkt s + 1) ++ inputByte s (inputPkt s + 2) ++ inputByte s (inputPkt s + 3)).setWidth
        32 } := by
  have hctl : (partsOf s).ctl = [inputByte s 0] := partsOf_ctl s
  have hpkt : (partsOf s).pkt = [inputByte s (inputPkt s), inputByte s (inputPkt s + 1), inputByte s (inputPkt s + 2),
    inputByte s (inputPkt s + 3)] := partsOf_pkt s
  rw [hctl, hpkt, loadCtl_eq, loadPkt_eq, setWidth_extractLsb'_zero, setWidth_extractLsb'_zero]
  rfl

theorem decodedPayload_hdr (s : State) : (decodedPayload s).hdr = inputHeader s := by
  have hload := loadPkt_loadCtl_parts s s.hdr
  have hrest : (partsOf s).rest.length = inputLength s - inputRest s := length_memRead ..
  by_cases hprog : inputType s = s.cfg.ptProgress
  · have hhdr := commitPayload_hdr_voice s (partsOf_voice_progress hprog)
    rw [hload, hrest] at hhdr
    rw [inputHeader, if_pos hprog]
    exact hhdr
  · have hhdr := commitPayload_hdr_noVoice s (partsOf_voice_other hprog)
    rw [hload, hrest] at hhdr
    rw [inputHeader, if_neg hprog]
    exact hhdr

/-- The PTT file of a START payload is loaded from the PTT control block. -/
theorem decodedPayload_ptt_start {s : State} (hstart : inputType s = s.cfg.ptStart) :
    (decodedPayload s).ptt = { s.ptt.load (inputBytes s (inputPkt s + 4) 8) with present := 1 } :=
  commitPayload_ptt_some s (partsOf_ptt_start hstart)

theorem decodedPayload_ptt (s : State) : (decodedPayload s).ptt = inputPtt s := by
  by_cases hstart : inputType s = s.cfg.ptStart
  · rw [decodedPayload_ptt_start hstart, inputPtt, if_pos hstart]
    exact congrArg (fun p => { p with present := 1 }) (loadPtt_eq s.ptt _ _ _ _ _ _ _ _)
  · rw [inputPtt, if_neg hstart]
    exact commitPayload_ptt_none s (partsOf_ptt_other hstart)

theorem getD_map_range {α : Type} (f : Nat → α) {n i : Nat} (hi : i < n) (d : α) :
    ((List.range n).map f).getD i d = f i := by
  rw [List.getD_eq_getElem _ _ (by simpa using hi), List.getElem_map, List.getElem_range]

/-- Every slot that exists and is announced is a block header of the payload, every other slot is as before. -/
theorem decodedPayload_bhAt {s : State} (hbhc : inputBhc s ≤ 4) (i : Nat) :
    (decodedPayload s).bhAt i = if i < inputBhc s then bhOfBytes (inputBytes s (1 + 4 * i) 4) else s.bhAt i := by
  have hnbh : Config.nbh = 4 := rfl
  have hslot : (decodedPayload s).bhAt i
      = (setFrom s.bh 0 ((partsOf s).headers.map bhOfBytes)).getD i BlockHeader.reset := rfl
  rw [hslot, getD_setFrom, partsOf_headers, List.map_map, List.length_map, List.length_range]
  by_cases hi : i < inputBhc s
  · rw [if_pos (by omega), if_pos hi, Nat.sub_zero, getD_map_range _ hi, Function.comp_apply]
  · rw [if_neg (by omega), if_neg hi]; rfl

theorem bhOfBytes_inputBytes (s : State) (a : Nat) :
    bhOfBytes (inputBytes s a 4)
      = blockHeaderOf (inputByte s a) (inputByte s (a + 1)) (inputByte s (a + 2)) (inputByte s (a + 3)) :=
  bhOfBytes_eq _ _ _ _

theorem decodedPayload_inputBh {s : State} (hbhc : inputBhc s ≤ 4) (i : Nat) :
    (decodedPayload s).bhAt i = inputBh s i := by
  rw [decodedPayload_bhAt hbhc, inputBh, bhOfBytes_inputBytes, Nat.add_right_comm 1 _ 1,
    Nat.add_right_comm 1 _ 2, Nat.add_right_comm 1 _ 3]

/-- The slot of an announced voice block. -/
theorem decodedPayload_vbAt {s : State} (hprog : inputType s = s.cfg.ptProgress) {j : Nat} (hj : j < inputVbb s)
    (hslots : j < 3) :
    (decodedPayload s).vbAt j
      = { (s.vbAt j).loadFixed (inputBytes s (inputPkt s + 5 + 14 * j) 14) with afdLen := 0 } := by
  have hvb : (decodedPayload s).vb = _ := commitPayload_vb_voice s (partsOf_voice_progress hprog)
  rw [State.vbAt, hvb, getD_loadVoice, if_pos ⟨Nat.zero_le j, by simpa using hj, hslots⟩, Nat.sub_zero,
    getD_map_range _ hj]
  rfl

/-- A slot without a voice block of its own. -/
theorem decodedPayload_vbAt_other {s : State} {j : Nat} (h : ¬ (inputType s = s.cfg.ptProgress ∧ j < inputVbb s)) :
    (decodedPayload s).vbAt j = s.vbAt j := by
  by_cases hprog : inputType s = s.cfg.ptProgress
  · have hj : ¬ j < inputVbb s := fun hj => h ⟨hprog, hj⟩
    have hvb : (decodedPayload s).vb = _ := commitPayload_vb_voice s (partsOf_voice_progress hprog)
    rw [State.vbAt, hvb, getD_loadVoice, List.length_map, List.length_range, if_neg (by omega)]
    rfl
  · have hvb : (decodedPayload s).vb = s.vb := commitPayload_vb_noVoice s (partsOf_voice_other hprog)
    rw [State.vbAt, hvb]
    rfl

theorem decodedPayload_inputSlot (s : State) {j : Nat} (hj : j < 3) : InputSlot s j ((decodedPayload s).vbAt j) := by
  unfold InputSlot
  by_cases h : inputType s = s.cfg.ptProgress ∧ j < inputVbb s
  · obtain ⟨hprog, hvbb⟩ := h
    rw [if_pos ⟨hprog, hvbb⟩, decodedPayload_vbAt hprog hvbb hj, loadFixed_eq]
    exact ⟨_, laid_memWrite _ _ _, rfl⟩
  · rw [if_neg h, decodedPayload_vbAt_other h]

/-- Settles O59: the tests are those of the parse, and the parts committed are the record that the bytes stand for. -/
theorem plDecOutcomes : Obligations.PlDecOutcomes := by
  intro op s hc
  obtain ⟨hword, hlatched, hmalformed, hbody⟩ := plDec_guarded op hc
  refine ⟨hword, hlatched, hmalformed, fun hf hop => ?_⟩
  obtain ⟨hnull, hstops, hok⟩ := hbody hf hop
  refine ⟨hnull, hstops, fun hv h0 => ?_⟩
  obtain ⟨hbhc, -⟩ := of_inputStatus_ok h0
  refine ⟨(decodedPayload s).bh, (decodedPayload s).vb, (decodedPayload s).pafd,
    fun i _ => decodedPayload_inputBh hbhc i, fun _ hj => decodedPayload_inputSlot s hj, ?_, ?_⟩
  · rw [← partsOf_rest]; exact laid_memWrite s.pafd 0 (partsOf s).rest
  · rw [hok hv h0, ← decodedPayload_hdr, ← decodedPayload_ptt]; rfl

/-! ### The record that PL.DEC leaves is well-formed (R204) -/

section
variable (s : State)

theorem inputHeader_bhCnt : (inputHeader s).bhCnt = BitVec.ofNat 8 (inputBhc s) := by
  unfold inputHeader; split <;> rfl

theorem inputHeader_pktPt : (inputHeader s).pktPt = BitVec.ofNat 8 (inputType s) := by
  unfold inputHeader; split <;> rfl

theorem inputHeader_pafdLen : (inputHeader s).pafdLen = BitVec.ofNat 8 (inputLength s - inputRest s) := by
  unfold inputHeader; split <;> rfl

variable {s}

theorem inputHeader_progress (h : inputType s = s.cfg.ptProgress) :
    (inputHeader s).frhPresent = 1 ∧ (inputHeader s).frhVbb = inputByte s (inputPkt s + 4)
      ∧ (inputHeader s).vbCnt = inputByte s (inputPkt s + 4) := by
  rw [inputHeader, if_pos h]; exact ⟨rfl, rfl, rfl⟩

theorem inputHeader_other (h : inputType s ≠ s.cfg.ptProgress) :
    (inputHeader s).frhPresent = 0 ∧ (inputHeader s).vbCnt = 0 := by
  rw [inputHeader, if_neg h]; exact ⟨rfl, rfl⟩

end

/-- The packet type of the record that PL.DEC leaves is the payload's. -/
theorem decodedPayload_type (s : State) : (decodedPayload s).hdr.pktPt.toNat % 128 = inputType s := by
  have hlt : inputType s < 128 := Nat.mod_lt _ (by decide)
  rw [decodedPayload_hdr, inputHeader_pktPt, BitVec.toNat_ofNat]
  omega

theorem decodedPayload_present_iff (s : State) : (decodedPayload s).ptt.present = 1 ↔ inputType s = s.cfg.ptStart := by
  rw [decodedPayload_ptt, inputPtt]
  by_cases hstart : inputType s = s.cfg.ptStart
  · simp [hstart]
  · simp [hstart]

theorem decodedPayload_bhCnt {s : State} (hbhc : inputBhc s ≤ 4) : (decodedPayload s).hdr.bhCnt.toNat = inputBhc s := by
  rw [decodedPayload_hdr, inputHeader_bhCnt, BitVec.toNat_ofNat]
  omega

/-- R204's last sentence on the result. -/
theorem decodedPayload_recordOk {s : State} (h0 : inputStatus s = 0x00#8) : recordOk (decodedPayload s) := by
  obtain ⟨hbhc, hvbb, -, -⟩ := of_inputStatus_ok h0
  have hstarts : recordStarts (decodedPayload s) ↔ inputType s = s.cfg.ptStart := by
    rw [recordStarts, decodedPayload_type]; rfl
  have hprogresses : recordProgresses (decodedPayload s) ↔ inputType s = s.cfg.ptProgress := by
    rw [recordProgresses, decodedPayload_type]; rfl
  rw [recordOk, hstarts, hprogresses, decodedPayload_present_iff, recordBounded, decodedPayload_bhCnt hbhc,
    decodedPayload_hdr]
  by_cases hprog : inputType s = s.cfg.ptProgress
  · obtain ⟨hpresent, hcount, hslots⟩ := inputHeader_progress hprog
    rw [hpresent, hcount, hslots]
    exact ⟨⟨hbhc, hvbb hprog⟩, Iff.rfl, iff_of_true rfl hprog, fun hother => absurd hprog hother, fun _ => rfl⟩
  · obtain ⟨habsent, hslots⟩ := inputHeader_other hprog
    rw [habsent, hslots]
    exact ⟨⟨hbhc, by decide⟩, Iff.rfl, iff_of_false (by decide) hprog, fun _ => rfl, fun h => absurd h hprog⟩

/-! ### Runs of input bytes -/

@[simp] theorem length_inputBytes (s : State) (a n : Nat) : (inputBytes s a n).length = n := by simp [inputBytes]

/-- Two runs of input bytes, one after the other, are one run. -/
theorem inputBytes_append (s : State) {a b m n : Nat} (hb : b = a + m) :
    inputBytes s a m ++ inputBytes s b n = inputBytes s a (m + n) := by
  rw [hb, inputBytes_eq, inputBytes_eq, inputBytes_eq, memRead_add, Nat.add_assoc]

/-- `count` blocks of `k` bytes each, one after the other. -/
theorem inputBytes_blocks (s : State) (a k count : Nat) :
    (List.range count).flatMap (fun i => inputBytes s (a + k * i) k) = inputBytes s a (k * count) := by
  induction count with
  | zero => rfl
  | succ count ih =>
    rw [List.range_succ, List.flatMap_append, ih, List.flatMap_singleton, inputBytes_append s rfl, Nat.mul_succ]

/-! ### Voice blocks whose reserved bits are 0 (R185, R205 d) -/

/-- The status byte of a voice block is its fields, if its reserved bits are 0. -/
theorem statusByte_of_reserved {x : Byte} (h : x.extractLsb' 2 3 = 0) :
    ((x.extractLsb' 5 3).setWidth 8).extractLsb' 0 3 ++ 0#3 ++ x.extractLsb' 1 1 ++ x.extractLsb' 0 1 = x := by
  have hx := x.isLt
  have hreserved : (x.extractLsb' 2 3).toNat = 0 := by rw [h]; rfl
  apply BitVec.eq_of_toNat_eq
  simp only [toNat_append_add, BitVec.extractLsb'_toNat, BitVec.toNat_setWidth, BitVec.toNat_ofNat,
    Nat.shiftRight_eq_div_pow] at hreserved ⊢
  omega

/-- The super-frame byte of a voice block is its field, if its reserved bits are 0. -/
theorem superFrameByte_of_reserved : ∀ {x : Byte}, x &&& 0xF3 = 0 →
    0#4 ++ ((x.extractLsb' 2 2).setWidth 8).extractLsb' 0 2 ++ 0#2 = x := by decide

/-- Encoding the fields of a voice block whose reserved bits are 0 gives the block. -/
theorem frvFixed_loadFixed (v : VoiceSlot) {c : List Byte} (hc : c.length = 11) (ft : Byte) {status superFrame : Byte}
    (hstatus : status.extractLsb' 2 3 = 0) (hsuper : superFrame &&& 0xF3 = 0) :
    frvFixed (v.loadFixed (ft :: (c ++ [status, superFrame]))) = ft :: (c ++ [status, superFrame]) := by
  have hcodeword : slice (ft :: (c ++ [status, superFrame])) 1 11 = c := List.take_left' hc
  have h12 : byteAt (ft :: (c ++ [status, superFrame])) 12 = status := by
    simp [byteAt, List.getD_eq_getElem?_getD, hc]
  have h13 : byteAt (ft :: (c ++ [status, superFrame])) 13 = superFrame := by
    simp [byteAt, List.getD_eq_getElem?_getD, hc]
  rw [loadFixed_eq, hcodeword, h12, h13, frvFixed_eq]
  dsimp only
  rw [memRead_memWrite _ _ hc, statusByte_of_reserved hstatus, superFrameByte_of_reserved hsuper]
  rfl

/-! ### Encoding the decoded record (R205 d) -/

/-- The reserved bits of the announced voice blocks are 0. -/
def ReservedBitsZero (s : State) : Prop :=
  inputType s = s.cfg.ptProgress → ∀ j, j < inputVbb s →
    (inputVoice s j 12).extractLsb' 2 3 = 0 ∧ (inputVoice s j 13) &&& 0xF3 = 0

section
variable (s : State)

theorem wireCtl_decodedPayload : wireCtl (decodedPayload s).hdr = inputBytes s 0 1 := by
  calc wireCtl (decodedPayload s).hdr
    _ = ctlBytes (decodedPayload s).hdr := (ctlBytes_eq _).symm
    _ = ctlBytes (s.hdr.loadCtl (partsOf s).ctl) := ctlBytes_commitPayload (partsOf s) s
    _ = inputBytes s 0 1 := by rw [partsOf_ctl, ctlBytes_loadCtl _ (length_inputBytes s 0 1)]

theorem wirePkt_decodedPayload : wirePkt (decodedPayload s).hdr = inputBytes s (inputPkt s) 4 := by
  calc wirePkt (decodedPayload s).hdr
    _ = pktBytes (decodedPayload s).hdr := (pktBytes_eq _).symm
    _ = pktBytes (s.hdr.loadPkt (partsOf s).pkt) := pktBytes_commitPayload (partsOf s) s
    _ = inputBytes s (inputPkt s) 4 := by rw [partsOf_pkt, pktBytes_loadPkt _ (length_inputBytes s _ 4)]

variable {s}

theorem wirePtt_decodedPayload (hstart : inputType s = s.cfg.ptStart) :
    wirePtt (decodedPayload s).ptt = inputBytes s (inputPkt s + 4) 8 := by
  calc wirePtt (decodedPayload s).ptt
    _ = pttBytes (s.ptt.load (inputBytes s (inputPkt s + 4) 8)) := by rw [decodedPayload_ptt_start hstart, pttBytes_eq]; rfl
    _ = inputBytes s (inputPkt s + 4) 8 := pttBytes_load _ (length_inputBytes s _ 8)

theorem wireBh_decodedPayload (hbhc : inputBhc s ≤ 4) :
    (List.range (decodedPayload s).hdr.bhCnt.toNat).flatMap (fun i => wireBh ((decodedPayload s).bhAt i))
      = inputBytes s 1 (4 * inputBhc s) := by
  rw [decodedPayload_bhCnt hbhc, ← inputBytes_blocks]
  refine List.flatMap_congr (fun i hi => ?_)
  rw [decodedPayload_bhAt hbhc, if_pos (List.mem_range.mp hi), wireBh, ← bhBytes_eq,
    bhBytes_bhOfBytes (length_inputBytes s _ 4)]

theorem wireVoice_decodedPayload (hprog : inputType s = s.cfg.ptProgress) (hvbb : inputVbb s ≤ 3)
    (hreserved : ReservedBitsZero s) {j : Nat} (hj : j < inputVbb s) :
    wireVoice ((decodedPayload s).vbAt j)
        ++ memRead ((decodedPayload s).vbAt j).afd 0 ((decodedPayload s).vbAt j).afdLen.toNat
      = inputBytes s (inputPkt s + 5 + 14 * j) 14 := by
  obtain ⟨hstatus, hsuper⟩ := hreserved hprog j hj
  rw [decodedPayload_vbAt hprog hj (by omega), ← frvFixed_eq_wireVoice]
  exact (List.append_nil _).trans
    (frvFixed_loadFixed _ (length_inputBytes s (inputPkt s + 5 + 14 * j + 1) 11) _ hstatus hsuper)

/-- The voice part: the bundling count and the voice blocks. -/
theorem voicePart_decodedPayload (hprog : inputType s = s.cfg.ptProgress) (hvbb : inputVbb s ≤ 3)
    (hreserved : ReservedBitsZero s) :
    [(decodedPayload s).hdr.frhVbb] ++ (List.range (decodedPayload s).hdr.vbCnt.toNat).flatMap (fun j =>
        wireVoice ((decodedPayload s).vbAt j)
          ++ memRead ((decodedPayload s).vbAt j).afd 0 ((decodedPayload s).vbAt j).afdLen.toNat)
      = inputBytes s (inputPkt s + 4) (1 + 14 * inputVbb s) := by
  obtain ⟨-, hcount, hslots⟩ := inputHeader_progress hprog
  rw [decodedPayload_hdr, hcount, hslots, ← inputBytes_append s rfl, ← inputBytes_blocks]
  refine congrArg _ (List.flatMap_congr (fun j hj => ?_))
  exact wireVoice_decodedPayload hprog hvbb hreserved (List.mem_range.mp hj)

theorem pafd_decodedPayload (hrest : inputLength s - inputRest s ≤ 64) :
    memRead (decodedPayload s).pafd 0 (decodedPayload s).hdr.pafdLen.toNat
      = inputBytes s (inputRest s) (inputLength s - inputRest s) := by
  have hlen : (decodedPayload s).hdr.pafdLen.toNat = inputLength s - inputRest s := by
    rw [decodedPayload_hdr, inputHeader_pafdLen, BitVec.toNat_ofNat]; omega
  rw [hlen, ← partsOf_rest]
  exact memRead_memWrite _ _ (length_memRead _ _ _)

end

/-- What PL.ENC writes of a decoded record is the payload that was decoded. -/
theorem recordBytes_decodedPayload {s : State} (hne : s.cfg.ptStart ≠ s.cfg.ptProgress)
    (h0 : inputStatus s = 0x00#8) (hreserved : ReservedBitsZero s) :
    recordBytes (decodedPayload s) = inputBytes s 0 (inputLength s) := by
  obtain ⟨hbhc, hvbb, hparts, hrest⟩ := of_inputStatus_ok h0
  have hcfg : (decodedPayload s).cfg = s.cfg := rfl
  have hpkt : inputPkt s = 1 + 4 * inputBhc s := rfl
  have hhead : inputBytes s 0 1 ++ inputBytes s 1 (4 * inputBhc s) ++ inputBytes s (inputPkt s) 4
      = inputBytes s 0 (inputPkt s + 4) := by
    rw [inputBytes_append s rfl, inputBytes_append s (by omega), hpkt]
  rw [recordBytes, wireCtl_decodedPayload, wireBh_decodedPayload hbhc, wirePkt_decodedPayload, hhead,
    pafd_decodedPayload hrest, decodedPayload_type, hcfg]
  by_cases hstart : inputType s = s.cfg.ptStart
  · have hprog : inputType s ≠ s.cfg.ptProgress := hstart ▸ hne
    have hend : inputRest s = inputPkt s + 4 + 8 := by rw [inputRest, if_pos hstart]
    rw [if_pos hstart, if_neg hprog, wirePtt_decodedPayload hstart, List.append_nil, inputBytes_append s (by omega),
      inputBytes_append s (by omega)]
    congr 1; omega
  · by_cases hprog : inputType s = s.cfg.ptProgress
    · have hend : inputRest s = inputPkt s + 4 + (1 + 14 * inputVbb s) := by
        rw [inputRest, if_neg hstart, if_pos hprog]
      rw [if_neg hstart, if_pos hprog, voicePart_decodedPayload hprog (hvbb hprog) hreserved, List.append_nil,
        inputBytes_append s (by omega), inputBytes_append s (by omega)]
      congr 1; omega
    · have hend : inputRest s = inputPkt s + 4 := by rw [inputRest, if_neg hstart, if_neg hprog]
      rw [if_neg hstart, if_neg hprog, List.append_nil, List.append_nil, inputBytes_append s (by omega)]
      congr 1; omega

/-- PL.DEC ends OK only for a payload that passes its tests. -/
theorem decodedPayload_of_ok {s t : State} (hc : s.params.constraintsHold = true) (hf : s.fault = 0)
    (hexec : exec (.plDec 0) s = .next t) (hok : t.code = 0x00#8) : inputStatus s = 0x00#8 ∧ t = decodedPayload s := by
  obtain ⟨hnull, hstops, hdecodes⟩ := body_of_guarded (plDec_guarded 0 hc) hf rfl
  rcases bit_cases s.ibValid with hv | hv
  · exact absurd (hok.symm.trans (code_of_endsWith (hnull hv) hexec)) (by decide)
  · by_cases h0 : inputStatus s = 0x00#8
    · cases hexec.symm.trans (hdecodes hv h0)
      exact ⟨h0, rfl⟩
    · exact absurd ((code_of_endsWith (hstops hv h0) hexec).symm.trans hok) h0

/-- Settles O60: the record is the payload's parts committed, whose bytes are the payload. -/
theorem decodedPayloadsEncodeBack : Obligations.DecodedPayloadsEncodeBack := by
  intro s t hc hf hexec hok
  obtain ⟨h0, rfl⟩ := decodedPayload_of_ok hc hf hexec hok
  have hwf := decodedPayload_recordOk h0
  refine ⟨hwf, fun hreserved hv hroom => ?_⟩
  have hbytes := recordBytes_decodedPayload (start_ne_progress hc) h0 hreserved
  have hsize : recordSize (decodedPayload s) = inputLength s := by
    rw [← length_recordBytes _ hwf, hbytes, length_inputBytes]
  obtain ⟨-, happends⟩ := plEnc_room (s := decodedPayload s) hf hv hwf (by rw [hsize]; exact hroom)
  rwa [hbytes] at happends

end Sys2Proof.Payload
end

section
/-! SUPPORT. O23: how an instruction moves the two cursors (R224). The one idea: a meaning either ends with a status other than
OK on a state whose cursors are those before it, or ends OK on a state whose cursors have moved by a known amount. `Moves` says
so; each shared operation of the model has it, and each instruction has it by the operations it is written with. No sum of a
cursor and an amount wraps in 9 bits, since the check before the move bounds it by a 9-bit limit register. -/

namespace Sys2Proof.Cursors

open Sys2Proof.Machine Sys2Proof.Claims

/-! ### How the cursors of two states differ -/

/-- Neither cursor moves. -/
def Stays (s t : State) : Prop := t.ibPtr = s.ibPtr ∧ t.obPtr = s.obPtr

/-- The write cursor alone moves, past `n` bytes. -/
def Writes (n : Nat) (s t : State) : Prop := t.ibPtr = s.ibPtr ∧ t.obPtr.toNat = s.obPtr.toNat + n

/-- The read cursor alone moves, past `n` bytes. -/
def Reads (n : Nat) (s t : State) : Prop := t.ibPtr.toNat = s.ibPtr.toNat + n ∧ t.obPtr = s.obPtr

/-- The read cursor alone moves, to the end of the input. -/
def ReadsAll (s t : State) : Prop := t.ibPtr = s.ibLen ∧ t.obPtr = s.obPtr

/-- The write cursor alone moves, to byte `p`. -/
def SeeksTo (p : BitVec 9) (s t : State) : Prop := t.ibPtr = s.ibPtr ∧ t.obPtr = p

/-- Both cursors move to byte 0. -/
def Rewinds (_ t : State) : Prop := t.ibPtr = 0 ∧ t.obPtr = 0

/-- With a status other than OK no cursor has moved, with OK they have moved as `r` says. -/
def Moves (r : State → State → Prop) (s t : State) : Prop :=
  (t.code ≠ 0x00#8 → Stays s t) ∧ (t.code = 0x00#8 → r s t)

theorem code_eq_zero_iff (c : Status) : c.code = 0x00#8 ↔ c = .ok := by
  cases c <;> decide

theorem faultCode_ne_zero (f : FaultCause) : f.code ≠ 0x00#8 := by
  cases f <;> decide

/-- A sum that a 9-bit limit bounds does not wrap. -/
theorem toNat_cursor {n : Nat} {limit : BitVec 9} (h : n ≤ limit.toNat) : (BitVec.ofNat 9 n).toNat = n := by
  rw [BitVec.toNat_ofNat]; omega

/-! ### The shared operations -/

section
variable {r : State → State → Prop} {s t : State}

/-- An unsuccessful end, of which R230 lets only DROPPED write a register before it. -/
theorem moves_failed_of_stays {c : Status} {u : State} (hc : c ≠ .ok) (hu : Stays s u) : Moves r s (endWith c u) :=
  ⟨fun _ => hu, fun hok => absurd ((code_eq_zero_iff c).mp hok) hc⟩

theorem moves_failed {c : Status} (hc : c ≠ .ok) : Moves r s (endWith c s) := moves_failed_of_stays hc ⟨rfl, rfl⟩

theorem moves_raiseFault (f : FaultCause) (cmd : CmdWord) : Moves r s (raiseFault f cmd s) :=
  ⟨fun _ => ⟨rfl, rfl⟩, fun hok => absurd hok (faultCode_ne_zero f)⟩

theorem moves_of_ok (hok : t.code = 0x00#8) (h : r s t) : Moves r s t := ⟨fun hne => absurd hok hne, fun _ => h⟩

/-- A command: the common checks (R240) and a rest. -/
theorem moves_command {ok : Bool} {rest : State} (h : Host.Outcome.next (commonChecks ok s rest) = (.next t : Answer))
    (hrest : ok = true → Moves r s rest) : Moves r s t := by
  obtain rfl : commonChecks ok s rest = t := Host.Outcome.next.inj h
  rcases commonChecks_cases ok s rest with ⟨-, he⟩ | ⟨-, -, he⟩ | ⟨-, hok, he⟩ <;> rw [he]
  · exact moves_failed (by decide)
  · exact moves_failed (by decide)
  · exact hrest hok

theorem writes_emit {b : List Byte} (hroom : s.obPtr.toNat + b.length ≤ s.obCap.toNat) :
    Writes b.length s (emit b s) := ⟨rfl, toNat_cursor hroom⟩

theorem moves_emitIfRoom (b : List Byte) : Moves (Writes b.length) s (emitIfRoom b s) := by
  rcases emitIfRoom_cases b s with ⟨-, he⟩ | ⟨hroom, he⟩ <;> rw [he]
  · exact moves_failed (by decide)
  · exact moves_of_ok rfl (writes_emit hroom)

theorem moves_encFixed (cmd : CmdWord) (b : List Byte) : Moves (Writes b.length) s (encFixed cmd b s) := by
  rcases encFixed_cases cmd b s with ⟨-, he⟩ | ⟨-, -, he⟩ | ⟨-, hroom, he⟩ <;> rw [he]
  · exact moves_raiseFault _ _
  · exact moves_failed (by decide)
  · exact moves_of_ok rfl (writes_emit hroom)

/-- A load leaves the status and the cursors to `DecFixed`. -/
def KeepsCursors (k : List Byte → State → State) : Prop := ∀ b u, (k b u).code = u.code ∧ Stays u (k b u)

theorem moves_decFixed (n : Nat) {k : List Byte → State → State} (hk : KeepsCursors k) :
    Moves (Reads n) s (decFixed n s k) := by
  rcases decFixed_cases n s k with ⟨-, he⟩ | ⟨-, -, he⟩ | ⟨-, hthere, he⟩ <;> rw [he]
  · exact moves_failed (by decide)
  · exact moves_failed (by decide)
  · obtain ⟨hcode, hib, hob⟩ := hk (memRead s.ib s.ibPtr.toNat n) (consume n s)
    exact moves_of_ok hcode ⟨by rw [hib, consume_ibPtr, toNat_cursor hthere], by rw [hob, consume_obPtr]⟩

theorem recordAtCursor_error {c : Status} (h : recordAtCursor s = .error c) : c ≠ .ok := by
  rcases recordAtCursor_cases s with ⟨-, he⟩ | ⟨-, -, he⟩ | ⟨-, -, he⟩ <;> cases h.symm.trans he <;> decide

/-! ### The forms of a command -/

/-- The common checks, then what always ends OK. -/
theorem moves_unconditional {ok : Bool} {rest : State}
    (h : Host.Outcome.next (commonChecks ok s (endWith .ok rest)) = (.next t : Answer)) (hr : r s (endWith .ok rest)) :
    Moves r s t :=
  moves_command h (fun _ => moves_of_ok rfl hr)

/-- The common checks, then `EncFixed` of `n` bytes. -/
theorem moves_encoder {ok : Bool} {cmd : CmdWord} {b : List Byte} {n : Nat}
    (h : Host.Outcome.next (commonChecks ok s (encFixed cmd b s)) = (.next t : Answer)) (hlen : b.length = n) :
    Moves (Writes n) s t :=
  moves_command h (fun _ => hlen ▸ moves_encFixed cmd b)

/-- The common checks, then `DecFixed` of `n` bytes. -/
theorem moves_decoder {ok : Bool} {n : Nat} {k : List Byte → State → State}
    (h : Host.Outcome.next (commonChecks ok s (decFixed n s k)) = (.next t : Answer)) (hk : KeepsCursors k) :
    Moves (Reads n) s t :=
  moves_command h (fun _ => moves_decFixed n hk)

/-- An encoder that tests its input between the target buffer and the room for its `n` bytes. -/
theorem moves_testedEncoder {ok : Bool} {cmd : CmdWord} {test : Prop} [Decidable test] {b : List Byte} {c : Status} {n : Nat}
    (h : Host.Outcome.next (commonChecks ok s
      (if s.obValid = 0 then raiseFault .nullBuf cmd s else if test then emitIfRoom b s else endWith c s)) = (.next t : Answer))
    (hc : c ≠ .ok) (hlen : test → b.length = n) : Moves (Writes n) s t := by
  refine moves_command h (fun _ => ?_)
  split
  · exact moves_raiseFault _ _
  · split
    · next htest => exact hlen htest ▸ moves_emitIfRoom b
    · exact moves_failed hc

/-- A command on the record at the read cursor, which it does not move past. -/
theorem moves_record {ok : Bool} {k : List Byte → State}
    (h : Host.Outcome.next (commonChecks ok s (match recordAtCursor s with
      | .error c => endWith c s
      | .ok rec => k rec)) = (.next t : Answer))
    (hk : ∀ rec, Moves Stays s (k rec)) : Moves Stays s t := by
  refine moves_command h (fun _ => ?_)
  split
  · next he => exact moves_failed (recordAtCursor_error he)
  · exact hk _

/-! ### The bit-packer and the system commands -/

theorem execReset_moves {op : Byte} (h : execReset op s = .next t) : Moves Rewinds s t := by
  by_cases hop : op = 0
  · subst hop
    cases h
    exact moves_of_ok rfl ⟨rfl, rfl⟩
  · rw [MalformedWords.execReset_eq_commonChecks op s hop] at h
    exact moves_command h (fun hnone => absurd ((operandNone_iff op).mp hnone) hop)

theorem execBpPack_moves {op : Byte} (h : execBpPack op s = .next t) : Moves (Writes (fieldTotal s.bp / 8)) s t :=
  moves_testedEncoder h (by decide) (fun _ => by rw [pack_fields, BitPacking.length_bigEndian])

theorem execBpUnpack_moves {op : Byte} (h : execBpUnpack op s = .next t) : Moves (Reads (fieldTotal s.bp / 8)) s t := by
  refine moves_command h (fun _ => ?_)
  split
  · exact moves_failed (by decide)
  · split
    · exact moves_decFixed _ (fun _ _ => ⟨rfl, rfl, rfl⟩)
    · exact moves_failed (by decide)

/-! ### Sub-frames -/

/-- A sub-frame format moves the read cursor past the length of its type. -/
theorem execVoice_moves {ft : Nat} {upd : CallData → CallData} {c : List Byte} (hft : isFrameType ft)
    (h : execVoice ft upd c s = .next t) : Moves (Reads (sfLength ft)) s t := by
  refine moves_command h (fun _ => ?_)
  rw [sfLen_eq _ hft]
  split
  · exact moves_failed (by decide)
  · split
    · exact moves_failed (by decide)
    · next hroom =>
      rw [unpackSubFrame, sfLen_eq _ hft]
      exact moves_of_ok rfl ⟨toNat_cursor (Nat.not_lt.mp hroom), rfl⟩

theorem execDfsiEnc_moves {ft : Byte} (h : execDfsiEnc ft s = .next t) : Moves (Writes (sfLength ft.toNat)) s t := by
  refine moves_testedEncoder h (by decide) (fun hvalid => ?_)
  have hft := (validFrameType_iff ft).mp hvalid
  rw [subFrame_eq _ hft]
  exact SubFrames.length_encodedBytes hft s

theorem subFrameStatus_ne_ok (e : DecodeError) : subFrameStatus e ≠ .ok := by
  cases e <;> exact nofun

/-- What DFSI.DEC does with the format that decoding the available bytes answers. -/
theorem execSubFrame_moves {v : Instr} (hd : decodeSubFrame (available s) = .ok v) (h : execSubFrame v s = .next t) :
    Moves (Reads (sfLength (inputByte s 0).toNat)) s t := by
  obtain ⟨hft, hlen, hv⟩ := decodeSubFrame_ok hd
  have hlt : s.ibPtr.toNat < s.ibLen.toNat := by
    have hpos := (sfLength_pos _).trans_le hlen
    rw [length_available] at hpos
    omega
  obtain ⟨w, hw, hact⟩ := voiceOfBytes_some hft (available s)
  obtain rfl : v = w := Option.some.inj (hv.symm.trans hw)
  rw [(hact s).2, (hact s).1] at h
  rw [← getD_available s hlt]
  exact execVoice_moves hft h

theorem execDfsiDec_moves {op : Byte} (h : execDfsiDec op s = .next t) :
    Moves (Reads (sfLength (inputByte s 0).toNat)) s t := by
  unfold execDfsiDec at h
  split at h
  · cases h; exact moves_failed (by decide)
  · split at h
    · split at h
      · cases h; exact moves_failed (by decide)
      · split at h
        · cases h; exact moves_failed (subFrameStatus_ne_ok _)
        · next hd => exact execSubFrame_moves hd h
    · cases h; exact moves_failed (by decide)

theorem execDfsiLen_moves {ft : Byte} (h : execDfsiLen ft s = .next t) : Moves Stays s t := by
  refine moves_command h (fun _ => ?_)
  split
  · exact moves_of_ok rfl ⟨rfl, rfl⟩
  · exact moves_failed (by decide)

/-! ### LDU records -/

theorem stays_setLdu (k : BitVec 2) (m : Memory) : Stays s (s.setLdu k m) := by
  unfold State.setLdu
  split <;> exact ⟨rfl, rfl⟩

theorem execLduCheck_moves {k j : BitVec 2} {i : BitVec 4} (h : execLduCheck k j i s = .next t) : Moves Stays s t := by
  refine moves_record h (fun rec => ?_)
  split
  · exact moves_of_ok rfl ⟨rfl, rfl⟩
  · exact moves_failed_of_stays (by decide) ⟨rfl, rfl⟩

theorem execLduReasm_moves {k j : BitVec 2} {i : BitVec 4} (h : execLduReasm k j i s = .next t) : Moves Stays s t := by
  refine moves_record h (fun rec => ?_)
  split
  · exact moves_of_ok rfl (stays_setLdu k _)
  · exact moves_failed_of_stays (by decide) ⟨rfl, rfl⟩

theorem execLduCompose_moves {k j : BitVec 2} {i : BitVec 4} (h : execLduCompose k j i s = .next t) :
    Moves (SeeksTo 178) s t := by
  refine moves_command h (fun hop => ?_)
  obtain ⟨hk, -, -⟩ := (operandSelK_iff k j i).mp hop
  rw [Invariance.composedLength_eq hk]
  dsimp only
  split
  · exact moves_raiseFault _ _
  · split
    · exact moves_raiseFault _ _
    · split
      · exact moves_failed (by decide)
      · exact moves_of_ok rfl ⟨rfl, rfl⟩

theorem execLduEnd_moves {op : Byte} (h : execLduEnd op s = .next t) : Moves Stays s t := by
  refine moves_command h (fun _ => ?_)
  split
  · exact moves_raiseFault _ _
  · split
    · exact moves_raiseFault _ _
    · split
      · exact moves_failed (by decide)
      · exact moves_of_ok rfl ⟨rfl, rfl⟩

/-! ### Voice blocks -/

/-- A voice block is written with its additional frame data or without. -/
def WritesVoice (v : VoiceSlot) (s t : State) : Prop :=
  t.ibPtr = s.ibPtr ∧ (t.obPtr.toNat = s.obPtr.toNat + 14 ∨ t.obPtr.toNat = s.obPtr.toNat + 14 + v.afdLen.toNat)

theorem execFrvEnc_moves {slot : Byte} (h : execFrvEnc slot s = .next t) :
    Moves (WritesVoice (s.vbAt slot.toNat)) s t := by
  refine moves_command h (fun _ => ?_)
  have hfixed := length_frvFixed (s.vbAt slot.toNat)
  have hafd := length_frvAfd (s.vbAt slot.toNat)
  simp only [Config.frvFixedLen]
  split
  · exact moves_failed (by decide)
  · split
    · exact moves_failed (by decide)
    · split
      · obtain ⟨hib, hob⟩ := writes_emit (s := s) (b := frvFixed (s.vbAt slot.toNat) ++ frvAfd (s.vbAt slot.toNat))
          (by rw [List.length_append]; omega)
        refine moves_of_ok rfl ⟨hib, .inr ?_⟩
        rw [hob, List.length_append, hfixed, hafd, Nat.add_assoc]
      · obtain ⟨hib, hob⟩ := writes_emit (s := s) (b := frvFixed (s.vbAt slot.toNat)) (by omega)
        exact moves_of_ok rfl ⟨hib, .inl (by rw [hob, hfixed])⟩

theorem execFrvDec_moves {slot : Byte} (h : execFrvDec slot s = .next t) : Moves ReadsAll s t := by
  refine moves_command h (fun _ => ?_)
  dsimp only
  split
  · exact moves_failed (by decide)
  · split
    · exact moves_failed (by decide)
    · split
      · exact moves_failed (by decide)
      · exact moves_of_ok rfl ⟨rfl, rfl⟩

/-! ### The payload -/

theorem execPlSize_moves {op : Byte} (h : execPlSize op s = .next t) : Moves Stays s t := by
  refine moves_command h (fun _ => ?_)
  split
  · exact moves_of_ok rfl ⟨rfl, rfl⟩
  · exact moves_failed (by decide)

theorem execPlEnc_moves {op : Byte} (h : execPlEnc op s = .next t) : Moves (Writes (recordSize s)) s t := by
  refine moves_command h (fun _ => ?_)
  split
  · exact moves_raiseFault _ _
  · split
    · next hwf =>
      have hlen : (payloadBytes s).length = recordSize s := Invariance.length_payloadBytes hwf
      split
      · exact moves_failed (by decide)
      · next hroom => exact moves_of_ok rfl (hlen ▸ writes_emit (hlen ▸ Nat.not_lt.mp hroom))
    · exact moves_failed (by decide)

end

/-- No error of the computation is the status OK. -/
def ErrorsFail {α : Type} (x : Except Status α) : Prop := ∀ c, x = .error c → c ≠ .ok

section
variable {α β : Type}

theorem errorsFail_ok (a : α) : ErrorsFail (.ok a : Except Status α) := nofun

theorem errorsFail_error {c : Status} (hc : c ≠ .ok) : ErrorsFail (.error c : Except Status α) := by
  rintro _ ⟨⟩
  exact hc

theorem errorsFail_bind {x : Except Status α} {f : α → Except Status β} (hx : ErrorsFail x)
    (hf : ∀ a, ErrorsFail (f a)) : ErrorsFail (x >>= f) := by
  cases x with
  | error c => exact errorsFail_error (hx c rfl)
  | ok a => exact hf a

end

theorem errorsFail_takeBytes (n : Nat) (b : List Byte) : ErrorsFail (takeBytes n b) := by
  unfold takeBytes
  split
  · exact errorsFail_error (by decide)
  · exact errorsFail_ok _

theorem errorsFail_takeBlocks (n count : Nat) (b : List Byte) : ErrorsFail (takeBlocks n count b) := by
  induction count generalizing b with
  | zero => exact errorsFail_ok _
  | succ count ih =>
    exact errorsFail_bind (errorsFail_takeBytes n b) (fun x => errorsFail_bind (ih x.2) (fun _ => errorsFail_ok _))

theorem errorsFail_takePtt (o : Config.OpenParams) (pt : Nat) (b : List Byte) : ErrorsFail (takePtt o pt b) := by
  unfold takePtt
  split
  · exact errorsFail_bind (errorsFail_takeBytes _ b) (fun _ => errorsFail_ok _)
  · exact errorsFail_ok _

theorem errorsFail_takeVoice (o : Config.OpenParams) (pt : Nat) (b : List Byte) : ErrorsFail (takeVoice o pt b) := by
  unfold takeVoice
  split
  · refine errorsFail_bind (errorsFail_takeBytes _ b) (fun x => ?_)
    dsimp only
    split
    · exact errorsFail_error (by decide)
    · exact errorsFail_bind (errorsFail_takeBlocks _ _ x.2) (fun _ => errorsFail_ok _)
  · exact errorsFail_ok _

/-- Parsing a payload that fails answers an error status, whatever the packet types are. -/
theorem errorsFail_parsePayload (o : Config.OpenParams) (b : List Byte) : ErrorsFail (parsePayload o b) := by
  refine errorsFail_bind (errorsFail_takeBytes 1 b) (fun ctl => ?_)
  dsimp only
  split
  · exact errorsFail_error (by decide)
  · refine errorsFail_bind (errorsFail_takeBlocks _ _ _) (fun headers => ?_)
    refine errorsFail_bind (errorsFail_takeBytes _ _) (fun pkt => ?_)
    refine errorsFail_bind (errorsFail_takePtt _ _ _) (fun ptt => ?_)
    refine errorsFail_bind (errorsFail_takeVoice _ _ _) (fun voice => ?_)
    split
    · exact errorsFail_error (by decide)
    · exact errorsFail_ok _

theorem execPlDec_moves {op : Byte} {s t : State} (h : execPlDec op s = .next t) : Moves ReadsAll s t := by
  refine moves_command h (fun _ => ?_)
  split
  · exact moves_failed (by decide)
  · split
    · next he => exact moves_failed (errorsFail_parsePayload _ _ _ he)
    · exact moves_of_ok rfl ⟨rfl, rfl⟩

/-! ### Every instruction -/

/-- Settles O23: each instruction has `Moves` by its form; the row of R224's table is the relation that its lemma names. -/
theorem cursorMovement : Obligations.CursorMovement := by
  intro i s t h
  cases i with
  | nop | lduGetImbe | lduToVb | frvSize => exact moves_unconditional (r := Stays) h ⟨rfl, rfl⟩
  | reset => exact execReset_moves h
  | bpPack => exact execBpPack_moves h
  | bpUnpack => exact execBpUnpack_moves h
  | dfsiEnc => exact execDfsiEnc_moves h
  | dfsiDec => exact execDfsiDec_moves h
  | dfsiLen => exact execDfsiLen_moves h
  | lduCheck => exact execLduCheck_moves h
  | lduReasm => exact execLduReasm_moves h
  | lduCompose => exact execLduCompose_moves h
  | lduBegin => exact moves_unconditional (r := SeeksTo 24) h ⟨rfl, rfl⟩
  | lduEnd => exact execLduEnd_moves h
  | ctlEnc => exact moves_encoder h (length_ctlBytes _)
  | bhEnc => exact moves_encoder h (length_bhBytes _)
  | pktEnc => exact moves_encoder h (length_pktBytes _)
  | pttEnc => exact moves_encoder h (length_pttBytes _)
  | frhEnc => exact moves_encoder h rfl
  | ctlDec | bhDec | pktDec | pttDec | frhDec => exact moves_decoder h (fun _ _ => ⟨rfl, rfl, rfl⟩)
  | frvEnc => exact execFrvEnc_moves h
  | frvDec => exact execFrvDec_moves h
  | plSize => exact execPlSize_moves h
  | plEnc => exact execPlEnc_moves h
  | plDec => exact execPlDec_moves h
  | voice1 | voice2 | voice3 | voice4 | voice5 | voice6 | voice7 | voice8 | voice9 | voice10 | voice11 | voice12
  | voice13 | voice14 | voice15 | voice16 | voice17 | voice18 => exact execVoice_moves ⟨by decide, by decide⟩ h

end Sys2Proof.Cursors
end
section
/-! SUPPORT. O24, O14, O19, O10: the two system commands (60_exceptions.md R244, R246), the latch (R243) and the step (R231,
R255). Under the latch every command ends at the first of the common checks; the host's accesses do not look at the latch, and
are the register map and the memory map. -/

namespace Sys2Proof.LatchAndStep

open Sys2Proof.Machine Sys2Proof.Claims

/-! ### NOP and RESET -/

/-- Settles O24: NOP is the common checks and the status OK. -/
theorem nopWritesOnlyTheStatus : Obligations.NopWritesOnlyTheStatus := fun op _ =>
  guarded rfl rfl (operandNone_iff op) (fun _ _ hexec => hexec)

theorem exec_reset_zero (s : State) : exec (.reset 0) s = .next (resetCodec s) := rfl

/-- Settles O14: RESET 0 is the reset event in either state of the latch; any other operand meets the common checks. -/
theorem resetCommandGivesTheResetState : Obligations.ResetCommandGivesTheResetState := by
  intro op s
  have hne (hop : op ≠ 0) : Instr.reset op ≠ .reset 0 := fun h => hop (Instr.reset.inj h)
  refine ⟨rfl, ?_, fun hop hf => MalformedWords.exec_latched (hne hop) hf, fun hop hf => ?_⟩
  · rintro rfl
    rw [exec_reset_zero, resetCodec_eq]
  · have hmalformed : MalformedWords.operandOk (.reset op) = false :=
      Bool.eq_false_iff.mpr (mt (operandNone_iff op).mp hop)
    exact MalformedWords.exec_malformed hmalformed hf

/-! ### The step -/

/-- Every instruction answers a next state: RESET 0 the reset state, any other what follows the common checks. -/
theorem exec_next (i : Instr) (s : State) : ∃ t, exec i s = .next t := by
  by_cases hi : i = .reset 0
  · exact ⟨_, hi ▸ exec_reset_zero s⟩
  · obtain ⟨rest, h⟩ := MalformedWords.exec_eq_commonChecks hi s
    exact ⟨_, h⟩

theorem runWord_next (w : CmdWord) (s : State) : ∃ t, runWord w s = .next t := by
  delta runWord
  cases decodeWord w with
  | ok i => exact exec_next i s
  | error e => exact ⟨_, rfl⟩

theorem step_next (s : State) : ∃ t, step s = .next t := by
  delta step
  cases s.host with
  | nil => exact ⟨_, rfl⟩
  | cons a rest =>
    dsimp only
    cases commandIssued a with
    | some w => exact runWord_next w _
    | none => exact ⟨_, rfl⟩

theorem step_idle {s : State} (h : s.host = []) : step s = .next s := by
  delta step
  rw [h]

/-- Settles O10: the move at the head of the list is a command or an access, and each answers a next state. -/
theorem everyStepAnswersNext : Obligations.EveryStepAnswersNext := fun s => ⟨step_next s, step_idle⟩

/-! ### The latch -/

/-- A write to CMD issues its low 16 bits, whatever its high bits are (R28). -/
theorem step_writeCmd (v : RegData) (s : State) : step (withMove (.writeReg 0 v) s) = runWord (v.setWidth 16) s := rfl

/-- A write to a memory within its length stores the byte, and out of range is ignored (R41). -/
theorem memoryByte_hostWriteMem (id : BitVec 4) (a : BitVec 12) (b : Byte) (s : State) (id' a' : Nat) :
    memoryByte (hostWriteMem id a b s) id' a'
      = if id' = id.toNat ∧ a' = a.toNat ∧ a' < memoryLength id' then b else memoryByte s id' a' := by
  by_cases hin : a.toNat < memoryLength id.toNat
  · have hcond : (id' = id.toNat ∧ a' = a.toNat ∧ a' < memoryLength id') ↔ (id' = id.toNat ∧ a' = a.toNat) :=
      ⟨fun ⟨hid, ha, _⟩ => ⟨hid, ha⟩, fun ⟨hid, ha⟩ => ⟨hid, ha, hid ▸ ha ▸ hin⟩⟩
    rw [MemoryMap.memoryByte_hostWriteMem b s hin]
    simp only [hcond]
  · have hcond : ¬ (id' = id.toNat ∧ a' = a.toNat ∧ a' < memoryLength id') := by
      rintro ⟨rfl, rfl, hlt⟩
      exact hin hlt
    rw [MemoryMap.hostWriteMem_outside b s (Nat.not_lt.mp hin), if_neg hcond]

/-- Settles O19: the first of the common checks refuses every command; the accesses are those of the register map and the
memory map, which hold for every state. -/
theorem latchRefusesAllButReset : Obligations.LatchRefusesAllButReset := by
  intro s hf
  refine ⟨fun v hv => ?_, fun i hi => MalformedWords.exec_latched hi hf, fun index => RegisterMap.step_readReg index s,
    fun id a => MemoryMap.step_readMem id a s, fun index v hindex => ?_, fun id a b => ?_⟩
  · rw [step_writeCmd, MalformedWords.runWord_latched hv hf]
  · exact ⟨_, RegisterMap.step_writeReg hindex v s, RegisterMap.registerValue_hostWriteReg index v s⟩
  · exact ⟨_, RegisterMap.step_withMove rfl s, memoryByte_hostWriteMem id a b s⟩

end Sys2Proof.LatchAndStep
end

section
/-! SUPPORT. O9, O20, O21, O22: how an instruction ends (60_exceptions.md R230 to R232, R240 to R243). The one idea: an
instruction that has passed the common checks either takes the fault that its opcode and the state call for, or completes: OK, or
with a status of its rule's list and nothing written. `Ends` says so; each form of a command has it by the shared operations it
is written with, and the four statements are read off it. -/

namespace Sys2Proof.Endings

open Sys2Proof.Machine Sys2Proof.Claims
open MalformedWords (operandOk)

/-! ### Opcodes (R83) -/

theorem opcodeNumber_of_encode {i : Instr} {w : CmdWord} (h : encode i = .command w) : opcodeNumber i = w.toNat / 256 := by
  delta opcodeNumber
  rw [h]

/-- A sub-frame stands for the DFSI.DEC that reads it (log entry 3). -/
theorem opcodeNumber_of_subFrame {i : Instr} {b : List Byte} (h : encode i = .subFrame b) : opcodeNumber i = 0x21 := by
  delta opcodeNumber
  rw [h]

/-- The opcode of a command is that of its row of R83. -/
theorem opcodeNumber_eq {i : Instr} {b x : Byte} {o : Nat} (he : encode i = .command (wordOf b x)) (ho : b.toNat = o) :
    opcodeNumber i = o := by
  rw [opcodeNumber_of_encode he, ← toNat_opcodeOf, opcodeOf_wordOf, ho]

/-- The opcodes of the commands that fault without a target buffer (R242). -/
abbrev NeedsTarget (o : Nat) : Prop := o ∈ [0x10, 0x20, 0x33, 0x35, 0x40, 0x42, 0x44, 0x46, 0x48, 0x51]

/-! ### The two ways to end -/

/-- When an instruction that has passed the common checks takes a fault (R242). -/
def FaultsOn (i : Instr) (s : State) (f : FaultCause) : Prop :=
  (f = .nullBuf ∧ NeedsTarget (opcodeNumber i) ∧ s.obValid = 0)
  ∨ (f = .overflow ∧ i = .lduEnd 0 ∧ s.obValid = 1 ∧ 255 < s.obPtr.toNat)

/-- A command of opcode `o` without a fault: OK with the latch as before, or a status of its list (R232) and nothing written
but DROPPED's RESULT (R230). -/
def Completes (o : Nat) (s t : State) : Prop :=
  (t.code = 0x00#8 ∧ t.fault = s.fault) ∨ (∃ c : Status, c.code ∈ listedStatuses o ∧ t = endWith c s)
  ∨ (Status.dropped.code ∈ listedStatuses o ∧ t = endWith .dropped (setResult 0 s))

/-- How an instruction that has passed the common checks takes `s` to `t`. -/
def Ends (i : Instr) (s t : State) : Prop :=
  (∃ f, FaultsOn i s f ∧ t = raiseFault f (commandWord i) s)
  ∨ ((∀ f, ¬ FaultsOn i s f) ∧ Completes (opcodeNumber i) s t)

section
variable {i : Instr} {o : Nat} {s t : State}

theorem Completes.ok (hcode : t.code = 0x00#8) (hfault : t.fault = s.fault) : Completes o s t := .inl ⟨hcode, hfault⟩

theorem Completes.failed {c : Status} (hc : c.code ∈ listedStatuses o) : Completes o s (endWith c s) :=
  .inr (.inl ⟨c, hc, rfl⟩)

theorem Completes.dropped (hc : Status.dropped.code ∈ listedStatuses o) :
    Completes o s (endWith .dropped (setResult 0 s)) := .inr (.inr ⟨hc, rfl⟩)

theorem Completes.ite {p : Prop} [Decidable p] {u : State} (ht : Completes o s t) (hu : Completes o s u) :
    Completes o s (if p then t else u) := by
  by_cases hp : p
  · exact if_pos hp ▸ ht
  · exact if_neg hp ▸ hu

theorem Ends.faults {f : FaultCause} (hf : FaultsOn i s f) : Ends i s (raiseFault f (commandWord i) s) := .inl ⟨f, hf, rfl⟩

theorem Ends.completes (ho : opcodeNumber i = o) (hf : ∀ f, ¬ FaultsOn i s f) (hc : Completes o s t) : Ends i s t :=
  .inr ⟨hf, ho ▸ hc⟩

/-- The two faults exclude each other: the check of the target buffer comes first. -/
theorem faultsOn_unique {f g : FaultCause} (hf : FaultsOn i s f) (hg : FaultsOn i s g) : f = g := by
  rcases hf with ⟨rfl, -, h0⟩ | ⟨rfl, -, h1, -⟩ <;> rcases hg with ⟨rfl, -, h0'⟩ | ⟨rfl, -, h1', -⟩
  · rfl
  · exact absurd h0 (ne_zero_of_one h1')
  · exact absurd h0' (ne_zero_of_one h1)
  · rfl

theorem faultsOn_nullBuf_iff : FaultsOn i s .nullBuf ↔ NeedsTarget (opcodeNumber i) ∧ s.obValid = 0 := by
  constructor
  · rintro (⟨-, hneeds⟩ | ⟨hne, -⟩)
    · exact hneeds
    · cases hne
  · exact fun hneeds => .inl ⟨rfl, hneeds⟩

theorem faultsOn_overflow_iff : FaultsOn i s .overflow ↔ i = .lduEnd 0 ∧ s.obValid = 1 ∧ 255 < s.obPtr.toNat := by
  constructor
  · rintro (⟨hne, -⟩ | ⟨-, hend⟩)
    · cases hne
    · exact hend
  · exact fun hend => .inr ⟨rfl, hend⟩

/-! ### The shared operations -/

/-- A command: past the common checks its rest alone acts. -/
theorem rest_of_accepted {ok : Bool} {rest : State} (h : Host.Outcome.next (commonChecks ok s rest) = (.next t : Answer))
    (hf : s.fault = 0) (hok : ok = true) : rest = t := by
  obtain rfl : commonChecks ok s rest = t := Host.Outcome.next.inj h
  rw [hok, commonChecks_accepted _ (ne_one_of_zero hf)]

/-- A command that needs no target buffer takes no fault. -/
theorem ends_of_completes (ho : opcodeNumber i = o) (htarget : ¬ NeedsTarget o) (hc : Completes o s t) : Ends i s t := by
  refine .completes ho (fun f hf => ?_) hc
  have hneeds : NeedsTarget (opcodeNumber i) := by
    rcases hf with ⟨-, hneeds, -⟩ | ⟨-, rfl, -⟩
    · exact hneeds
    · decide
  exact htarget (ho ▸ hneeds)

/-- A command that needs the target buffer, when what it does with one ends as it should. -/
theorem ends_needsTarget {u : State} (ho : opcodeNumber i = o) (htarget : NeedsTarget o)
    (hu : s.obValid = 1 → Ends i s u) :
    Ends i s (if s.obValid = 0 then raiseFault .nullBuf (commandWord i) s else u) := by
  rcases bit_cases s.obValid with h0 | h1
  · rw [if_pos h0]
    exact .faults (faultsOn_nullBuf_iff.mpr ⟨ho ▸ htarget, h0⟩)
  · rw [if_neg (ne_zero_of_one h1)]
    exact hu h1

/-- With a target buffer there is no fault but LDU.END's overflow. -/
theorem ends_of_target (ho : opcodeNumber i = o) (hv : s.obValid = 1)
    (hover : ¬ (i = .lduEnd 0 ∧ 255 < s.obPtr.toNat)) (hc : Completes o s t) : Ends i s t := by
  refine .completes ho (fun f hf => ?_) hc
  rcases hf with ⟨-, -, h0⟩ | ⟨-, hi, -, hlt⟩
  · exact ne_zero_of_one hv h0
  · exact hover ⟨hi, hlt⟩

theorem completes_emit (b : List Byte) : Completes o s (emit b s) := .ok rfl rfl

theorem completes_emitIfRoom (hcap : Status.errCapacity.code ∈ listedStatuses o) (b : List Byte) :
    Completes o s (emitIfRoom b s) := by
  rcases emitIfRoom_cases b s with ⟨-, he⟩ | ⟨-, he⟩ <;> rw [he]
  · exact .failed hcap
  · exact completes_emit b

/-- A load leaves the status and the latch to `DecFixed`. -/
def KeepsStatus (k : List Byte → State → State) : Prop := ∀ b u, (k b u).code = u.code ∧ (k b u).fault = u.fault

theorem completes_decFixed (hnull : Status.errNull.code ∈ listedStatuses o)
    (hshort : Status.errShort.code ∈ listedStatuses o) (n : Nat) {k : List Byte → State → State} (hk : KeepsStatus k) :
    Completes o s (decFixed n s k) := by
  rcases decFixed_cases n s k with ⟨-, he⟩ | ⟨-, -, he⟩ | ⟨-, -, he⟩ <;> rw [he]
  · exact .failed hnull
  · exact .failed hshort
  · obtain ⟨hcode, hfault⟩ := hk (memRead s.ib s.ibPtr.toNat n) (consume n s)
    exact .ok hcode hfault

/-- The record at the cursor is there, or its absence has one of two statuses. -/
theorem recordAtCursor_errors {c : Status} (h : recordAtCursor s = .error c) : c = .errNull ∨ c = .errShort := by
  rcases recordAtCursor_cases s with ⟨-, he⟩ | ⟨-, -, he⟩ | ⟨-, -, he⟩ <;> cases h.symm.trans he
  · exact .inl rfl
  · exact .inr rfl

/-! ### The forms of a command -/

/-- A command that takes no fault, by its row of R83. -/
theorem ends_command {b x : Byte} (hc : Completes o s t) (he : encode i = .command (wordOf b x)) (ho : b.toNat = o)
    (htarget : ¬ NeedsTarget o) : Ends i s t :=
  ends_of_completes (opcodeNumber_eq he ho) htarget hc

/-- With a target buffer a command other than LDU.END takes no fault. -/
theorem ends_of_target_ne (ho : opcodeNumber i = o) (hne : o ≠ 0x35) (hv : s.obValid = 1) (hc : Completes o s t) :
    Ends i s t := by
  refine ends_of_target ho hv (fun hover => hne ?_) hc
  obtain ⟨rfl, -⟩ := hover
  exact ho.symm

/-- `EncFixed`. -/
theorem ends_encFixed {b : List Byte} (ho : opcodeNumber i = o) (htarget : NeedsTarget o) (hne : o ≠ 0x35)
    (hcap : Status.errCapacity.code ∈ listedStatuses o) : Ends i s (encFixed (commandWord i) b s) :=
  ends_needsTarget ho htarget
    (fun hv => ends_of_target_ne ho hne hv (completes_emitIfRoom hcap b))

/-- An encoder that tests its input between the target buffer and the room for its bytes. -/
theorem ends_testedEncoder {test : Prop} [Decidable test] {b : List Byte} {c : Status} (ho : opcodeNumber i = o)
    (htarget : NeedsTarget o) (hne : o ≠ 0x35) (hc : c.code ∈ listedStatuses o)
    (hcap : Status.errCapacity.code ∈ listedStatuses o) :
    Ends i s (if s.obValid = 0 then raiseFault .nullBuf (commandWord i) s
      else if test then emitIfRoom b s else endWith c s) :=
  ends_needsTarget ho htarget
    (fun hv => ends_of_target_ne ho hne hv (.ite (completes_emitIfRoom hcap b) (.failed hc)))

/-! ### The instructions -/

theorem completes_execReset {op : Byte} (h : execReset op s = .next t) (hf : s.fault = 0) (hop : operandNone op = true) :
    Completes 0x0F s t := by
  obtain rfl : op = 0 := (operandNone_iff op).mp hop
  cases h
  exact .ok rfl hf.symm

theorem completes_execBpUnpack {op : Byte} (h : execBpUnpack op s = .next t) (hf : s.fault = 0)
    (hop : operandNone op = true) : Completes 0x11 s t := by
  obtain rfl := rest_of_accepted h hf hop
  exact .ite (.failed (by decide))
    (.ite (completes_decFixed (by decide) (by decide) _ (fun _ _ => ⟨rfl, rfl⟩)) (.failed (by decide)))

/-- A sub-frame format has the statuses of DFSI.DEC (log entry 3). -/
theorem completes_execVoice {ft : Nat} {upd : CallData → CallData} {c : List Byte} (h : execVoice ft upd c s = .next t)
    (hf : s.fault = 0) : Completes 0x21 s t := by
  obtain rfl := rest_of_accepted h hf rfl
  exact .ite (.failed (by decide)) (.ite (.failed (by decide)) (.ok rfl rfl))

theorem subFrameStatus_listed (e : DecodeError) : (subFrameStatus e).code ∈ listedStatuses 0x21 := by
  have hshort : Status.errShort.code ∈ listedStatuses 0x21 := by decide
  have htype : Status.errFrameType.code ∈ listedStatuses 0x21 := by decide
  cases e with
  | noDiscriminant | shortSubFrame => exact hshort
  | invalidFrameType | illegalOpcode => exact htype

/-- What DFSI.DEC does with the format that decoding bytes answers. -/
theorem completes_execSubFrame {f : List Byte} {v : Instr} (hd : decodeSubFrame f = .ok v) (h : execSubFrame v s = .next t)
    (hf : s.fault = 0) : Completes 0x21 s t := by
  obtain ⟨hft, -, hv⟩ := decodeSubFrame_ok hd
  obtain ⟨w, hw, hact⟩ := voiceOfBytes_some hft f
  obtain rfl : v = w := Option.some.inj (hv.symm.trans hw)
  rw [(hact s).2, (hact s).1] at h
  exact completes_execVoice h hf

theorem completes_execDfsiDec {op : Byte} (h : execDfsiDec op s = .next t) (hf : s.fault = 0)
    (hop : operandNone op = true) : Completes 0x21 s t := by
  delta execDfsiDec at h
  rw [if_neg (ne_one_of_zero hf), if_pos hop] at h
  by_cases hib : s.ibValid = 0
  · rw [if_pos hib] at h
    cases h
    exact .failed (by decide)
  · rw [if_neg hib] at h
    cases hd : decodeSubFrame (available s) with
    | error e =>
      rw [hd] at h
      cases h
      exact .failed (subFrameStatus_listed e)
    | ok v =>
      rw [hd] at h
      exact completes_execSubFrame hd h hf

theorem completes_execDfsiLen {ft : Byte} (h : execDfsiLen ft s = .next t) (hf : s.fault = 0) : Completes 0x22 s t := by
  obtain rfl := rest_of_accepted h hf rfl
  exact .ite (.ok rfl rfl) (.failed (by decide))

section
variable {k j : BitVec 2} {n : BitVec 4}

theorem completes_execLduCheck (h : execLduCheck k j n s = .next t) (hf : s.fault = 0) (hop : operandSelK k j n = true) :
    Completes 0x30 s t := by
  obtain rfl := rest_of_accepted h hf hop
  cases hrec : recordAtCursor s with
  | error c =>
    rcases recordAtCursor_errors hrec with rfl | rfl
    · exact .failed (by decide)
    · exact .failed (by decide)
  | ok rec => exact .ite (.ok rfl rfl) (.dropped (by decide))

theorem completes_execLduReasm (h : execLduReasm k j n s = .next t) (hf : s.fault = 0) (hop : operandSelK k j n = true) :
    Completes 0x31 s t := by
  obtain rfl := rest_of_accepted h hf hop
  cases hrec : recordAtCursor s with
  | error c =>
    rcases recordAtCursor_errors hrec with rfl | rfl
    · exact .failed (by decide)
    · exact .failed (by decide)
  | ok rec => exact .ite (.ok rfl (Invariance.setLdu_fault s k _)) (.dropped (by decide))

/-- LDU.COMPOSE never overflows: both logical units compose to 178 bytes. -/
theorem ends_execLduCompose (h : execLduCompose k j n s = .next t) (hf : s.fault = 0) (hop : operandSelK k j n = true) :
    Ends (.lduCompose k j n) s t := by
  obtain rfl := rest_of_accepted h hf hop
  obtain ⟨hk, -, -⟩ := (operandSelK_iff k j n).mp hop
  have ho : opcodeNumber (.lduCompose k j n) = 0x33 := opcodeNumber_eq rfl rfl
  rw [Invariance.composedLength_eq hk]
  refine ends_needsTarget ho (by decide) (fun hv => ends_of_target_ne ho (by decide) hv ?_)
  rw [if_neg (by decide)]
  exact .ite (.failed (by decide)) (.ok rfl rfl)

end

theorem ends_execLduEnd {op : Byte} (h : execLduEnd op s = .next t) (hf : s.fault = 0) (hop : operandNone op = true) :
    Ends (.lduEnd op) s t := by
  obtain rfl := rest_of_accepted h hf hop
  obtain rfl : op = 0 := (operandNone_iff op).mp hop
  have ho : opcodeNumber (.lduEnd 0) = 0x35 := opcodeNumber_eq rfl rfl
  refine ends_needsTarget ho (by decide) (fun hv => ?_)
  by_cases hlt : s.obPtr.toNat > Config.lenMax
  · rw [if_pos hlt]
    exact .faults (faultsOn_overflow_iff.mpr ⟨rfl, hv, hlt⟩)
  · rw [if_neg hlt]
    exact ends_of_target ho hv (fun hover => hlt hover.2) (.ite (.failed (by decide)) (.ok rfl rfl))

theorem completes_execFrvEnc {slot : Byte} (h : execFrvEnc slot s = .next t) (hf : s.fault = 0)
    (hop : operandIdx Config.nvb slot = true) : Completes 0x4A s t := by
  obtain rfl := rest_of_accepted h hf hop
  exact .ite (.failed (by decide)) (.ite (.failed (by decide)) (.ite (completes_emit _) (completes_emit _)))

theorem completes_execFrvDec {slot : Byte} (h : execFrvDec slot s = .next t) (hf : s.fault = 0)
    (hop : operandIdx Config.nvb slot = true) : Completes 0x4B s t := by
  obtain rfl := rest_of_accepted h hf hop
  exact .ite (.failed (by decide)) (.ite (.failed (by decide)) (.ite (.failed (by decide)) (.ok rfl rfl)))

theorem completes_execPlSize {op : Byte} (h : execPlSize op s = .next t) (hf : s.fault = 0)
    (hop : operandNone op = true) : Completes 0x50 s t := by
  obtain rfl := rest_of_accepted h hf hop
  exact .ite (.ok rfl rfl) (.failed (by decide))

theorem ends_execPlEnc {op : Byte} (h : execPlEnc op s = .next t) (hf : s.fault = 0) (hop : operandNone op = true) :
    Ends (.plEnc op) s t := by
  obtain rfl := rest_of_accepted h hf hop
  have ho : opcodeNumber (.plEnc op) = 0x51 := opcodeNumber_eq rfl rfl
  refine ends_needsTarget ho (by decide) (fun hv => ends_of_target_ne ho (by decide) hv ?_)
  exact .ite (.ite (.failed (by decide)) (completes_emit _)) (.failed (by decide))

end

/-! ### The errors of PL.DEC's parsing (R204) -/

/-- Every error of the computation is ERR_SHORT or ERR_CAPACITY. -/
def ParseErrors {α : Type} (x : Except Status α) : Prop := ∀ c, x = .error c → c = .errShort ∨ c = .errCapacity

section
variable {α β : Type}

theorem parseErrors_ok (a : α) : ParseErrors (.ok a : Except Status α) := by
  intro c h
  cases h

theorem parseErrors_short : ParseErrors (.error .errShort : Except Status α) := fun _ h => .inl (Except.error.inj h).symm

theorem parseErrors_capacity : ParseErrors (.error .errCapacity : Except Status α) := fun _ h =>
  .inr (Except.error.inj h).symm

theorem parseErrors_ite {p : Prop} [Decidable p] {x y : Except Status α} (hx : ParseErrors x) (hy : ParseErrors y) :
    ParseErrors (if p then x else y) := by
  by_cases hp : p
  · exact if_pos hp ▸ hx
  · exact if_neg hp ▸ hy

theorem parseErrors_bind {x : Except Status α} {f : α → Except Status β} (hx : ParseErrors x)
    (hf : ∀ a, ParseErrors (f a)) : ParseErrors (x >>= f) := by
  cases x with
  | error c => exact fun d h => hx d (congrArg _ (Except.error.inj h))
  | ok a => exact hf a

end

theorem parseErrors_takeBytes (n : Nat) (b : List Byte) : ParseErrors (takeBytes n b) :=
  parseErrors_ite parseErrors_short (parseErrors_ok _)

theorem parseErrors_takeBlocks (n count : Nat) (b : List Byte) : ParseErrors (takeBlocks n count b) := by
  induction count generalizing b with
  | zero => exact parseErrors_ok _
  | succ count ih =>
    exact parseErrors_bind (parseErrors_takeBytes n b) (fun x => parseErrors_bind (ih x.2) (fun _ => parseErrors_ok _))

theorem parseErrors_takePtt (o : Config.OpenParams) (pt : Nat) (b : List Byte) : ParseErrors (takePtt o pt b) :=
  parseErrors_ite (parseErrors_bind (parseErrors_takeBytes _ b) (fun _ => parseErrors_ok _)) (parseErrors_ok _)

theorem parseErrors_takeVoice (o : Config.OpenParams) (pt : Nat) (b : List Byte) : ParseErrors (takeVoice o pt b) := by
  refine parseErrors_ite (parseErrors_bind (parseErrors_takeBytes _ b) (fun x => ?_)) (parseErrors_ok _)
  exact parseErrors_ite parseErrors_capacity
    (parseErrors_bind (parseErrors_takeBlocks _ _ x.2) (fun _ => parseErrors_ok _))

theorem parseErrors_parsePayload (o : Config.OpenParams) (b : List Byte) : ParseErrors (parsePayload o b) := by
  refine parseErrors_bind (parseErrors_takeBytes 1 b) (fun ctl => parseErrors_ite parseErrors_capacity ?_)
  refine parseErrors_bind (parseErrors_takeBlocks _ _ _) (fun headers => ?_)
  refine parseErrors_bind (parseErrors_takeBytes _ _) (fun pkt => ?_)
  refine parseErrors_bind (parseErrors_takePtt _ _ _) (fun ptt => ?_)
  refine parseErrors_bind (parseErrors_takeVoice _ _ _) (fun voice => ?_)
  exact parseErrors_ite parseErrors_capacity (parseErrors_ok _)

theorem completes_execPlDec {op : Byte} {s t : State} (h : execPlDec op s = .next t) (hf : s.fault = 0)
    (hop : operandNone op = true) : Completes 0x52 s t := by
  obtain rfl := rest_of_accepted h hf hop
  refine .ite (.failed (by decide)) ?_
  cases hparse : parsePayload s.cfg (available s) with
  | error c =>
    rcases parseErrors_parsePayload _ _ c hparse with rfl | rfl
    · exact .failed (by decide)
    · exact .failed (by decide)
  | ok parts => exact .ok rfl rfl

/-! ### Every instruction -/

/-- An instruction whose operand is well-formed, the latch clear. -/
theorem exec_ends {i : Instr} {s t : State} (h : exec i s = .next t) (hf : s.fault = 0) (hop : operandOk i = true) :
    Ends i s t := by
  have hdec : ¬ NeedsTarget 0x21 := by decide
  cases i with
  | nop | lduGetImbe | lduBegin | lduToVb | frvSize =>
    obtain rfl := rest_of_accepted h hf hop
    exact ends_command (.ok rfl rfl) rfl rfl (by decide)
  | ctlEnc | bhEnc | pktEnc | pttEnc | frhEnc =>
    obtain rfl := rest_of_accepted h hf hop
    exact ends_encFixed (opcodeNumber_eq rfl rfl) (by decide) (by decide) (by decide)
  | ctlDec | bhDec | pktDec | pttDec | frhDec =>
    obtain rfl := rest_of_accepted h hf hop
    exact ends_command (completes_decFixed (by decide) (by decide) _ (fun _ _ => ⟨rfl, rfl⟩)) rfl rfl (by decide)
  | bpPack | dfsiEnc =>
    obtain rfl := rest_of_accepted h hf hop
    exact ends_testedEncoder (opcodeNumber_eq rfl rfl) (by decide) (by decide) (by decide) (by decide)
  | reset => exact ends_command (completes_execReset h hf hop) rfl rfl (by decide)
  | bpUnpack => exact ends_command (completes_execBpUnpack h hf hop) rfl rfl (by decide)
  | dfsiDec => exact ends_command (completes_execDfsiDec h hf hop) rfl rfl hdec
  | dfsiLen => exact ends_command (completes_execDfsiLen h hf) rfl rfl (by decide)
  | lduCheck => exact ends_command (completes_execLduCheck h hf hop) rfl rfl (by decide)
  | lduReasm => exact ends_command (completes_execLduReasm h hf hop) rfl rfl (by decide)
  | lduCompose => exact ends_execLduCompose h hf hop
  | lduEnd => exact ends_execLduEnd h hf hop
  | frvEnc => exact ends_command (completes_execFrvEnc h hf hop) rfl rfl (by decide)
  | frvDec => exact ends_command (completes_execFrvDec h hf hop) rfl rfl (by decide)
  | plSize => exact ends_command (completes_execPlSize h hf hop) rfl rfl (by decide)
  | plEnc => exact ends_execPlEnc h hf hop
  | plDec => exact ends_command (completes_execPlDec h hf hop) rfl rfl (by decide)
  | voice1 | voice2 | voice3 | voice4 | voice5 | voice6 | voice7 | voice8 | voice9 | voice10 | voice11 | voice12
  | voice13 | voice14 | voice15 | voice16 | voice17 | voice18 =>
    exact ends_of_completes rfl hdec (completes_execVoice h hf)

/-- All that an instruction can do: RESET 0, the two ends of the common checks (R240), or its own. -/
theorem exec_cases {i : Instr} {s t : State} (h : exec i s = .next t) :
    (i = .reset 0 ∧ t = resetCodec s) ∨
    (s.fault = 1 ∧ t = endWith .refused s) ∨
    (operandOk i = false ∧ t = endWith .errOperand s) ∨
    (s.fault = 0 ∧ Ends i s t) := by
  by_cases hi : i = .reset 0
  · subst hi
    exact .inl ⟨rfl, (Host.Outcome.next.inj h).symm⟩
  · rcases bit_cases s.fault with hf | hf
    · cases hop : operandOk i with
      | false =>
        rw [MalformedWords.exec_malformed hop hf] at h
        exact .inr (.inr (.inl ⟨rfl, (Host.Outcome.next.inj h).symm⟩))
      | true => exact .inr (.inr (.inr ⟨hf, exec_ends h hf hop⟩))
    · rw [MalformedWords.exec_latched hi hf] at h
      exact .inr (.inl ⟨hf, (Host.Outcome.next.inj h).symm⟩)

/-! ### Unsuccessful commands (R230, R65) -/

/-- Settles O22: what is neither OK nor a fault is `endWith`, after RESULT 0 for DROPPED. -/
theorem unsuccessfulCommandsWriteNothing : Obligations.UnsuccessfulCommandsWriteNothing := by
  intro i s t h hcode hfault
  rcases exec_cases h with ⟨-, rfl⟩ | ⟨-, rfl⟩ | ⟨-, rfl⟩ | ⟨hf, ⟨f, -, rfl⟩ | ⟨-, ⟨hok, -⟩ | ⟨c, -, rfl⟩ | ⟨-, rfl⟩⟩⟩
  · exact absurd rfl hcode
  · exact .inl rfl
  · exact .inl rfl
  · have hset : s.fault = 1 := hfault.symm
    exact absurd hset (ne_one_of_zero hf)
  · exact absurd hok hcode
  · exact .inl rfl
  · exact .inr ⟨rfl, rfl⟩

/-! ### Faults (R241, R242) -/

theorem statusCode_ne_faultCode (c : Status) (f : FaultCause) : c.code ≠ f.code := by
  cases f <;> cases c <;> decide

theorem faultCode_injective {f g : FaultCause} (h : f.code = g.code) : f = g := by
  revert h
  cases f <;> cases g <;> decide

theorem faultCode_cases (f : FaultCause) : f.code = 0x80#8 ∨ f.code = 0x81#8 := by
  cases f
  · exact .inl rfl
  · exact .inr rfl

theorem exists_faultCode_iff (c : BitVec 8) : (∃ f : FaultCause, c = f.code) ↔ c = 0x80#8 ∨ c = 0x81#8 :=
  ⟨fun h => h.elim (fun f hf => hf ▸ faultCode_cases f), fun h => h.elim (⟨.nullBuf, ·⟩) (⟨.overflow, ·⟩)⟩

section
variable {i : Instr} {o : Nat} {s t : State}

/-- What completes leaves the latch as it was. -/
theorem fault_of_completes (h : Completes o s t) : t.fault = s.fault := by
  rcases h with ⟨-, hfault⟩ | ⟨c, -, rfl⟩ | ⟨-, rfl⟩
  · exact hfault
  · rfl
  · rfl

/-- What completes has a status that is no fault. -/
theorem code_ne_of_completes (h : Completes o s t) (f : FaultCause) : t.code ≠ f.code := by
  rcases h with ⟨hcode, -⟩ | ⟨c, -, rfl⟩ | ⟨-, rfl⟩
  · exact hcode ▸ statusCode_ne_faultCode .ok f
  · exact statusCode_ne_faultCode c f
  · exact statusCode_ne_faultCode .dropped f

/-- An instruction ends with a fault's status exactly if it takes the fault. -/
theorem code_eq_faultCode_iff (h : Ends i s t) (f : FaultCause) : t.code = f.code ↔ FaultsOn i s f := by
  rcases h with ⟨g, hg, rfl⟩ | ⟨hnone, hc⟩
  · exact ⟨fun hcode => faultCode_injective hcode ▸ hg, fun hf => congrArg FaultCause.code (faultsOn_unique hg hf)⟩
  · exact ⟨fun hcode => absurd hcode (code_ne_of_completes hc f), fun hf => absurd hf (hnone f)⟩

/-- The latch is set exactly on the faults' statuses. -/
theorem fault_eq_one_iff (h : Ends i s t) (hf : s.fault = 0) : t.fault = 1 ↔ ∃ f : FaultCause, t.code = f.code := by
  rcases h with ⟨g, -, rfl⟩ | ⟨-, hc⟩
  · exact iff_of_true rfl ⟨g, rfl⟩
  · have hclear : t.fault ≠ 1 := ne_one_of_zero ((fault_of_completes hc).trans hf)
    exact iff_of_false hclear (not_exists.mpr (code_ne_of_completes hc))

/-- What faults is a command, since no sub-frame has an opcode of its own; `commandWord` is its word. -/
theorem encode_of_faultsOn {f : FaultCause} (h : FaultsOn i s f) : encode i = .command (commandWord i) := by
  rcases h with ⟨-, hneeds, -⟩ | ⟨-, rfl, -⟩
  · cases he : encode i with
    | command w =>
      delta commandWord
      rw [he]
    | subFrame b => exact absurd (opcodeNumber_of_subFrame he ▸ hneeds) (show ¬ NeedsTarget 0x21 by decide)
  · rfl

/-- From a clear latch the latch is set by fault entry alone. -/
theorem raised_of_latchSet (h : exec i s = .next t) (hf : s.fault = 0) (ht : t.fault = 1) :
    ∃ f, FaultsOn i s f ∧ t = raiseFault f (commandWord i) s := by
  have hsame : t.fault ≠ s.fault := by rw [ht, hf]; decide
  rcases exec_cases h with ⟨-, rfl⟩ | ⟨-, rfl⟩ | ⟨-, rfl⟩ | ⟨-, hraised | ⟨-, hc⟩⟩
  · exact absurd ht (show (0 : BitVec 1) ≠ 1 by decide)
  · exact absurd rfl hsame
  · exact absurd rfl hsame
  · exact hraised
  · exact absurd (fault_of_completes hc) hsame

end

/-- Settles O20: fault entry is `raiseFault` on the state before, and under the latch the status alone is written. -/
theorem faultEntryIsPrecise : Obligations.FaultEntryIsPrecise := by
  intro i s t h
  refine ⟨fun hf ht => ?_, fun hf hi => ?_⟩
  · obtain ⟨f, hon, rfl⟩ := raised_of_latchSet h hf ht
    exact ⟨f.code, commandWord i, faultCode_cases f, encode_of_faultsOn hon, raiseFault_eq _ _ _⟩
  · rw [MalformedWords.exec_latched hi hf] at h
    cases h
    exact ⟨hf, rfl, rfl⟩

/-- LDU.END with its one well-formed operand is the word 0x3500. -/
theorem eq_lduEnd_iff {w : CmdWord} {i : Instr} (h : decodeWord w = .ok i) : i = .lduEnd 0 ↔ w = 0x3500 := by
  constructor
  · rintro rfl
    exact (Encoding.command.inj (RoundTrip.encode_of_decodeWord h).1).symm
  · rintro rfl
    exact (Except.ok.inj h).symm

/-- Settles O21: with a malformed operand there is no fault; with a well-formed one `FaultsOn` says which, and the word shows
it. -/
theorem faultsHappenExactlyWhenTheSpecSays : Obligations.FaultsHappenExactlyWhenTheSpecSays := by
  intro w i s t hd hf h
  obtain ⟨he, -⟩ := RoundTrip.encode_of_decodeWord hd
  rw [← MalformedWords.operandOk_iff he, ← opcodeNumber_of_encode he, ← eq_lduEnd_iff hd, ← exists_faultCode_iff]
  cases hop : operandOk i with
  | false =>
    rw [MalformedWords.exec_malformed hop hf] at h
    cases h
    have hend : i ≠ .lduEnd 0 := by
      rintro rfl
      exact absurd hop (by decide)
    have hmalformed {p q : Prop} : ¬ (p ∧ false = true ∧ q) := by
      rintro ⟨-, hok, -⟩
      exact Bool.false_ne_true hok
    exact ⟨iff_of_false (statusCode_ne_faultCode .errOperand .nullBuf) hmalformed,
      iff_of_false (statusCode_ne_faultCode .errOperand .overflow) (fun hover => hend hover.1),
      iff_of_false (ne_one_of_zero hf) (not_exists.mpr (statusCode_ne_faultCode .errOperand))⟩
  | true =>
    have hends := exec_ends h hf hop
    have hnull := (code_eq_faultCode_iff hends .nullBuf).trans faultsOn_nullBuf_iff
    have hover := (code_eq_faultCode_iff hends .overflow).trans faultsOn_overflow_iff
    simp only [true_and]
    exact ⟨hnull, hover, fault_eq_one_iff hends hf⟩

/-! ### Listed statuses (R232) -/

theorem mem_ite {α : Type} {p : Prop} [Decidable p] {a : α} {l m : List α} (hl : p → a ∈ l) (hm : ¬ p → a ∈ m) :
    a ∈ if p then l else m := by
  by_cases hp : p
  · exact if_pos hp ▸ hl hp
  · exact if_neg hp ▸ hm hp

/-- Every rule lists OK and REFUSED. -/
theorem ok_refused_listed (o : Nat) : Status.ok.code ∈ listedStatuses o ∧ Status.refused.code ∈ listedStatuses o := by
  constructor
  all_goals
    delta listedStatuses
    repeat' refine mem_ite (fun _ => ?_) (fun _ => ?_)
    all_goals decide

/-- ERR_OPERAND is listed for each opcode with a form that an operand can break. -/
theorem errOperand_listed {o : Nat} (henc : o ≠ 0x20) (hlen : o ≠ 0x22) : Status.errOperand.code ∈ listedStatuses o := by
  delta listedStatuses
  repeat' refine mem_ite (fun _ => ?_) (fun _ => ?_)
  all_goals try contradiction
  all_goals decide

/-- An operand can break the form of neither DFSI.ENC nor DFSI.LEN (R82). -/
theorem opcodeNumber_of_malformed {i : Instr} (hop : operandOk i = false) : opcodeNumber i ≠ 0x20 ∧ opcodeNumber i ≠ 0x22 := by
  cases he : encode i with
  | command w =>
    have hfits := mt (MalformedWords.operandOk_iff he).mpr (Bool.eq_false_iff.mp hop)
    rw [opcodeNumber_of_encode he]
    exact ⟨fun ho => hfits (by rw [ho]; trivial), fun ho => hfits (by rw [ho]; trivial)⟩
  | subFrame b =>
    rw [opcodeNumber_of_subFrame he]
    decide

theorem fault_listed {i : Instr} {s : State} {f : FaultCause} (hf : FaultsOn i s f) :
    f.code ∈ listedStatuses (opcodeNumber i) := by
  have hlisted : ∀ o, NeedsTarget o → FaultCause.nullBuf.code ∈ listedStatuses o := by
    delta NeedsTarget
    decide
  rcases hf with ⟨rfl, hneeds, -⟩ | ⟨rfl, rfl, -⟩
  · exact hlisted _ hneeds
  · decide

/-- Settles O9: RESET 0 ends OK, the common checks end REFUSED or ERR_OPERAND, and the rest as its rule lists. -/
theorem everyCommandEndsWithAListedStatus : Obligations.EveryCommandEndsWithAListedStatus := by
  intro i s
  obtain ⟨t, h⟩ := LatchAndStep.exec_next i s
  obtain ⟨hok, hrefused⟩ := ok_refused_listed (opcodeNumber i)
  refine ⟨t, h, ?_⟩
  rcases exec_cases h with ⟨-, rfl⟩ | ⟨-, rfl⟩ | ⟨hop, rfl⟩ | ⟨-, ⟨f, hf, rfl⟩ | ⟨-, ⟨hcode, -⟩ | ⟨c, hc, rfl⟩ | ⟨hc, rfl⟩⟩⟩
  · exact hok
  · exact hrefused
  · obtain ⟨henc, hlen⟩ := opcodeNumber_of_malformed hop
    exact errOperand_listed henc hlen
  · exact fault_listed hf
  · exact hcode ▸ hok
  · exact hc
  · exact hc

end Sys2Proof.Endings
end

section
/-! SUPPORT. O15: the two ways into the reset state (70_reset_and_hazards.md R260). The reset input is an access that issues no
command, and the word 0x0F00 is the command RESET with operand 0; the step of each does the one reset event, `resetCodec`. -/

namespace Sys2Proof.ResetEvent

open Sys2Proof.Machine Sys2Proof.Claims

theorem step_resetPin (s : State) : step (withMove .resetPin s) = .next (resetCodec s) :=
  RegisterMap.step_withMove rfl s

/-- The command word of RESET with its one well-formed operand (R83, R244). -/
theorem decodeWord_resetZero : decodeWord 0x0F00 = .ok (.reset 0) := RoundTrip.decodeWord_of_encode rfl rfl

theorem step_writeReset (s : State) : step (withMove (.writeReg 0 0x0F00) s) = .next (resetCodec s) :=
  (LatchAndStep.step_writeCmd 0x0F00 s).trans
    ((StepDecodes.runWord_of_ok decodeWord_resetZero s).trans (LatchAndStep.exec_reset_zero s))

/-- Settles O15: the input and the command are the same reset event, and that event leaves the reset state. -/
theorem resetInputAndResetCommandAgree : Obligations.ResetInputAndResetCommandAgree := fun s =>
  ⟨(step_resetPin s).trans (congrArg Host.Outcome.next (resetCodec_eq s)), (step_writeReset s).trans (step_resetPin s).symm⟩

end Sys2Proof.ResetEvent
end
